-- ==== Sys2Proof/Word.lean ====
section
/-! DEFINITION. The bit vectors of the block (00_scope R10): u8, u16 and u32. -/

namespace Sys2Proof

/-- `u8`: a byte of a frame, of a payload or of the device stream. -/
abbrev Byte := BitVec 8

/-- `u16`: the CRC register, the data-flags mask, ERR_STICKY. -/
abbrev Half := BitVec 16

/-- `u32`: the command word, VALUE, RVALUE. -/
abbrev Word := BitVec 32

end Sys2Proof
end

