-- ==== Sys2Proof/Syntax.lean ====
section
/-! DEFINITION. The abstract syntax: one constructor of `Instr` per row of spec/opcode_table.json. -/

namespace Sys2Proof

/-- The frame register SEL selects (30_encoding R105): 0 = TXF, 1 = RXF. -/
inductive FrameSel where
  | tx | rx
  deriving DecidableEq, Repr

/-- The mode of RX_START (43_rx_resync R210; assembler `ONCE`, `LOOP`): single-shot or continuous. -/
inductive RxMode where
  | once | loop
  deriving DecidableEq, Repr

/-- The command codes of a frame (30_encoding R87), an "Immutable constant set". -/
inductive Command where
  | nothing | get | set | button | shutdown
  deriving DecidableEq, Repr

/-- An operation as the host issues it (30_encoding R100). VALUE and PAYLOAD travel beside the word (R108). -/
structure Operation where
  word : Word
  value : Word := 0
  payload : List Byte := []
  deriving DecidableEq, Repr

/-- The 15 operations of the command word (30_encoding R103) and the five wire command codes (R87). -/
inductive Instr where
  /-- CRC_INIT (41_crc R155). -/
  | crcInit
  /-- CRC_FEED (41_crc R157); ARG is the data byte. -/
  | crcFeed (b : Byte)
  /-- CRC_READ (41_crc R158). -/
  | crcRead
  /-- FRAME_LOAD_RAW (42_frame R171); PAYLOAD is the candidate frame. -/
  | frameLoadRaw (sel : FrameSel) (payload : List Byte)
  /-- FRAME_FROM_COMMAND (42_frame R172); ARG is the command code, any byte. -/
  | frameFromCommand (sel : FrameSel) (arg : Byte)
  /-- FIELD_GET (42_frame R173). -/
  | fieldGet (sel : FrameSel) (fid : Byte)
  /-- FIELD_SET (42_frame R174); the one operation with a VALUE. -/
  | fieldSet (sel : FrameSel) (fid : Byte) (value : Word)
  /-- SET_DATA_FLAGS (42_frame R176); PAYLOAD is a list of field ids. -/
  | setDataFlags (sel : FrameSel) (fids : List Byte)
  /-- IS_VALID (42_frame R177). -/
  | isValid (sel : FrameSel)
  /-- FRAME_CRC (42_frame R178). -/
  | frameCrc (sel : FrameSel)
  /-- SERIALIZE (42_frame R179). -/
  | serialize (sel : FrameSel)
  /-- RX_START (43_rx_resync R210). -/
  | rxStart (mode : RxMode)
  /-- RX_APPEND (43_rx_resync R211); PAYLOAD is the received bytes, oldest first. -/
  | rxAppend (payload : List Byte)
  /-- RX_SCAN (43_rx_resync R212). -/
  | rxScan
  /-- STATUS_READ (43_rx_resync R217). -/
  | statusRead
  /-- Wire command code 0 (30_encoding R88). -/
  | cmdNothing
  /-- Wire command code 1 (30_encoding R89). -/
  | cmdGet
  /-- Wire command code 2 (30_encoding R90). -/
  | cmdSet
  /-- Wire command code 3 (30_encoding R91). -/
  | cmdButton
  /-- Wire command code 5 (30_encoding R92). -/
  | cmdShutdown
  deriving DecidableEq, Repr

/-- The two things that carry an instruction: an operation on the command port, or the COMMAND byte of a frame. -/
inductive Encoded where
  | operation (o : Operation)
  | wire (code : Byte)
  deriving DecidableEq, Repr

end Sys2Proof
end

