-- ==== Sys2Proof/Decode.lean ====
section
/-! DEFINITION. The decoder of 30_encoding R109, total on every operation and every wire code, and the encoder of R110. -/

namespace Sys2Proof

/-- Why the decoder rejects. Every one of the first five is the same error to the host: ILLEGAL_OP (30_encoding R106). -/
inductive DecodeError where
  /-- RSV, bits 15:9, is not 0. -/
  | reservedBits
  /-- OP is 0x00 or not in the table. -/
  | unlistedOpcode
  /-- SEL, FID or ARG is nonzero where the operation does not use it. -/
  | unusedOperand
  /-- VALUE is nonzero on an operation other than FIELD_SET. -/
  | unusedValue
  /-- PAYLOAD is not empty on an operation that takes none. -/
  | unusedPayload
  /-- A COMMAND byte of 4 or 6..255: not a command (30_encoding R87, R93). -/
  | notACommand
  deriving DecidableEq, Repr

/-! ### The fields of the command word (30_encoding R101) -/

def Operation.opcode (o : Operation) : Byte := o.word.extractLsb' 0 8
def Operation.sel (o : Operation) : BitVec 1 := o.word.extractLsb' 8 1
def Operation.rsv (o : Operation) : BitVec 7 := o.word.extractLsb' 9 7
def Operation.fid (o : Operation) : Byte := o.word.extractLsb' 16 8
def Operation.arg (o : Operation) : Byte := o.word.extractLsb' 24 8

/-- 30_encoding R105. -/
def FrameSel.ofBit (b : BitVec 1) : FrameSel := if b = 0 then .tx else .rx

/-- 30_encoding R105. -/
def FrameSel.bit : FrameSel → BitVec 1
  | .tx => 0
  | .rx => 1

/-- 43_rx_resync R210: ARG bit 0 is LOOP. -/
def RxMode.ofArg (a : Byte) : RxMode := if a.getLsbD 0 then .loop else .once

/-- 43_rx_resync R210: ARG bit 0 is LOOP. -/
def RxMode.arg : RxMode → Byte
  | .once => 0x00
  | .loop => 0x01

/-- 30_encoding R87. -/
def Command.code : Command → Byte
  | .nothing => 0x00
  | .get => 0x01
  | .set => 0x02
  | .button => 0x03
  | .shutdown => 0x05

/-- 30_encoding R87: 4 and 6..255 are no commands. -/
def Command.ofCode? (b : Byte) : Option Command :=
  if b = 0x00 then some .nothing
  else if b = 0x01 then some .get
  else if b = 0x02 then some .set
  else if b = 0x03 then some .button
  else if b = 0x05 then some .shutdown
  else none

/-! ### The decoder -/

/-- A `require` line of 30_encoding R109. -/
def requireZero (ok : Bool) (i : Instr) : Except DecodeError Instr :=
  if ok then .ok i else .error .unusedOperand

/-- The `match op` of 30_encoding R109 with the `require` of each line. -/
def Operation.select (o : Operation) : Except DecodeError Instr :=
  let selZero := o.sel == 0
  let fidZero := o.fid == 0
  let argZero := o.arg == 0
  if o.opcode = 0x01 then requireZero (selZero && fidZero && argZero) .crcInit
  else if o.opcode = 0x02 then requireZero (selZero && fidZero) (.crcFeed o.arg)
  else if o.opcode = 0x03 then requireZero (selZero && fidZero && argZero) .crcRead
  else if o.opcode = 0x10 then requireZero (fidZero && argZero) (.frameLoadRaw (.ofBit o.sel) o.payload)
  else if o.opcode = 0x11 then requireZero fidZero (.frameFromCommand (.ofBit o.sel) o.arg)
  else if o.opcode = 0x12 then requireZero argZero (.fieldGet (.ofBit o.sel) o.fid)
  else if o.opcode = 0x13 then requireZero argZero (.fieldSet (.ofBit o.sel) o.fid o.value)
  else if o.opcode = 0x14 then requireZero (fidZero && argZero) (.setDataFlags (.ofBit o.sel) o.payload)
  else if o.opcode = 0x15 then requireZero (fidZero && argZero) (.isValid (.ofBit o.sel))
  else if o.opcode = 0x16 then requireZero (fidZero && argZero) (.frameCrc (.ofBit o.sel))
  else if o.opcode = 0x17 then requireZero (fidZero && argZero) (.serialize (.ofBit o.sel))
  else if o.opcode = 0x20 then
    requireZero (selZero && fidZero && o.arg.extractLsb' 1 7 == 0) (.rxStart (.ofArg o.arg))
  else if o.opcode = 0x21 then requireZero (selZero && fidZero && argZero) (.rxAppend o.payload)
  else if o.opcode = 0x22 then requireZero (selZero && fidZero && argZero) .rxScan
  else if o.opcode = 0x30 then requireZero (selZero && fidZero && argZero) .statusRead
  else .error .unlistedOpcode

/-- 30_encoding R109, last two lines: VALUE only with 0x13, PAYLOAD only with 0x10, 0x14 and 0x21. -/
def Operation.checkBeside (o : Operation) (i : Instr) : Except DecodeError Instr :=
  if o.opcode ≠ 0x13 ∧ o.value ≠ 0 then .error .unusedValue
  else if (o.opcode ≠ 0x10 ∧ o.opcode ≠ 0x14 ∧ o.opcode ≠ 0x21) ∧ o.payload ≠ [] then .error .unusedPayload
  else .ok i

/-- 30_encoding R109: the decoder of the command port. -/
def decodeOperation (o : Operation) : Except DecodeError Instr :=
  if o.rsv ≠ 0 then .error .reservedBits
  else
    match o.select with
    | .error e => .error e
    | .ok i => o.checkBeside i

/-- The wire instruction of a command (30_encoding R87). -/
def Command.instr : Command → Instr
  | .nothing => .cmdNothing
  | .get => .cmdGet
  | .set => .cmdSet
  | .button => .cmdButton
  | .shutdown => .cmdShutdown

/-- The COMMAND byte of a frame as a wire instruction (30_encoding R87, R93). -/
def decodeWire (code : Byte) : Except DecodeError Instr :=
  match Command.ofCode? code with
  | some c => .ok c.instr
  | none => .error .notACommand

/-- The decoder, on either carrier of an instruction. -/
def decode : Encoded → Except DecodeError Instr
  | .operation o => decodeOperation o
  | .wire code => decodeWire code

/-! ### The encoder (30_encoding R101, R110) -/

/-- A command word with RSV = 0 (30_encoding R101): ARG, FID, RSV, SEL, OP from bit 31 down. -/
def commandWord (arg fid : Byte) (sel : BitVec 1) (op : Byte) : Word :=
  arg ++ fid ++ (0 : BitVec 7) ++ sel ++ op

/-- The words of an instruction (30_encoding R110). -/
def encode : Instr → Encoded
  | .crcInit => .operation { word := commandWord 0 0 0 0x01 }
  | .crcFeed b => .operation { word := commandWord b 0 0 0x02 }
  | .crcRead => .operation { word := commandWord 0 0 0 0x03 }
  | .frameLoadRaw sel payload => .operation { word := commandWord 0 0 sel.bit 0x10, payload := payload }
  | .frameFromCommand sel arg => .operation { word := commandWord arg 0 sel.bit 0x11 }
  | .fieldGet sel fid => .operation { word := commandWord 0 fid sel.bit 0x12 }
  | .fieldSet sel fid value => .operation { word := commandWord 0 fid sel.bit 0x13, value := value }
  | .setDataFlags sel fids => .operation { word := commandWord 0 0 sel.bit 0x14, payload := fids }
  | .isValid sel => .operation { word := commandWord 0 0 sel.bit 0x15 }
  | .frameCrc sel => .operation { word := commandWord 0 0 sel.bit 0x16 }
  | .serialize sel => .operation { word := commandWord 0 0 sel.bit 0x17 }
  | .rxStart mode => .operation { word := commandWord mode.arg 0 0 0x20 }
  | .rxAppend payload => .operation { word := commandWord 0 0 0 0x21, payload := payload }
  | .rxScan => .operation { word := commandWord 0 0 0 0x22 }
  | .statusRead => .operation { word := commandWord 0 0 0 0x30 }
  | .cmdNothing => .wire Command.nothing.code
  | .cmdGet => .wire Command.get.code
  | .cmdSet => .wire Command.set.code
  | .cmdButton => .wire Command.button.code
  | .cmdShutdown => .wire Command.shutdown.code

/-! ### The table's numbering -/

/-- The bits of a row of spec/opcode_table.json as what carries them (log 27): an 8-bit row is a COMMAND byte; any other
row is a command word in bits 31:0, with VALUE in the bits above it and an empty PAYLOAD. -/
def Encoded.ofBits (nbits w : Nat) : Encoded :=
  if nbits = 8 then .wire (BitVec.ofNat 8 w)
  else .operation { word := BitVec.ofNat 32 w, value := BitVec.ofNat 32 (w >>> 32), payload := [] }

/-- The instruction the decoder reads from the `nbits` bits `w` of a table row. -/
def decodeTableWord (nbits w : Nat) : Option Instr :=
  match decode (Encoded.ofBits nbits w) with
  | .ok i => some i
  | .error _ => none

end Sys2Proof
end

