-- ==== Sys2Proof/Config.lean ====
section
/-! DEFINITION. The configuration parameters of 00_scope R8 and the constraints of R9.

A configuration is fixed when the block is built and no step changes it. `State` carries it as the argument every claim
is stated for (log 1). `Config.shipped` is the configuration of `State.reset`: the spec's defaults where it gives some,
opaque constants where the source's table is lost (log 2). -/

namespace Sys2Proof

/-- The seven codec kinds (00_scope R4, R19; 30_encoding R84). -/
inductive Kind where
  | byte | word | integer | string | temperature | date | battery
  deriving DecidableEq, Repr

/-- A field descriptor (30_encoding R81): the field covers frame bytes `offset .. offset + length - 1`. -/
structure Descriptor where
  name : String
  offset : Nat
  length : Nat
  kind : Kind
  deriving DecidableEq, Repr

/-- 00_scope R9: the length a kind allows; a string has any length of at least 1. -/
def Kind.lengthOk (k : Kind) (n : Nat) : Bool :=
  match k with
  | .byte => n == 1
  | .word => n == 2
  | .string => decide (1 ≤ n)
  | .integer | .temperature | .date | .battery => n == 4

/-- 00_scope R9: the field's range lies inside the frame and its length is one its kind allows. -/
def Descriptor.wellFormed (d : Descriptor) : Bool :=
  decide (d.offset + d.length ≤ 128) && d.kind.lengthOk d.length

/-- CAL_RANGE (00_scope R8, 30_encoding R83): CALIBRATION_VALUE_1, _2 and _3 are three distinct ids on ONE byte range.
One kind for the three, so that they "always decode equal" (20_memory R56): DEDUCED, log 10. -/
structure Calibration where
  id1 : Byte
  id2 : Byte
  id3 : Byte
  offset : Nat
  length : Nat
  kind : Kind
  deriving DecidableEq, Repr

/-- 30_encoding R83 and 00_scope R9 for the calibration fields: distinct configured ids, a legal range. -/
def Calibration.wellFormed (c : Calibration) : Bool :=
  decide (c.id1 ≠ c.id2 ∧ c.id1 ≠ c.id3 ∧ c.id2 ≠ c.id3) &&
  decide (4 ≤ c.id1.toNat ∧ 4 ≤ c.id2.toNat ∧ 4 ≤ c.id3.toNat) &&
  decide (c.offset + c.length ≤ 128) && c.kind.lengthOk c.length

/-- The parameters of 00_scope R8 that are not one fixed number of the spec. -/
structure Config where
  /-- CRC_INIT: initial value of the running register (D5). -/
  crcInit : Half
  /-- COMMAND_OFF: offset of COMMAND, a byte (D8). -/
  commandOff : Nat
  /-- VERSION_OFF: offset of VERSION, a byte (D8). -/
  versionOff : Nat
  /-- DATA_FLAGS_OFF: offset of DATA_FLAGS, a word (D8). -/
  dataFlagsOff : Nat
  /-- REGISTRY_EXT: the configured fields, less the calibration values (D10). -/
  registryExt : List (Byte × Descriptor)
  /-- CAL_RANGE and the three ids that share it (D10). -/
  calibration : Option Calibration
  /-- DFLAG_BIT: field id to a bit 0..15 (D10). -/
  dflagBit : List (Byte × Fin 16)
  /-- POLL_INTERVAL of the host, in milliseconds (D39). -/
  pollInterval : Nat
  /-- DISCONNECT_CLASS of the host: the write error codes that trigger recovery (D29; codes: log 14). -/
  disconnectClass : List Half
  /-- The ids of the two probe-temperature fields (45_host_session R250, N22), entries of REGISTRY_EXT of temperature kind
  (30_encoding R85): `Machine.probeIds` is what the host reads of them (log 22). -/
  probeTemperatures : Byte × Byte
  /-- Whether the host takes a string flagged NON_ASCII or UNTERMINATED for a decode failure (C1, I15; log 21). -/
  flaggedStringFatal : Bool
  deriving DecidableEq, Repr

/-- Two byte ranges have no byte in common. -/
def rangesDisjoint (o n p m : Nat) : Bool := decide (o + n ≤ p ∨ p + m ≤ o)

/-- 00_scope R9: COMMAND, VERSION and DATA_FLAGS lie inside bytes 0..125 and do not overlap each other. -/
def Config.headerWellFormed (c : Config) : Bool :=
  decide (c.commandOff + 1 ≤ 126 ∧ c.versionOff + 1 ≤ 126 ∧ c.dataFlagsOff + 2 ≤ 126) &&
  rangesDisjoint c.commandOff 1 c.versionOff 1 && rangesDisjoint c.commandOff 1 c.dataFlagsOff 2 &&
  rangesDisjoint c.versionOff 1 c.dataFlagsOff 2

/-- 00_scope R9, whole (that DFLAG_BIT gives a bit of 0..15 is its type). -/
def Config.wellFormed (c : Config) : Bool :=
  c.headerWellFormed && c.registryExt.all (fun e => e.2.wellFormed) &&
  (match c.calibration with
   | none => true
   | some k => k.wellFormed)

/-- REGISTRY_EXT of the device: lost (N1). OPAQUE: no proof can see an entry, only that each meets R9. -/
opaque Config.lostRegistry : List (Byte × { d : Descriptor // d.wellFormed = true })

/-- CAL_RANGE of the device: lost (N1). OPAQUE. -/
opaque Config.lostCalibration : Option { c : Calibration // c.wellFormed = true }

/-- DFLAG_BIT of the device: lost (N2). OPAQUE. -/
opaque Config.lostDflagBit : List (Byte × Fin 16)

/-- POLL_INTERVAL: caller-supplied, no default in any source (D39). OPAQUE. -/
opaque Config.openPollInterval : Nat

/-- DISCONNECT_CLASS: not in any source (D29, N14). OPAQUE. -/
opaque Config.openDisconnectClass : List Half

/-- The ids of the probe temperatures: not in any source (N22). OPAQUE. -/
opaque Config.openProbeTemperatures : Byte × Byte

/-- The host's policy on flagged strings: not in any source (I15). OPAQUE. -/
opaque Config.openFlaggedStringFatal : Bool

/-- The configuration of `State.reset`: the defaults of 00_scope R8 and the open parameters (log 2). -/
def Config.shipped : Config where
  crcInit := 0x0000
  commandOff := 0x00
  versionOff := 0x01
  dataFlagsOff := 0x02
  registryExt := Config.lostRegistry.map (fun e => (e.1, e.2.val))
  calibration := Config.lostCalibration.map (fun c => c.val)
  dflagBit := Config.lostDflagBit
  pollInterval := Config.openPollInterval
  disconnectClass := Config.openDisconnectClass
  probeTemperatures := Config.openProbeTemperatures
  flaggedStringFatal := Config.openFlaggedStringFatal

end Sys2Proof
end

