-- ==== Sys2Proof/Machine/State.lean ====
section
/-! DEFINITION. The state: the block's architectural state (10_state R20, R38), its command port (30_encoding R100, R102),
the configuration (00_scope R8) and the host's side of the link (45_host_session). All of it is plain data. -/

namespace Sys2Proof.Machine

/-- A 128-byte frame address space (20_memory R50) as address and byte pairs: addresses strictly rising, none of the
pairs equal to what an unlisted address reads as (0x00, the reset contents of 10_state R38; log 25). -/
structure Memory where
  cells : List Host.Cell
  deriving DecidableEq, Repr

/-- The frame of 128 bytes 0x00 (10_state R38). -/
def Memory.blank : Memory := { cells := [] }

/-! ### Responses -/

/-- The error codes of 60_exceptions R271; codes 10..255 are never produced (I22). -/
inductive ErrorCode where
  | sizeMismatch | unsupportedEncode | unknownField | valueRange | invalidCommand | rxOverflow | illegalOp | noFrame | rxDone
  deriving DecidableEq, Repr

/-- STATUS of a response (30_encoding R102): OK or an error. -/
inductive Status where
  | ok
  | error (e : ErrorCode)
  deriving DecidableEq, Repr

/-- A response (30_encoding R102). A field the operation's rule does not name is 0, `[]` or the empty list. -/
structure Response where
  status : Status := .ok
  rvalue : Word := 0
  rflags : Byte := 0
  rbytes : List Byte := []
  rframes : List (List Byte) := []
  deriving DecidableEq, Repr

/-! ### The host's side (45_host_session) -/

/-- What a non-blocking read of the device gives (45_host_session R243, R251). -/
inductive ReadOutcome where
  | bytes (bs : List Byte)
  | wouldBlock
  | endOfStream
  | error (code : Half)
  deriving DecidableEq, Repr

/-- What a write to the device gives (45_host_session R241, R242). -/
inductive WriteOutcome where
  | ok
  | error (code : Half)
  deriving DecidableEq, Repr

/-- What the outside world answers during one turn of an activity (log 16): any value of each field must be admitted
(D35, D40, I12 to I14, I28). -/
structure Env where
  write : WriteOutcome := .ok
  read : ReadOutcome := .wouldBlock
  /-- `some code`: opening the device path fails with that error. -/
  openError : Option Half := none
  /-- Milliseconds a sleeping activity has slept when it gets its turn (70_reset_and_hazards R311). -/
  elapsed : Nat := 0
  /-- How many bytes of a write cut short reach the device (I13). -/
  cut : Nat := 0
  /-- `some code`: the caller-supplied handler called in this turn raises (45_host_session R251; log 32). -/
  handlerError : Option Half := none
  deriving DecidableEq, Repr

/-- The three activities of the host (45_host_session R240). -/
inductive Activity where
  | caller | sender | receiver
  deriving DecidableEq, Repr

/-- The caller procedures (45_host_session R240, R246 to R250). -/
inductive Call where
  | reopen
  | close
  | pollRequest (mode : RxMode)
  | poll (fields : List Byte)
  | pollOnce
  /-- The convenience entry point, with the given interval in milliseconds (log 22). -/
  | watchProbes (interval : Nat)
  deriving DecidableEq, Repr

/-- One input of the machine: the next thing that happens at the command port or in the host. -/
inductive Event where
  /-- The host issues an operation on the command port (30_encoding R100). -/
  | operation (o : Operation)
  /-- The reset input is asserted (70_reset_and_hazards R300). -/
  | reset
  /-- A caller procedure is called (45_host_session). -/
  | call (c : Call) (env : Env)
  /-- An activity takes its next action (45_host_session R253). -/
  | turn (who : Activity) (env : Env)
  deriving DecidableEq, Repr

/-- What `onResponse` does with a delivered frame: hand it over (R240), decode fields (`poll`, R248), keep it (R249). -/
inductive Consumer where
  | handOver
  | values (fields : List Byte)
  | keepLast
  deriving DecidableEq, Repr

/-- One decoded field as FIELD_GET answers it (45_host_session R248). -/
structure Reading where
  fid : Byte
  rvalue : Word
  rflags : Byte
  rbytes : List Byte
  deriving DecidableEq, Repr

/-- Where the caller stands (45_host_session R240, R248, R250). -/
inductive CallerAt where
  | idle | openLink | buildRequest | selectFields | startSession | waiting
  deriving DecidableEq, Repr

/-- Where the sender stands (45_host_session R241, R242, R246). -/
inductive SenderAt where
  | off
  | serialize
  | write (bytes : List Byte)
  | sleepInterval
  | sleepRecovery
  | reopenClose
  | reopenOpen
  deriving DecidableEq, Repr

/-- Where the receiver stands (45_host_session R243, R248). `rest` are frames of the pass still to be handed over, `done`
is RFLAGS[1] of the pass. -/
inductive ReceiverAt where
  | off
  | read
  | append (bytes : List Byte)
  | scan
  | deliver (rest : List (List Byte)) (done : Bool)
  /-- `poll` has loaded a frame into RXF and is about to read its COMMAND. -/
  | readCommand (rest : List (List Byte)) (done : Bool)
  /-- `poll` holds the COMMAND byte of the frame in RXF: the wire instruction that runs next (log 7). -/
  | command (code : Byte) (rest : List (List Byte)) (done : Bool)
  /-- `poll` decodes the requested fields in order. -/
  | decodeFields (todo : List Byte) (got : List Reading) (rest : List (List Byte)) (done : Bool)
  | sleepIdle
  | exited
  deriving DecidableEq, Repr

/-- Why a session died (45_host_session R251). -/
inductive FatalCause where
  /-- A block operation answered a non-OK status (D32). -/
  | status (e : ErrorCode)
  /-- A write error that is not disconnect-class. -/
  | writeError (code : Half)
  /-- A read error other than would-block and end-of-stream. -/
  | readError (code : Half)
  /-- The device path could not be opened (log 19). -/
  | openError (code : Half)
  /-- The host takes a flagged string for a decode failure (C1; log 21). -/
  | decodeFailure (fid : Byte)
  /-- The caller-supplied `onResponse` or `onValues` raised inside the receiver (log 32). -/
  | handlerError (code : Half)
  /-- REGISTRY_EXT has no temperature field under a probe's id (log 22). -/
  | noProbeField
  deriving DecidableEq, Repr

/-- How a session ended (45_host_session R257); `completed` carries what `pollOnce` returns (R249). -/
inductive SessionEnd where
  | completed (result : Option (List Byte))
  | closed
  | failed (cause : FatalCause)
  deriving DecidableEq, Repr

/-- The host's side of the link (45_host_session). Its values at reset are the model's (log 24). -/
structure Session where
  /-- Is the device handle open (R246, R247). -/
  handleOpen : Bool := false
  /-- How many times the device path was opened. -/
  reopens : Nat := 0
  caller : CallerAt := .idle
  /-- The session's `loopMode` (R240). -/
  mode : RxMode := .once
  consumer : Consumer := .handOver
  /-- The session's POLL_INTERVAL in milliseconds (R241, R250). -/
  pollInterval : Nat := 0
  /-- Release the handle on every exit path (R250). -/
  releaseOnExit : Bool := false
  sender : SenderAt := .off
  receiver : ReceiverAt := .off
  /-- What reached the device, one entry a write, oldest first (logs 18, 29, 30). -/
  sent : List (List Byte) := []
  /-- The frames given to `onResponse` in this session, in order. -/
  delivered : List (List Byte) := []
  /-- The `onValues` calls of this session, in order. -/
  values : List (List Reading) := []
  ending : Option SessionEnd := none
  deriving DecidableEq, Repr

/-! ### The state -/

/-- The whole state. The first ten fields after `config` are the block's architectural state, exactly 10_state R20. -/
structure State where
  /-- The parameters (00_scope R8): no step writes them (log 1). -/
  config : Config
  /-- CRC_REG (10_state R23). -/
  crcReg : Half
  /-- TXF (10_state R24). -/
  txf : Memory
  /-- RXF (10_state R25). -/
  rxf : Memory
  /-- TXF_PRESENT (10_state R26). -/
  txfPresent : Bool
  /-- RXF_PRESENT (10_state R26). -/
  rxfPresent : Bool
  /-- RXBUF, oldest byte first (10_state R27). -/
  rxbuf : List Byte
  /-- LOOP_MODE (10_state R28). -/
  loopMode : Bool
  /-- FOUND (10_state R29). -/
  found : Bool
  /-- DONE (10_state R30). -/
  done : Bool
  /-- ERR_STICKY (10_state R31). -/
  errSticky : Half
  /-- The response to the last operation (30_encoding R102; log 4). -/
  response : Option Response
  /-- The index of the next operation (10_state R21; log 5). -/
  opIndex : Nat
  /-- The inputs still to come, next first (log 3). -/
  events : List Event
  /-- The host's side (45_host_session). -/
  session : Session
  deriving DecidableEq, Repr

/-- The reasons the machine can stop. The block itself never stops: its errors are status codes (60_exceptions R270). -/
inductive Fault where
  /-- Raised by FRAME_FROM_COMMAND, FIELD_GET, FIELD_SET and SET_DATA_FLAGS when the configuration gives a field a range
  that leaves the frame's addresses 0x00..0x7F (20_memory R50): a configuration error (20_memory R57, 00_scope R9). SAFE:
  the spec gives such a configuration no behaviour, and none that meets R9 reaches it. -/
  | noSuchAddress (offset length : Nat)
  deriving DecidableEq, Repr

/-- The reasons an instruction can be refused. -/
inductive Refusal where
  /-- Raised by an arm of `exec` whose instruction has no meaning yet (no arm today). SAFE. -/
  | notModelled (mnemonic : String)
  deriving DecidableEq, Repr

/-- The outcome of one step. -/
abbrev Result := Host.Outcome State Fault Refusal

/-- The state right after reset of a machine built with configuration `c` (10_state R38). -/
def State.resetWith (c : Config) : State where
  config := c
  crcReg := c.crcInit
  txf := .blank
  rxf := .blank
  txfPresent := false
  rxfPresent := false
  rxbuf := []
  loopMode := false
  found := false
  done := false
  errSticky := 0x0000
  response := none
  opIndex := 0
  events := []
  session := {}

/-- The state right after reset (10_state R38), in the shipped configuration (log 2). -/
def State.reset : State := State.resetWith Config.shipped

end Sys2Proof.Machine
end

