-- ==== Sys2Proof/Machine/Params.lean ====
section
/-! DEFINITION. The parameters of 00_scope R8 that the spec fixes to one number. -/

namespace Sys2Proof.Machine

/-- FRAME_LEN: bytes per frame. -/
def frameLen : Nat := 128

/-- CRC_LEN: bytes covered by the checksum, 0..125. -/
def crcLen : Nat := 126

/-- CKSUM_OFF: offset of the checksum word. -/
def cksumOff : Nat := 126

/-- CRC_POLY_R: the reflected polynomial constant (C13, C14; log 12). -/
def crcPolyR : Half := 0xA001

/-- VERSION_VALUE: what FRAME_FROM_COMMAND writes to VERSION. -/
def versionValue : Byte := 0x01

/-- RXBUF_CAP: capacity of the receive buffer in bytes (D17). -/
def rxbufCap : Nat := 256

/-- RX_READ_MAX: most bytes the host reads at once. -/
def rxReadMax : Nat := 128

/-- RECOVERY_DELAY of the host, 1 s, in milliseconds. -/
def recoveryDelay : Nat := 1000

/-- RX_IDLE_DELAY of the host, in milliseconds. -/
def rxIdleDelay : Nat := 100

end Sys2Proof.Machine
end

