-- ==== Sys2Proof/Machine/Flags.lean ====
section
/-! DEFINITION. Every flag and status computation: status codes, ERR_STICKY, the STATUS view, the flags of a response. -/

namespace Sys2Proof.Machine

/-- 60_exceptions R271: the code of an error. -/
def ErrorCode.code : ErrorCode → Nat
  | .sizeMismatch => 1
  | .unsupportedEncode => 2
  | .unknownField => 3
  | .valueRange => 4
  | .invalidCommand => 5
  | .rxOverflow => 6
  | .illegalOp => 7
  | .noFrame => 8
  | .rxDone => 9

/-- 60_exceptions R271: STATUS as the u8 of 30_encoding R102. -/
def Status.code : Status → Byte
  | .ok => 0
  | .error e => BitVec.ofNat 8 e.code

/-- 60_exceptions R275: the bit of ERR_STICKY an error sets. -/
def ErrorCode.stickyBit (e : ErrorCode) : Half := (1 : Half) <<< e.code

/-- 60_exceptions R271: a length as an info word, capped at 0xFFFFFFFF. -/
def cappedWord (n : Nat) : Word := BitVec.ofNat 32 (min n 0xFFFFFFFF)

/-- 10_state R33: the STATUS view, from bit 31 down: ERR_STICKY, two reserved bits, RXF_PRESENT, TXF_PRESENT, LOOP_MODE,
DONE, FOUND, RX_LEN (its nine bits hold every length a run reaches, log 26). -/
def statusWord (s : State) : Word :=
  s.errSticky ++ (0 : BitVec 2) ++ BitVec.ofBool s.rxfPresent ++ BitVec.ofBool s.txfPresent ++
    BitVec.ofBool s.loopMode ++ BitVec.ofBool s.done ++ BitVec.ofBool s.found ++ BitVec.ofNat 9 s.rxbuf.length

/-- 30_encoding R84: the KIND number. -/
def kindCode : Kind → BitVec 3
  | .byte => 0
  | .word => 1
  | .integer => 2
  | .string => 3
  | .temperature => 4
  | .date => 5
  | .battery => 6

/-- 40_codec R135: the SENTINEL values of a temperature. -/
def isSentinel (raw : Word) : Bool := raw == 0 || decide (0xFFFFFFFD ≤ raw.toNat)

/-- 40_codec R135: RFLAGS[4:0] of a temperature. -/
def temperatureFlags (raw : Word) : BitVec 5 := (0 : BitVec 4) ++ BitVec.ofBool (isSentinel raw)

/-- 40_codec R134: NON_ASCII, some returned byte is at least 0x80. -/
def nonAscii (text : List Byte) : Bool := text.any (fun b => decide (0x80 ≤ b.toNat))

/-- 40_codec R134: RFLAGS[4:0] of a string field of `n` bytes that decoded to `text`. -/
def stringFlags (n : Nat) (text : List Byte) : BitVec 5 :=
  (0 : BitVec 2) ++ BitVec.ofBool (text.length == n) ++ BitVec.ofBool (nonAscii text) ++ (0 : BitVec 1)

/-- 42_frame R173: RFLAGS[7:5] is the kind, RFLAGS[4:0] the decode flags. -/
def fieldFlags (k : Kind) (flags : BitVec 5) : Byte := kindCode k ++ flags

/-- 43_rx_resync R212: RFLAGS of RX_SCAN, FOUND in bit 0 and DONE in bit 1. -/
def scanFlags (found done : Bool) : Byte := (0 : BitVec 6) ++ BitVec.ofBool done ++ BitVec.ofBool found

end Sys2Proof.Machine
end

