-- ==== Sys2Proof/Machine/Ops.lean ====
section
/-! DEFINITION. The named operations over frame memory, frame registers and the response port, and raising an error: the
block's whole counterpart of an exception (60_exceptions R270, R278). There is no return from one: "there is also no
trap-return operation and no nesting". -/

namespace Sys2Proof.Machine

/-! ### Byte order (00_scope R13, 20_memory R54) -/

/-- `le16(b0, b1)`. -/
def le16 (b0 b1 : Byte) : Half := b1 ++ b0

/-- `le32(b0, b1, b2, b3)`. -/
def le32 (b0 b1 b2 b3 : Byte) : Word := b3 ++ b2 ++ b1 ++ b0

/-- The `n` little-endian bytes of a value (00_scope R14, `MemWrite`). -/
def leBytes : Nat → Word → List Byte
  | 0, _ => []
  | n + 1, v => v.setWidth 8 :: leBytes n (v >>> 8)

/-! ### Frame memory (20_memory R50) -/

/-- What an unlisted address reads as: the reset contents of 10_state R38. -/
def unlistedByte : Byte := 0x00

/-- The byte a list of cells holds at an address. -/
def cellsGet : List Host.Cell → Nat → Byte
  | [], _ => unlistedByte
  | (k, v) :: rest, a => if k = a then v else cellsGet rest a

/-- Store a byte, keeping the canonical form: the cell's place in the order, and no cell for the unlisted byte. -/
def cellsPut : List Host.Cell → Nat → Byte → List Host.Cell
  | [], a, b => if b = unlistedByte then [] else [(a, b)]
  | (k, v) :: rest, a, b =>
    if a < k then (if b = unlistedByte then (k, v) :: rest else (a, b) :: (k, v) :: rest)
    else if a = k then (if b = unlistedByte then rest else (a, b) :: rest)
    else (k, v) :: cellsPut rest a b

/-- Store bytes at consecutive addresses. -/
def cellsPutAll : List Host.Cell → Nat → List Byte → List Host.Cell
  | cs, _, [] => cs
  | cs, a, b :: bs => cellsPutAll (cellsPut cs a b) (a + 1) bs

/-- Addresses strictly rising, from `lo` on and below `hi`, and no cell with the unlisted byte. -/
def cellsCanonical (hi : Nat) : Nat → List Host.Cell → Bool
  | _, [] => true
  | lo, (k, v) :: rest => decide (lo ≤ k) && decide (k < hi) && v != unlistedByte && cellsCanonical hi (k + 1) rest

/-- The canonical form of a frame's memory. -/
def Memory.wf (m : Memory) : Bool := cellsCanonical frameLen 0 m.cells

/-- Read one byte; none outside 0x00..0x7F, where no address exists (20_memory R50). -/
def Memory.read (m : Memory) (a : Nat) : Option Byte :=
  if a < frameLen then some (cellsGet m.cells a) else none

/-- The `n` bytes at `o .. o + n - 1`; none when the range leaves the frame (20_memory R50). -/
def Memory.readRange (m : Memory) (o n : Nat) : Option (List Byte) :=
  if o + n ≤ frameLen then some ((List.range n).map (fun k => cellsGet m.cells (o + k))) else none

/-- Store bytes at `o`, `o + 1`, ...; none when the range leaves the frame (20_memory R50). -/
def Memory.writeRange (m : Memory) (o : Nat) (bs : List Byte) : Option Memory :=
  if o + bs.length ≤ frameLen then some { cells := cellsPutAll m.cells o bs } else none

/-- `s.bytes` (00_scope R14): the whole frame, byte 0 first (20_memory R55). -/
def Memory.bytes (m : Memory) : List Byte := (List.range frameLen).map (cellsGet m.cells)

/-- The cells of consecutive bytes from address `a` on. -/
def cellsOf : Nat → List Byte → List Host.Cell
  | _, [] => []
  | a, b :: bs => if b = unlistedByte then cellsOf (a + 1) bs else (a, b) :: cellsOf (a + 1) bs

/-- A frame written whole: byte i at offset i (20_memory R55). -/
def Memory.ofBytes (bs : List Byte) : Memory := { cells := cellsOf 0 (bs.take frameLen) }

/-! ### Frame registers (30_encoding R105) -/

/-- SEL as an info word (60_exceptions R271, NO_FRAME). -/
def selWord : FrameSel → Word
  | .tx => 0
  | .rx => 1

/-- The frame register SEL selects. -/
def State.frame (s : State) : FrameSel → Memory
  | .tx => s.txf
  | .rx => s.rxf

/-- The presence bit of the register SEL selects (10_state R26). -/
def State.present (s : State) : FrameSel → Bool
  | .tx => s.txfPresent
  | .rx => s.rxfPresent

/-- Write the bytes of a frame register; its presence bit stays. -/
def State.setFrame (s : State) (sel : FrameSel) (m : Memory) : State :=
  match sel with
  | .tx => { s with txf := m }
  | .rx => { s with rxf := m }

/-- Put a frame into a register: its bytes and its presence bit (10_state R26). -/
def State.putFrame (s : State) (sel : FrameSel) (m : Memory) : State :=
  match sel with
  | .tx => { s with txf := m, txfPresent := true }
  | .rx => { s with rxf := m, rxfPresent := true }

/-! ### Ending an operation (00_scope R15) -/

/-- `return (fields)`: the operation ends with status OK and the named response fields. -/
def respond (r : Response) (s : State) : Result := .next { s with response := some r }

/-- The state an error leaves (60_exceptions R274, R275): only ERR_STICKY changes, and the response carries the code and
the info word, every other field of it 0 or empty (30_encoding R102). -/
def raised (e : ErrorCode) (info : Word) (s : State) : State :=
  { s with
    errSticky := s.errSticky ||| e.stickyBit
    response := some { status := .error e, rvalue := info } }

/-- `raise E(info)` (00_scope R15; 60_exceptions R270): an error is a next state; the next operation runs normally. -/
def raise (e : ErrorCode) (info : Word) (s : State) : Result := .next (raised e info s)

/-- 60_exceptions R271, NO_FRAME: run `k` on the selected frame if it is present. -/
def withFrame (sel : FrameSel) (s : State) (k : Memory → Result) : Result :=
  if s.present sel then k (s.frame sel) else raise .noFrame (selWord sel) s

/-! ### Reset (70_reset_and_hazards R300) -/

/-- The reset event: every element of 10_state R20 takes its reset value; the configuration is no state and stays; the
host's side and the inputs to come stay (log 6). -/
def resetBlock (s : State) : State :=
  { State.resetWith s.config with opIndex := s.opIndex, events := s.events, session := s.session }

end Sys2Proof.Machine
end

