-- ==== Sys2Proof/Machine/Operands.lean ====
section
/-! DEFINITION. The operand forms: field ids (42_frame R170, 30_encoding R82, R83), data-flag bits (R86) and the field
codec (40_codec). -/

namespace Sys2Proof.Machine

/-! ### Field lookup -/

/-- 30_encoding R82: the four fixed field ids. -/
def fixedField (c : Config) (fid : Byte) : Option Descriptor :=
  if fid = 0 then some { name := "COMMAND", offset := c.commandOff, length := 1, kind := .byte }
  else if fid = 1 then some { name := "VERSION", offset := c.versionOff, length := 1, kind := .byte }
  else if fid = 2 then some { name := "DATA_FLAGS", offset := c.dataFlagsOff, length := 2, kind := .word }
  else if fid = 3 then some { name := "CHECKSUM", offset := cksumOff, length := 2, kind := .word }
  else none

/-- A calibration value: CAL_RANGE under one of its three names. -/
def Calibration.descriptor (k : Calibration) (name : String) : Descriptor :=
  { name := name, offset := k.offset, length := k.length, kind := k.kind }

/-- 30_encoding R83: the three calibration ids are "three aliases onto the same storage". -/
def calibrationField (c : Config) (fid : Byte) : Option Descriptor :=
  match c.calibration with
  | none => none
  | some k =>
    if fid = k.id1 then some (Calibration.descriptor k "CALIBRATION_VALUE_1")
    else if fid = k.id2 then some (Calibration.descriptor k "CALIBRATION_VALUE_2")
    else if fid = k.id3 then some (Calibration.descriptor k "CALIBRATION_VALUE_3")
    else none

/-- The first entry of a partial map given as a list. -/
def assoc {α : Type} : List (Byte × α) → Byte → Option α
  | [], _ => none
  | (k, v) :: rest, a => if k = a then some v else assoc rest a

/-- `desc(fid)` (42_frame R170): ids 0..3 are fixed, the others come from REGISTRY_EXT; none is unregistered. -/
def desc (c : Config) (fid : Byte) : Option Descriptor :=
  match fixedField c fid with
  | some d => some d
  | none =>
    match calibrationField c fid with
    | some d => some d
    | none => assoc c.registryExt fid

/-- An id that REGISTRY_EXT gives a temperature field (30_encoding R85). -/
def registeredTemperature (c : Config) (fid : Byte) : Bool :=
  match assoc c.registryExt fid with
  | none => false
  | some d => desc c fid == some d && d.kind == .temperature

/-- The two probe-temperature ids, which "come from REGISTRY_EXT" (45_host_session R250, 30_encoding R85); none if the
registry has no temperature field under one of them (log 22). -/
def probeIds (c : Config) : Option (Byte × Byte) :=
  if registeredTemperature c c.probeTemperatures.1 && registeredTemperature c c.probeTemperatures.2 then
    some c.probeTemperatures
  else none

/-- `flagbit(fid)` (42_frame R170): DFLAG_BIT. -/
def flagbit (c : Config) (fid : Byte) : Option (Fin 16) := assoc c.dflagBit fid

/-- 42_frame R176: the mask of a list of field ids, in list order from `mask`, or the first id that has no bit. -/
def dataFlagsMask (c : Config) (mask : Half) : List Byte → Except Byte Half
  | [] => .ok mask
  | f :: fs =>
    match flagbit c f with
    | none => .error f
    | some b => dataFlagsMask c (mask ||| (1 : Half) <<< b.val) fs

/-! ### Codec (40_codec) -/

/-- What a decode function returns (40_codec, preamble). -/
structure Decoded where
  rvalue : Word
  flags : BitVec 5 := 0
  rbytes : List Byte := []
  deriving DecidableEq, Repr

/-- Byte i of a field's bytes. -/
def byteAt (bs : List Byte) (i : Nat) : Byte := bs.getD i 0

/-- `le32` of a field's first four bytes. -/
def rawWord (bs : List Byte) : Word := le32 (byteAt bs 0) (byteAt bs 1) (byteAt bs 2) (byteAt bs 3)

/-- 40_codec R134: the bytes before the first zero byte, or all of them. -/
def stringText (bs : List Byte) : List Byte := bs.takeWhile (fun b => b != 0)

/-- 40_codec R130: one decode rule per kind (R131 to R135, R137, R138). Total: no byte values make it fail (C1). -/
def decodeField (k : Kind) (bs : List Byte) : Decoded :=
  match k with
  | .byte => { rvalue := (byteAt bs 0).setWidth 32 }
  | .word => { rvalue := (le16 (byteAt bs 0) (byteAt bs 1)).setWidth 32 }
  | .integer => { rvalue := rawWord bs }
  | .string =>
    { rvalue := BitVec.ofNat 32 (stringText bs).length
      flags := stringFlags bs.length (stringText bs)
      rbytes := stringText bs }
  | .temperature => { rvalue := rawWord bs, flags := temperatureFlags (rawWord bs) }
  | .date => { rvalue := rawWord bs }
  | .battery => { rvalue := rawWord bs }

/-- 40_codec R130, R140: encode is defined only for byte, word and integer. -/
def encodable : Kind → Bool
  | .byte | .word | .integer => true
  | .string | .temperature | .date | .battery => false

/-- 40_codec R141: VALUE fits a field of `n` bytes. -/
def fitsBytes (v : Word) (n : Nat) : Bool := decide (v.toNat < 2 ^ (8 * n))

/-- The response of FIELD_GET (42_frame R173) for a field of kind `k` holding `bs`. -/
def fieldResponse (k : Kind) (bs : List Byte) : Response :=
  { rvalue := (decodeField k bs).rvalue
    rflags := fieldFlags k (decodeField k bs).flags
    rbytes := (decodeField k bs).rbytes }

end Sys2Proof.Machine
end

