-- ==== Sys2Proof/Machine/Crc.lean ====
section
/-! DEFINITION. The CRC-16 generator (41_crc): the function, and the operations CRC_INIT, CRC_FEED and CRC_READ. -/

namespace Sys2Proof.Machine

/-- `crc_bit(r, b)` (41_crc R150): shift, then XOR with 0xA001 if the extracted bit is set (D6). -/
def crcBit (r : Half) (b : Byte) : Half × Byte :=
  (if (r ^^^ b.setWidth 16) &&& 1 = 1 then (r >>> 1) ^^^ crcPolyR else r >>> 1, b >>> 1)

/-- `n` iterations of `crc_bit`. -/
def crcBits : Nat → Half × Byte → Half × Byte
  | 0, rb => rb
  | n + 1, rb => crcBits n (crcBit rb.1 rb.2)

/-- `crc_byte(r, b)` (41_crc R151): eight iterations, least significant bit first. -/
def crcByte (r : Half) (b : Byte) : Half := (crcBits 8 (r, b)).1

/-- The running register after a sequence of bytes (41_crc R152). -/
def crcRegister (r : Half) (bs : List Byte) : Half := bs.foldl crcByte r

/-- `crc16(bs)` (41_crc R152): from CRC_INIT, complemented at the end. -/
def crc16 (init : Half) (bs : List Byte) : Half := ~~~ (crcRegister init bs)

/-- `frame_crc(f)` (41_crc R153): over bytes 0..125 of a frame given as bytes. -/
def frameCrcOf (init : Half) (w : List Byte) : Half := crc16 init (w.take crcLen)

/-- The checksum word of a frame given as bytes (20_memory R54). -/
def checksumWord (w : List Byte) : Half := le16 (byteAt w cksumOff) (byteAt w (cksumOff + 1))

/-- `valid(w)` (41_crc R156). -/
def validFrame (init : Half) (w : List Byte) : Bool := frameCrcOf init w == checksumWord w

/-- `StoreChecksum(s)` (42_frame R175): the frame's own checksum into bytes 126 and 127, low byte first. -/
def storeChecksum (init : Half) (m : Memory) : Memory :=
  { cells := cellsPutAll m.cells cksumOff (leBytes 2 ((frameCrcOf init m.bytes).setWidth 32)) }

/-- CRC_INIT (41_crc R155). -/
def execCrcInit (s : State) : Result := respond {} { s with crcReg := s.config.crcInit }

/-- CRC_FEED (41_crc R157). -/
def execCrcFeed (b : Byte) (s : State) : Result := respond {} { s with crcReg := crcByte s.crcReg b }

/-- CRC_READ (41_crc R158). -/
def execCrcRead (s : State) : Result := respond { rvalue := (~~~ s.crcReg).setWidth 32 } s

end Sys2Proof.Machine
end

