-- ==== Sys2Proof/Machine/Frame.lean ====
section
/-! DEFINITION. The frame unit (42_frame): FRAME_LOAD_RAW, FRAME_FROM_COMMAND, FIELD_GET, FIELD_SET, SET_DATA_FLAGS,
IS_VALID, FRAME_CRC, SERIALIZE. Errors are checked in the order of 60_exceptions R272. -/

namespace Sys2Proof.Machine

/-- Store bytes into a frame and re-seal it (42_frame R174, R176), or the fault of a range outside the frame (log 11). -/
def sealedWrite (init : Half) (m : Memory) (o : Nat) (bs : List Byte) (k : Memory → Result) : Result :=
  match m.writeRange o bs with
  | none => .fault (.noSuchAddress o bs.length)
  | some m' => k (storeChecksum init m')

/-- The unsealed frame of a command (42_frame R172): zeros, COMMAND, then VERSION; or the offset that is no address. -/
def commandBytes (c : Config) (arg : Byte) : Except Nat Memory :=
  match Memory.blank.writeRange c.commandOff [arg] with
  | none => .error c.commandOff
  | some m =>
    match m.writeRange c.versionOff [versionValue] with
    | none => .error c.versionOff
    | some m' => .ok m'

/-- FRAME_LOAD_RAW (42_frame R171). The checksum is neither checked nor recomputed (C3). -/
def execFrameLoadRaw (sel : FrameSel) (payload : List Byte) (s : State) : Result :=
  if payload.length ≠ frameLen then raise .sizeMismatch (cappedWord payload.length) s
  else respond {} (s.putFrame sel (Memory.ofBytes payload))

/-- FRAME_FROM_COMMAND (42_frame R172). -/
def execFrameFromCommand (sel : FrameSel) (arg : Byte) (s : State) : Result :=
  match Command.ofCode? arg with
  | none => raise .invalidCommand (arg.setWidth 32) s
  | some _ =>
    match commandBytes s.config arg with
    | .error o => .fault (.noSuchAddress o 1)
    | .ok m => respond {} (s.putFrame sel (storeChecksum s.config.crcInit m))

/-- FIELD_GET (42_frame R173). -/
def execFieldGet (sel : FrameSel) (fid : Byte) (s : State) : Result :=
  withFrame sel s fun m =>
    match desc s.config fid with
    | none => raise .unknownField (fid.setWidth 32) s
    | some d =>
      match m.readRange d.offset d.length with
      | none => .fault (.noSuchAddress d.offset d.length)
      | some bs => respond (fieldResponse d.kind bs) s

/-- FIELD_SET (42_frame R174). The checksum is stored after the field, so it wins where they overlap. -/
def execFieldSet (sel : FrameSel) (fid : Byte) (value : Word) (s : State) : Result :=
  withFrame sel s fun m =>
    match desc s.config fid with
    | none => raise .unknownField (fid.setWidth 32) s
    | some d =>
      if encodable d.kind = false then raise .unsupportedEncode (fid.setWidth 32) s
      else if fitsBytes value d.length = false then raise .valueRange value s
      else
        sealedWrite s.config.crcInit m d.offset (leBytes d.length value) fun m' => respond {} (s.setFrame sel m')

/-- SET_DATA_FLAGS (42_frame R176). -/
def execSetDataFlags (sel : FrameSel) (fids : List Byte) (s : State) : Result :=
  withFrame sel s fun m =>
    match dataFlagsMask s.config 0 fids with
    | .error f => raise .unknownField (f.setWidth 32) s
    | .ok mask =>
      sealedWrite s.config.crcInit m s.config.dataFlagsOff (leBytes 2 (mask.setWidth 32)) fun m' =>
        respond { rvalue := mask.setWidth 32 } (s.setFrame sel m')

/-- IS_VALID (42_frame R177). -/
def execIsValid (sel : FrameSel) (s : State) : Result :=
  withFrame sel s fun m => respond { rvalue := if validFrame s.config.crcInit m.bytes then 1 else 0 } s

/-- FRAME_CRC (42_frame R178). -/
def execFrameCrc (sel : FrameSel) (s : State) : Result :=
  withFrame sel s fun m => respond { rvalue := (frameCrcOf s.config.crcInit m.bytes).setWidth 32 } s

/-- SERIALIZE (42_frame R179). -/
def execSerialize (sel : FrameSel) (s : State) : Result :=
  withFrame sel s fun m => respond { rbytes := m.bytes } s

end Sys2Proof.Machine
end

