-- ==== Sys2Proof/Machine/Receive.lean ====
section
/-! DEFINITION. The RX unit (43_rx_resync): RX_START, RX_APPEND, RX_SCAN, and STATUS_READ. -/

namespace Sys2Proof.Machine

/-- RX_START (43_rx_resync R210); legal at any time. RXF's bytes stay, only its presence bit is cleared. -/
def execRxStart (mode : RxMode) (s : State) : Result :=
  respond {}
    { s with
      rxbuf := []
      loopMode := mode == .loop
      found := false
      done := false
      rxfPresent := false }

/-- RX_APPEND (43_rx_resync R211): RX_DONE before RX_OVERFLOW (60_exceptions R272). -/
def execRxAppend (payload : List Byte) (s : State) : Result :=
  if s.done then raise .rxDone 0 s
  else if rxbufCap < s.rxbuf.length + payload.length then
    raise .rxOverflow (cappedWord (s.rxbuf.length + payload.length)) s
  else
    respond { rvalue := BitVec.ofNat 32 (s.rxbuf.length + payload.length) } { s with rxbuf := s.rxbuf ++ payload }

/-- What one pass does with a buffer: the frames it delivers, how many bytes it discards, what stays. -/
structure Pass where
  delivered : List (List Byte)
  discarded : Nat
  rest : List Byte
  deriving DecidableEq, Repr

/-- The `while` of 43_rx_resync R212, at most `fuel` times round. -/
def drain (init : Half) : Nat → List Byte → Pass
  | 0, buf => { delivered := [], discarded := 0, rest := buf }
  | fuel + 1, buf =>
    if buf.length < frameLen then { delivered := [], discarded := 0, rest := buf }
    else if validFrame init (buf.take frameLen) then
      let p := drain init fuel (buf.drop frameLen)
      { p with delivered := buf.take frameLen :: p.delivered }
    else
      let p := drain init fuel (buf.drop 1)
      { p with discarded := p.discarded + 1 }

/-- One whole pass: "each iteration removes at least one byte", so as many rounds as bytes suffice. -/
def scanPass (init : Half) (buf : List Byte) : Pass := drain init buf.length buf

/-- RXF after a pass (10_state R25): the last delivered frame, if any. -/
def State.receiveLast (s : State) (delivered : List (List Byte)) : State :=
  match delivered.getLast? with
  | none => s
  | some w => s.putFrame .rx (Memory.ofBytes w)

/-- RX_SCAN (43_rx_resync R212) with the termination test of R213. -/
def execRxScan (s : State) : Result :=
  if s.done then raise .rxDone 0 s
  else
    let p := scanPass s.config.crcInit s.rxbuf
    let found := !p.delivered.isEmpty
    let done := !s.loopMode && found
    respond { rvalue := BitVec.ofNat 32 p.discarded, rflags := scanFlags found done, rframes := p.delivered }
      { s.receiveLast p.delivered with rxbuf := p.rest, found := found, done := done }

/-- STATUS_READ (43_rx_resync R217). -/
def execStatusRead (s : State) : Result := respond { rvalue := statusWord s } s

end Sys2Proof.Machine
end

