-- ==== Sys2Proof/Machine/Wire.lean ====
section
/-! DEFINITION. The wire command codes (30_encoding R87 to R93) as `poll` acts on them (45_host_session R248; log 7): the
COMMAND byte of the frame just loaded into RXF decides what happens to that frame. "The block gives it no meaning beyond
its code", so no state of the block changes. With no frame awaiting its command, nothing happens (log 8). -/

namespace Sys2Proof.Machine

/-- The field ids `poll` was asked for (45_host_session R248). -/
def Consumer.requested : Consumer → List Byte
  | .values fields => fields
  | .handOver | .keepLast => []

/-- "silently dropping" the frame: the receiver goes on with the frames still to be handed over (45_host_session R248). -/
def dropFrame (s : State) : State :=
  match s.session.receiver with
  | .command _ rest done => { s with session := { s.session with receiver := .deliver rest done } }
  | _ => s

/-- The frame answers the request: decode each requested field, in request order (45_host_session R248). -/
def keepFrame (s : State) : State :=
  match s.session.receiver with
  | .command _ rest done =>
    { s with session := { s.session with receiver := .decodeFields s.session.consumer.requested [] rest done } }
  | _ => s

/-- NOTHING (30_encoding R88): not GET, so `poll` drops the frame. -/
def execCmdNothing (s : State) : Result := .next (dropFrame s)

/-- GET (30_encoding R89): the response `poll` keeps. -/
def execCmdGet (s : State) : Result := .next (keepFrame s)

/-- SET (30_encoding R90): not GET, so `poll` drops the frame. -/
def execCmdSet (s : State) : Result := .next (dropFrame s)

/-- BUTTON (30_encoding R91): `poll` drops the frame. -/
def execCmdButton (s : State) : Result := .next (dropFrame s)

/-- SHUTDOWN (30_encoding R92): `poll` drops the frame. -/
def execCmdShutdown (s : State) : Result := .next (dropFrame s)

end Sys2Proof.Machine
end

