-- ==== Sys2Proof/Machine/Dispatch.lean ====
section
/-! DEFINITION. One arm per instruction, each one call of its meaning. -/

namespace Sys2Proof.Machine

def exec (i : Instr) (s : State) : Host.Outcome State Fault Refusal :=
  match i with
  | .crcInit => Sys2Proof.Machine.execCrcInit s
  | .crcFeed b => Sys2Proof.Machine.execCrcFeed b s
  | .crcRead => Sys2Proof.Machine.execCrcRead s
  | .frameLoadRaw sel payload => Sys2Proof.Machine.execFrameLoadRaw sel payload s
  | .frameFromCommand sel arg => Sys2Proof.Machine.execFrameFromCommand sel arg s
  | .fieldGet sel fid => Sys2Proof.Machine.execFieldGet sel fid s
  | .fieldSet sel fid value => Sys2Proof.Machine.execFieldSet sel fid value s
  | .setDataFlags sel fids => Sys2Proof.Machine.execSetDataFlags sel fids s
  | .isValid sel => Sys2Proof.Machine.execIsValid sel s
  | .frameCrc sel => Sys2Proof.Machine.execFrameCrc sel s
  | .serialize sel => Sys2Proof.Machine.execSerialize sel s
  | .rxStart mode => Sys2Proof.Machine.execRxStart mode s
  | .rxAppend payload => Sys2Proof.Machine.execRxAppend payload s
  | .rxScan => Sys2Proof.Machine.execRxScan s
  | .statusRead => Sys2Proof.Machine.execStatusRead s
  | .cmdNothing => Sys2Proof.Machine.execCmdNothing s
  | .cmdGet => Sys2Proof.Machine.execCmdGet s
  | .cmdSet => Sys2Proof.Machine.execCmdSet s
  | .cmdButton => Sys2Proof.Machine.execCmdButton s
  | .cmdShutdown => Sys2Proof.Machine.execCmdShutdown s

end Sys2Proof.Machine
end

