-- ==== Sys2Proof/Machine/Port.lean ====
section
/-! DEFINITION. The command port (30_encoding R100): accepting an operation, decoding it, running it, ILLEGAL_OP. -/

namespace Sys2Proof.Machine

/-- The port accepts an operation: the index of the next one advances, for a failing operation too (10_state R21). -/
def accept (s : State) : State := { s with opIndex := s.opIndex + 1 }

/-- One operation transaction (30_encoding R100, R106): the decoder's checks run before any other (60_exceptions R273);
ILLEGAL_OP carries the word (60_exceptions R271). -/
def issue (o : Operation) (s : State) : Result :=
  match decodeOperation o with
  | .ok i => exec i (accept s)
  | .error _ => raise .illegalOp o.word (accept s)

end Sys2Proof.Machine
end

