-- ==== Sys2Proof/Machine/Session.lean ====
section
/-! DEFINITION. The host's side (45_host_session): the caller procedures, the sender and the receiver, one action a turn,
and the events of the machine. Every block operation an activity issues goes through the command port. -/

namespace Sys2Proof.Machine

/-! ### Small updates -/

/-- Move the sender. -/
def State.senderTo (s : State) (a : SenderAt) : State := { s with session := { s.session with sender := a } }

/-- Move the receiver. -/
def State.receiverTo (s : State) (a : ReceiverAt) : State := { s with session := { s.session with receiver := a } }

/-- Move the caller. -/
def State.callerTo (s : State) (a : CallerAt) : State := { s with session := { s.session with caller := a } }

/-- Bytes reach the device: one entry a write. -/
def State.reaches (s : State) (bs : List Byte) : State := { s with session := { s.session with sent := s.session.sent ++ [bs] } }

/-- The device handle is closed. DESIGN CHOICE: a close never fails (log 34). -/
def State.closeHandle (s : State) : State := { s with session := { s.session with handleOpen := false } }

/-- The device path is opened (45_host_session R246). -/
def State.openHandle (s : State) : State :=
  { s with session := { s.session with handleOpen := true, reopens := s.session.reopens + 1 } }

/-! ### Ending a session (45_host_session R244, R247, R251, R255, R257) -/

/-- Forced cancellation of both activities: a write in progress is cut short, any prefix of it having reached the device
(45_host_session R244, I13: `env.cut` says which). -/
def cancelActivities (env : Env) (s : State) : State :=
  let s' :=
    match s.session.sender with
    | .write bs => s.reaches (bs.take env.cut)
    | .off | .serialize | .sleepInterval | .sleepRecovery | .reopenClose | .reopenOpen => s
  { s' with session := { s'.session with sender := .off, receiver := .off } }

/-- The session is over: nothing runs any more, the ending is recorded, a scoped connection is released (R250). -/
def endSession (e : SessionEnd) (env : Env) (s : State) : State :=
  let s' := cancelActivities env s
  { s' with
    session :=
      { s'.session with
        caller := .idle
        ending := some e
        handleOpen := s'.session.handleOpen && !s'.session.releaseOnExit
        releaseOnExit := false } }

/-- A fatal error ends the whole session: "fail-fast, no partial-session continuation" (45_host_session R251). -/
def failSession (c : FatalCause) (env : Env) (s : State) : State := endSession (.failed c) env s

/-- Issue an operation from an activity; a status other than OK is fatal (45_host_session R251, D32). -/
def issueOrFail (o : Operation) (env : Env) (s : State) (k : Response → State → State) : Result :=
  match issue o s with
  | .next s' =>
    match s'.response with
    | some r =>
      match r.status with
      | .ok => .next (k r s')
      | .error e => .next (failSession (.status e) env s')
    | none => .next s'
  | .fault f => .fault f
  | .refused r => .refused r

/-- The operation of an instruction: its words (30_encoding R110). Wire commands are issued by no one. -/
def operationOf (i : Instr) : Operation :=
  match encode i with
  | .operation o => o
  | .wire code => { word := code.setWidth 32 }

/-! ### The sender (45_host_session R241, R242) -/

/-- The outcome of a write: on a disconnect-class error the recovery, on any other error the end of the session. What a
failing write left on the device is any prefix (log 18). DESIGN CHOICE: a write that returns OK has put all its bytes on the
device (log 29), and with the handle closed a write still ends as the input says (log 30). -/
def afterWrite (bs : List Byte) (env : Env) (s : State) : State :=
  match env.write with
  | .ok => (s.reaches bs).senderTo .sleepInterval
  | .error code =>
    if s.config.disconnectClass.contains code then (s.reaches (bs.take env.cut)).senderTo .sleepRecovery
    else failSession (.writeError code) env s

/-- One action of the sender. A sleep ends once its turn reports at least its time (log 15). `reopen()` is two actions,
closing and opening, so that the receiver can read in between (D35); the
close never fails (log 34), the open ends as the input says. -/
def senderTurn (env : Env) (s : State) : Result :=
  match s.session.sender with
  | .off => .next s
  | .serialize => issueOrFail (operationOf (.serialize .tx)) env s fun r s' => s'.senderTo (.write r.rbytes)
  | .write bs => .next (afterWrite bs env s)
  | .sleepInterval => .next (if s.session.pollInterval ≤ env.elapsed then s.senderTo .serialize else s)
  | .sleepRecovery => .next (if recoveryDelay ≤ env.elapsed then s.senderTo .reopenClose else s)
  | .reopenClose => .next (s.closeHandle.senderTo .reopenOpen)
  | .reopenOpen =>
    match env.openError with
    | none => .next (s.openHandle.senderTo .serialize)
    | some code => .next (failSession (.openError code) env s)

/-! ### The receiver (45_host_session R243, R248, R249) -/

/-- One non-blocking read: at most `RX_READ_MAX` bytes; would-block and end-of-stream give none; with the handle closed
(during a reopen) either no bytes or a fatal error (D35). -/
def readBytes (env : Env) (s : State) : Except Half (List Byte) :=
  match env.read with
  | .error code => .error code
  | .wouldBlock => .ok []
  | .endOfStream => .ok []
  | .bytes bs => .ok (if s.session.handleOpen then bs.take rxReadMax else [])

/-- The field id of COMMAND (30_encoding R82). -/
def commandFid : Byte := 0

/-- A caller-supplied handler has been called: it returned, or it raised, which is fatal to the session
(45_host_session R251; log 32). -/
def afterHandler (env : Env) (s : State) (next : ReceiverAt) : State :=
  match env.handlerError with
  | none => s.receiverTo next
  | some code => failSession (.handlerError code) env s

/-- `onResponse(w)` begins: the frame is delivered in arrival order. `pollRequest` calls the caller's handler (R240),
`pollOnce` keeps the frame (R249), `poll` goes on to load it into RXF (R248). -/
def onResponse (w : List Byte) (rest : List (List Byte)) (done : Bool) (env : Env) (s : State) : Result :=
  let s' := { s with session := { s.session with delivered := s.session.delivered ++ [w] } }
  match s.session.consumer with
  | .handOver => .next (afterHandler env s' (.deliver rest done))
  | .keepLast => .next (s'.receiverTo (.deliver rest done))
  | .values _ =>
    issueOrFail (operationOf (.frameLoadRaw .rx w)) env s' fun _ t => t.receiverTo (.readCommand rest done)

/-- A string field the block flagged NON_ASCII or UNTERMINATED (40_codec R134). -/
def flaggedString (r : Response) : Bool :=
  r.rflags.extractLsb' 5 3 == kindCode .string && (r.rflags.getLsbD 1 || r.rflags.getLsbD 2)

/-- The next requested field of the frame in RXF, in request order (45_host_session R248). A host that takes a flagged
string for a decode failure ends the session (C1; log 21). -/
def decodeNext (f : Byte) (todo : List Byte) (got : List Reading) (rest : List (List Byte)) (done : Bool) (env : Env)
    (s : State) : Result :=
  issueOrFail (operationOf (.fieldGet .rx f)) env s fun r t =>
    if t.config.flaggedStringFatal && flaggedString r then failSession (.decodeFailure f) env t
    else
      t.receiverTo
        (.decodeFields todo (got ++ [{ fid := f, rvalue := r.rvalue, rflags := r.rflags, rbytes := r.rbytes }]) rest done)

/-- The COMMAND byte decides: the wire instruction it decodes to runs; a byte that is no command drops the frame
(45_host_session R248, 30_encoding R93). -/
def dispatchCommand (code : Byte) (s : State) : Result :=
  match decodeWire code with
  | .ok i => exec i s
  | .error _ => .next (dropFrame s)

/-- `onValues` is called with the readings of one frame (45_host_session R248). -/
def handValues (got : List Reading) (next : ReceiverAt) (env : Env) (s : State) : State :=
  afterHandler env { s with session := { s.session with values := s.session.values ++ [got] } } next

/-- One action of the receiver. -/
def receiverTurn (env : Env) (s : State) : Result :=
  match s.session.receiver with
  | .off => .next s
  | .read =>
    match readBytes env s with
    | .ok bs => .next (s.receiverTo (.append bs))
    | .error code => .next (failSession (.readError code) env s)
  | .append bs => issueOrFail (operationOf (.rxAppend bs)) env s fun _ t => t.receiverTo .scan
  | .scan =>
    issueOrFail (operationOf .rxScan) env s fun r t => t.receiverTo (.deliver r.rframes (r.rflags.getLsbD 1))
  | .deliver [] done => .next (s.receiverTo (if done then .exited else .sleepIdle))
  | .deliver (w :: rest) done => onResponse w rest done env s
  | .readCommand rest done =>
    issueOrFail (operationOf (.fieldGet .rx commandFid)) env s fun r t =>
      t.receiverTo (.command (r.rvalue.setWidth 8) rest done)
  | .command code _ _ => dispatchCommand code s
  | .decodeFields [] got rest done => .next (handValues got (.deliver rest done) env s)
  | .decodeFields (f :: todo) got rest done => decodeNext f todo got rest done env s
  | .sleepIdle => .next (if rxIdleDelay ≤ env.elapsed then s.receiverTo .read else s)
  | .exited => .next s

/-! ### The caller (45_host_session R240, R246 to R250) -/

/-- Begin a call: what the last session delivered is forgotten. -/
def beginCall (interval : Nat) (release : Bool) (mode : RxMode) (consumer : Consumer) (at_ : CallerAt) (s : State) : State :=
  { s with
    session :=
      { s.session with
        caller := at_
        mode := mode
        consumer := consumer
        pollInterval := interval
        releaseOnExit := release
        delivered := []
        values := []
        ending := none } }

/-- `reopen()` by the caller (45_host_session R246): closes any existing handle, then opens the device path. -/
def reopenByCaller (env : Env) (s : State) : State :=
  match env.openError with
  | none => s.closeHandle.openHandle
  | some code => failSession (.openError code) env s.closeHandle

/-- `close()` (45_host_session R247): cancels all active activities, then closes the handle; safe with no session. DESIGN
CHOICE: a `pollOnce` cut short returns nothing, whatever was delivered (R249, log 33); the close never fails (log 34); a
call that has not begun its session yet is abandoned as closed (log 36). -/
def closeByCaller (env : Env) (s : State) : State :=
  match s.session.caller with
  | .idle => (cancelActivities env s).closeHandle
  | .openLink | .buildRequest | .selectFields | .startSession | .waiting => (endSession .closed env s).closeHandle

/-- The convenience entry point begins: `poll` of the two probe temperatures at the given interval, the connection
released on every exit (45_host_session R250). Without the two fields there is nothing to request: it ends as failed,
released (log 22). -/
def startWatch (interval : Nat) (env : Env) (s : State) : State :=
  match probeIds s.config with
  | some ids => beginCall interval true .loop (.values [ids.1, ids.2]) .openLink s
  | none => failSession .noProbeField env (beginCall interval true .loop (.values []) .openLink s)

/-- A call of a caller procedure. Only `close()` interrupts a call that is still running (log 17). -/
def startCall (c : Call) (env : Env) (s : State) : State :=
  match c with
  | .close => closeByCaller env s
  | .reopen => if s.session.caller = .idle then reopenByCaller env s else s
  | .pollRequest mode =>
    if s.session.caller = .idle then beginCall s.config.pollInterval false mode .handOver .startSession s else s
  | .pollOnce =>
    if s.session.caller = .idle then beginCall s.config.pollInterval false .once .keepLast .startSession s else s
  | .poll fields =>
    if s.session.caller = .idle then beginCall s.config.pollInterval false .loop (.values fields) .buildRequest s else s
  | .watchProbes interval =>
    if s.session.caller = .idle then startWatch interval env s else s

/-- Both activities start (45_host_session R240). -/
def startActivities (s : State) : State :=
  { s with session := { s.session with caller := .waiting, sender := .serialize, receiver := .read } }

/-- What `pollOnce` returns: "only the most recently delivered one" (45_host_session R249). -/
def sessionResult (x : Session) : Option (List Byte) :=
  match x.consumer with
  | .keepLast => x.delivered.getLast?
  | .handOver | .values _ => none

/-- One action of the caller. An error in `poll`'s build phase ends the call too (log 20). A waiting caller ends a
single-shot session once the receiver has exited (R244); in continuous mode it waits for ever (R245). DESIGN CHOICE: before
that turn a fatal error of the sender, or `close()`, still ends the session as failed or closed (log 35). -/
def callerTurn (env : Env) (s : State) : Result :=
  match s.session.caller with
  | .idle => .next s
  | .openLink =>
    match env.openError with
    | none => .next (s.closeHandle.openHandle.callerTo .buildRequest)
    | some code => .next (failSession (.openError code) env s.closeHandle)
  | .buildRequest =>
    issueOrFail (operationOf (.frameFromCommand .tx Command.get.code)) env s fun _ t => t.callerTo .selectFields
  | .selectFields =>
    issueOrFail (operationOf (.setDataFlags .tx s.session.consumer.requested)) env s fun _ t => t.callerTo .startSession
  | .startSession => issueOrFail (operationOf (.rxStart s.session.mode)) env s fun _ t => startActivities t
  | .waiting =>
    if s.session.mode = .once ∧ s.session.receiver = .exited then
      .next (endSession (.completed (sessionResult s.session)) env s)
    else .next s

/-! ### Events -/

/-- One turn of an activity: the scheduler's choice (45_host_session R253). -/
def takeTurn (who : Activity) (env : Env) (s : State) : Result :=
  match who with
  | .caller => callerTurn env s
  | .sender => senderTurn env s
  | .receiver => receiverTurn env s

/-- One input. DESIGN CHOICE (log 31): an operation issued directly is no part of a session, so its error does not end one;
R251 is applied to the operations of the caller, the sender and the receiver. -/
def runEvent (e : Event) (s : State) : Result :=
  match e with
  | .operation o => issue o s
  | .reset => .next (resetBlock s)
  | .call c env => .next (startCall c env s)
  | .turn who env => takeTurn who env s

/-- The next input is taken and acted on; with none the machine waits, unchanged (log 3). -/
def runNext (s : State) : Result :=
  match s.events with
  | [] => .next s
  | e :: rest => runEvent e { s with events := rest }

/-- `s` with an instruction placed where the next step takes it: an operation as the next input; a wire command as the
COMMAND byte of the frame `poll` has just loaded, with the receiver's turn next (log 9). -/
def placeNext (x : Encoded) (s : State) : State :=
  match x with
  | .operation o => { s with events := .operation o :: s.events }
  | .wire code =>
    { s with
      events := .turn .receiver {} :: s.events
      session := { s.session with receiver := .command code [] false } }

end Sys2Proof.Machine
end

