-- ==== Sys2Proof/Machine/Step.lean ====
section
/-! DEFINITION. One step of the machine: the next input (20_memory R60, R63). -/

namespace Sys2Proof.Machine

/-- One step. -/
def step (s : State) : Host.Outcome State Fault Refusal := runNext s

/-- `s` with the instruction of the bits `w` of a table row stored where `step` takes its next instruction (log 9). -/
def State.withFetchWord (s : State) (nbits w : Nat) : State := placeNext (Encoded.ofBits nbits w) s

end Sys2Proof.Machine
end

