-- ==== Sys2Proof/Machine/Assembler.lean ====
section
/-! DEFINITION. The assembler's forms (30_encoding R110) and pseudo-instructions (R111): names resolved, words made,
a line's text, and a text read as a line (log 13). -/

namespace Sys2Proof.Machine

/-- FID as it is written: a field name or a number (30_encoding R110). -/
inductive AsmField where
  | name (n : String)
  | number (n : Byte)
  deriving DecidableEq, Repr

/-- A command code as it is written: its name or a number (30_encoding R110). -/
inductive AsmCommand where
  | name (c : Command)
  | number (n : Byte)
  deriving DecidableEq, Repr

/-- One line of assembler: the forms of 30_encoding R110. -/
inductive AsmLine where
  | crcInit
  | crcFeed (b : Byte)
  | crcRead
  | frameLoadRaw (s : FrameSel) (bytes : List Byte)
  | frameFromCommand (s : FrameSel) (cmd : AsmCommand)
  | fieldGet (s : FrameSel) (f : AsmField)
  | fieldSet (s : FrameSel) (f : AsmField) (v : Word)
  | setDataFlags (s : FrameSel) (fs : List AsmField)
  | isValid (s : FrameSel)
  | frameCrc (s : FrameSel)
  | serialize (s : FrameSel)
  | rxStart (m : RxMode)
  | rxAppend (bytes : List Byte)
  | rxScan
  | statusRead
  deriving DecidableEq, Repr

/-- The pseudo-instructions of 30_encoding R111. -/
inductive Pseudo where
  | request (s : FrameSel) (cmd : AsmCommand) (fs : List AsmField)
  | crcBytes (bytes : List Byte)
  | rxPass (bytes : List Byte)
  deriving DecidableEq, Repr

/-- The names of the configured fields: the calibration values and the entries of REGISTRY_EXT. -/
def configuredNames (c : Config) : List (String × Byte) :=
  (match c.calibration with
   | none => []
   | some k => [("CALIBRATION_VALUE_1", k.id1), ("CALIBRATION_VALUE_2", k.id2), ("CALIBRATION_VALUE_3", k.id3)]) ++
  c.registryExt.map (fun e => (e.2.name, e.1))

/-- The id a field name stands for: the four fixed names of 30_encoding R82, else a configured name. DESIGN CHOICE
(log 28): of several fields of one name, a fixed field comes first, then a calibration value, then the first entry of
REGISTRY_EXT. -/
def fidOfName (c : Config) (n : String) : Option Byte :=
  ((([("COMMAND", 0), ("VERSION", 1), ("DATA_FLAGS", 2), ("CHECKSUM", 3)] : List (String × Byte)) ++
    configuredNames c).find? (fun e => e.1 == n)).map (fun e => e.2)

/-- The id a field operand stands for. -/
def AsmField.resolve (c : Config) : AsmField → Option Byte
  | .name n => fidOfName c n
  | .number n => some n

/-- The code a command operand stands for. -/
def AsmCommand.resolve : AsmCommand → Byte
  | .name c => c.code
  | .number n => n

/-- The ids of a list of fields; none if a name is unknown. -/
def resolveAll (c : Config) : List AsmField → Option (List Byte)
  | [] => some []
  | f :: fs =>
    match AsmField.resolve c f, resolveAll c fs with
    | some b, some bs => some (b :: bs)
    | _, _ => none

/-- The instruction of a line; none if a field name is unknown. -/
def AsmLine.toInstr (c : Config) : AsmLine → Option Instr
  | .crcInit => some .crcInit
  | .crcFeed b => some (.crcFeed b)
  | .crcRead => some .crcRead
  | .frameLoadRaw s bytes => some (.frameLoadRaw s bytes)
  | .frameFromCommand s cmd => some (.frameFromCommand s cmd.resolve)
  | .fieldGet s f => (AsmField.resolve c f).map (Instr.fieldGet s)
  | .fieldSet s f v => (AsmField.resolve c f).map (fun b => Instr.fieldSet s b v)
  | .setDataFlags s fs => (resolveAll c fs).map (Instr.setDataFlags s)
  | .isValid s => some (.isValid s)
  | .frameCrc s => some (.frameCrc s)
  | .serialize s => some (.serialize s)
  | .rxStart m => some (.rxStart m)
  | .rxAppend bytes => some (.rxAppend bytes)
  | .rxScan => some .rxScan
  | .statusRead => some .statusRead

/-- The operation of a line (30_encoding R110). -/
def assemble (c : Config) (l : AsmLine) : Option Encoded := (l.toInstr c).map encode

/-- The lines a pseudo-instruction expands to (30_encoding R111); an empty RX_PASS is a bare RX_SCAN. -/
def Pseudo.expand : Pseudo → List AsmLine
  | .request s cmd fs => [.frameFromCommand s cmd, .setDataFlags s fs]
  | .crcBytes bytes => [.crcInit] ++ bytes.map AsmLine.crcFeed ++ [.crcRead]
  | .rxPass bytes => if bytes.isEmpty then [.rxScan] else [.rxAppend bytes, .rxScan]

/-! ### The text of a line (30_encoding R110) -/

/-- A hexadecimal digit. -/
def hexDigit (n : Nat) : Char := if n < 10 then Char.ofNat (48 + n) else Char.ofNat (55 + n)

/-- A byte as two hexadecimal digits. -/
def hexByte (b : Byte) : String := String.ofList [hexDigit (b.toNat / 16), hexDigit (b.toNat % 16)]

/-- A byte list, for example `<AA 55 FF>`. -/
def byteListText (bs : List Byte) : String := "<" ++ String.intercalate " " (bs.map hexByte) ++ ">"

/-- SEL is written `TX` or `RX`. -/
def selText : FrameSel → String
  | .tx => "TX"
  | .rx => "RX"

/-- A command code by the name of 30_encoding R87. -/
def commandText : Command → String
  | .nothing => "NOTHING"
  | .get => "GET"
  | .set => "SET"
  | .button => "BUTTON"
  | .shutdown => "SHUTDOWN"

/-- A command operand's text; numbers are decimal. -/
def AsmCommand.text : AsmCommand → String
  | .name c => commandText c
  | .number n => toString n.toNat

/-- A field operand's text. -/
def AsmField.text : AsmField → String
  | .name n => n
  | .number n => toString n.toNat

/-- The opening brace of a field list, character 123. -/
def braceOpen : Char := Char.ofNat 123

/-- The closing brace of a field list, character 125. -/
def braceClose : Char := Char.ofNat 125

/-- A field list in braces. -/
def fieldListText (fs : List AsmField) : String :=
  String.singleton braceOpen ++ String.intercalate ", " (fs.map AsmField.text) ++ String.singleton braceClose

/-- A line as it is written. -/
def AsmLine.text : AsmLine → String
  | .crcInit => "CRC_INIT"
  | .crcFeed b => "CRC_FEED " ++ toString b.toNat
  | .crcRead => "CRC_READ"
  | .frameLoadRaw s bytes => "FRAME_LOAD_RAW " ++ selText s ++ ", " ++ byteListText bytes
  | .frameFromCommand s cmd => "FRAME_FROM_COMMAND " ++ selText s ++ ", " ++ cmd.text
  | .fieldGet s f => "FIELD_GET " ++ selText s ++ ", " ++ f.text
  | .fieldSet s f v => "FIELD_SET " ++ selText s ++ ", " ++ f.text ++ ", " ++ toString v.toNat
  | .setDataFlags s fs => "SET_DATA_FLAGS " ++ selText s ++ ", " ++ fieldListText fs
  | .isValid s => "IS_VALID " ++ selText s
  | .frameCrc s => "FRAME_CRC " ++ selText s
  | .serialize s => "SERIALIZE " ++ selText s
  | .rxStart m => if m = .once then "RX_START ONCE" else "RX_START LOOP"
  | .rxAppend bytes => "RX_APPEND " ++ byteListText bytes
  | .rxScan => "RX_SCAN"
  | .statusRead => "STATUS_READ"

/-! ### Reading a line (30_encoding R110) -/

/-- Blanks removed at both ends. -/
def trim (cs : List Char) : List Char :=
  ((cs.dropWhile (fun c => c == ' ')).reverse.dropWhile (fun c => c == ' ')).reverse

/-- Pieces between separators. -/
def pieces (sep : Char) : List Char → List (List Char)
  | [] => [[]]
  | c :: cs =>
    if c == sep then [] :: pieces sep cs
    else
      match pieces sep cs with
      | [] => [[c]]
      | p :: ps => (c :: p) :: ps

/-- Operands are separated by commas; the commas of a field list are its own. -/
def operandPieces : Bool → List Char → List (List Char)
  | _, [] => [[]]
  | inList, c :: cs =>
    if c == ',' && !inList then [] :: operandPieces false cs
    else
      match operandPieces ((inList || c == braceOpen) && c != braceClose) cs with
      | [] => [[c]]
      | p :: ps => (c :: p) :: ps

/-- The value of a digit, of base 16 or less. -/
def digitOf (c : Char) : Option Nat :=
  if '0' ≤ c ∧ c ≤ '9' then some (c.toNat - 48)
  else if 'A' ≤ c ∧ c ≤ 'F' then some (c.toNat - 55)
  else if 'a' ≤ c ∧ c ≤ 'f' then some (c.toNat - 87)
  else none

/-- Digits of a base, most significant first. -/
def readDigits (base : Nat) : Nat → List Char → Option Nat
  | n, [] => some n
  | n, c :: cs =>
    match digitOf c with
    | none => none
    | some d => if d < base then readDigits base (n * base + d) cs else none

/-- A number, decimal or 0x-hexadecimal. -/
def readNumber : List Char → Option Nat
  | [] => none
  | '0' :: 'x' :: c :: cs => readDigits 16 0 (c :: cs)
  | c :: cs => readDigits 10 0 (c :: cs)

/-- A number below `2 ^ w`. -/
def readBits (w : Nat) (cs : List Char) : Option (BitVec w) :=
  match readNumber cs with
  | none => none
  | some n => if n < 2 ^ w then some (BitVec.ofNat w n) else none

/-- Every entry read, or none. -/
def readAll {α : Type} (f : List Char → Option α) : List (List Char) → Option (List α)
  | [] => some []
  | x :: xs =>
    match f x, readAll f xs with
    | some a, some as => some (a :: as)
    | _, _ => none

/-- What stands between an opening and a closing character. -/
def between (a b : Char) (cs : List Char) : Option (List Char) :=
  match cs with
  | [] => none
  | c :: rest => if c == a && rest.getLast? == some b then some (trim rest.dropLast) else none

/-- One byte of a byte list: hexadecimal digits. DESIGN CHOICE: any number of them, of a value below 256; 30_encoding R110
shows two (log 13). -/
def readHexByte (cs : List Char) : Option Byte :=
  match cs, readDigits 16 0 cs with
  | [], _ => none
  | _, none => none
  | _, some n => if n < 256 then some (BitVec.ofNat 8 n) else none

/-- A byte list, for example `<AA 55 FF>`. -/
def readBytes? (cs : List Char) : Option (List Byte) :=
  match between '<' '>' cs with
  | none => none
  | some inner => readAll readHexByte ((pieces ' ' inner).filter (fun p => !p.isEmpty))

/-- `TX` or `RX`. -/
def readSel (cs : List Char) : Option FrameSel :=
  if cs = ['T', 'X'] then some .tx else if cs = ['R', 'X'] then some .rx else none

/-- `ONCE` or `LOOP`. -/
def readMode (cs : List Char) : Option RxMode :=
  if cs = ['O', 'N', 'C', 'E'] then some .once else if cs = ['L', 'O', 'O', 'P'] then some .loop else none

/-- A field: a number, else a name. -/
def readField (cs : List Char) : Option AsmField :=
  match cs with
  | [] => none
  | c :: _ => if '0' ≤ c ∧ c ≤ '9' then (readBits 8 cs).map AsmField.number else some (.name (String.ofList cs))

/-- A field list in braces. -/
def readFields (cs : List Char) : Option (List AsmField) :=
  match between braceOpen braceClose cs with
  | none => none
  | some [] => some []
  | some (c :: inner) => readAll readField ((pieces ',' (c :: inner)).map trim)

/-- A command: a name of 30_encoding R87, else a number. -/
def readCommand (cs : List Char) : Option AsmCommand :=
  match [Command.nothing, .get, .set, .button, .shutdown].find? (fun c => commandText c == String.ofList cs) with
  | some c => some (.name c)
  | none => (readBits 8 cs).map AsmCommand.number

/-- A mnemonic and its operands as a line. -/
def readForm (m : String) (ops : List (List Char)) : Option AsmLine :=
  match ops with
  | [] =>
    if m = "CRC_INIT" then some .crcInit
    else if m = "CRC_READ" then some .crcRead
    else if m = "RX_SCAN" then some .rxScan
    else if m = "STATUS_READ" then some .statusRead
    else none
  | [a] =>
    if m = "CRC_FEED" then (readBits 8 a).map AsmLine.crcFeed
    else if m = "IS_VALID" then (readSel a).map AsmLine.isValid
    else if m = "FRAME_CRC" then (readSel a).map AsmLine.frameCrc
    else if m = "SERIALIZE" then (readSel a).map AsmLine.serialize
    else if m = "RX_START" then (readMode a).map AsmLine.rxStart
    else if m = "RX_APPEND" then (readBytes? a).map AsmLine.rxAppend
    else none
  | [a, b] =>
    match readSel a with
    | none => none
    | some s =>
      if m = "FRAME_LOAD_RAW" then (readBytes? b).map (AsmLine.frameLoadRaw s)
      else if m = "FRAME_FROM_COMMAND" then (readCommand b).map (AsmLine.frameFromCommand s)
      else if m = "FIELD_GET" then (readField b).map (AsmLine.fieldGet s)
      else if m = "SET_DATA_FLAGS" then (readFields b).map (AsmLine.setDataFlags s)
      else none
  | [a, b, c] =>
    match readSel a, readField b, readBits 32 c with
    | some s, some f, some v => if m = "FIELD_SET" then some (.fieldSet s f v) else none
    | _, _, _ => none
  | _ => none

/-- The mnemonic and the operands of a line's text; a semicolon starts a comment. -/
def splitLine (cs : List Char) : String × List (List Char) :=
  let body := trim (cs.takeWhile (fun c => c != ';'))
  let rest := trim (body.dropWhile (fun c => c != ' '))
  (String.ofList (body.takeWhile (fun c => c != ' ')), if rest.isEmpty then [] else (operandPieces false rest).map trim)

/-- A line of assembler text as a line; none for text that is no form of 30_encoding R110. -/
def readLine (cs : List Char) : Option AsmLine := readForm (splitLine cs).1 (splitLine cs).2

/-- A line of assembler text as a pseudo-instruction of 30_encoding R111. -/
def readPseudo (cs : List Char) : Option Pseudo :=
  match (splitLine cs).2 with
  | [a] =>
    if (splitLine cs).1 = "CRC_BYTES" then (readBytes? a).map Pseudo.crcBytes
    else if (splitLine cs).1 = "RX_PASS" then (readBytes? a).map Pseudo.rxPass
    else none
  | [a, b, c] =>
    match readSel a, readCommand b, readFields c with
    | some s, some k, some fs => if (splitLine cs).1 = "REQUEST" then some (.request s k fs) else none
    | _, _, _ => none
  | _ => none

end Sys2Proof.Machine
end

