-- ==== Sys2Proof/Machine/Render.lean ====
section
/-! DEFINITION. What the host makes of a decoded field (40_codec R134 to R138), over exact rationals (R136,
D12; log 23), and the binary64 rendering of R136. -/

namespace Sys2Proof.Machine

/-- The value of a decoded field. -/
inductive FieldValue where
  /-- Byte, word and integer (40_codec R131 to R133). -/
  | number (n : Nat)
  /-- A string: one character a byte, none for a byte of 0x80 or more, which no source settles (40_codec R134, I15). -/
  | text (chars : List (Option Char))
  /-- `T(raw)` (40_codec R135); no unit (N26). -/
  | temperature (t : Rat)
  /-- Seconds of POSIX time (40_codec R137, D30). -/
  | instant (posixSeconds : Nat)
  /-- `raw / 1000` (40_codec R138); no unit (N26). -/
  | battery (level : Rat)
  deriving DecidableEq, Repr

/-- `T(raw)` (40_codec R135): -300 for a sentinel, else (raw - 30000000) / 100000. -/
def temperatureOf (raw : Word) : Rat :=
  if isSentinel raw then -300 else mkRat ((raw.toNat : Int) - 30000000) 100000

/-- POSIX time of 2005-01-01T00:00:00 UTC (40_codec R137, K2). -/
def dateEpoch : Nat := 1104537600

/-- A byte of a string as a character (40_codec R134). -/
def asciiChar (b : Byte) : Option Char := if b.toNat < 0x80 then some (Char.ofNat b.toNat) else none

/-- The value of a field of kind `k` from FIELD_GET's answer. -/
def renderValue (k : Kind) (rvalue : Word) (rbytes : List Byte) : FieldValue :=
  match k with
  | .byte | .word | .integer => .number rvalue.toNat
  | .string => .text (rbytes.map asciiChar)
  | .temperature => .temperature (temperatureOf rvalue)
  | .date => .instant (dateEpoch + rvalue.toNat)
  | .battery => .battery (mkRat rvalue.toNat 1000)

/-- The kind a KIND number stands for (30_encoding R84); 7 is reserved and never produced (I20). -/
def kindOfCode (k : BitVec 3) : Option Kind :=
  if k = 0 then some .byte
  else if k = 1 then some .word
  else if k = 2 then some .integer
  else if k = 3 then some .string
  else if k = 4 then some .temperature
  else if k = 5 then some .date
  else if k = 6 then some .battery
  else none

/-- What `onValues` is given for one requested field (45_host_session R248). -/
def renderReading (r : Reading) : Option FieldValue :=
  (kindOfCode (r.rflags.extractLsb' 5 3)).map fun k => renderValue k r.rvalue r.rbytes

/-! ### The floating-point rendering (40_codec R136)

Two IEEE binary64 operations, each rounded to nearest, ties to even, on values far from overflow and underflow. No claim
may rest on these floats (D12); they stand beside the exact rationals for the host that prints them. -/

/-- A quotient rounded to the nearest natural number, ties to even. -/
def roundHalfEven (a b : Nat) : Nat :=
  if 2 * (a % b) < b then a / b
  else if b < 2 * (a % b) then a / b + 1
  else a / b + a / b % 2

/-- The exponent of a positive quotient: 2^e is at most a / b, and 2^(e+1) is above it. -/
def binaryExponent (a b : Nat) : Int :=
  let e : Int := (Nat.log2 a : Int) - (Nat.log2 b : Int)
  if b * 2 ^ e.toNat ≤ a * 2 ^ (-e).toNat then e else e - 1

/-- `fl(x)`: the binary64 value nearest to a rational, with 53 significant bits. -/
def fl (x : Rat) : Rat :=
  if x.num = 0 then 0
  else
    let k : Int := 52 - binaryExponent x.num.natAbs x.den
    let m := roundHalfEven (x.num.natAbs * 2 ^ k.toNat) (x.den * 2 ^ (-k).toNat)
    mkRat (x.num.sign * (m * 2 ^ (-k).toNat : Nat)) (2 ^ k.toNat)

/-- The binary64 temperature: `fl(fl(raw / 100000) - 300)`, exactly -300 for a sentinel (40_codec R136). -/
def temperatureFloat (raw : Word) : Rat :=
  if isSentinel raw then -300 else fl (fl (mkRat raw.toNat 100000) - 300)

/-- The binary64 battery level: `fl(raw / 1000)` (40_codec R136). -/
def batteryFloat (raw : Word) : Rat := fl (mkRat raw.toNat 1000)

end Sys2Proof.Machine
end

