-- ==== Sys2Proof/WellFormed.lean ====
section
/-! DEFINITION. Which operations are legal, read off the columns of 30_encoding R103 with R104 and R106. This check is
written from the TABLE; `Decode` is written from the decoder R109. That the two agree is an obligation. Every `Instr` is
well-formed by its type: each of its operands admits exactly what the encoding admits. -/

namespace Sys2Proof

/-- One row of the table of 30_encoding R103: which operands the operation uses. -/
structure OpcodeRow where
  op : Byte
  usesSel : Bool := false
  usesFid : Bool := false
  /-- The bits of ARG the operation uses. -/
  argBits : Byte := 0x00
  usesValue : Bool := false
  usesPayload : Bool := false
  deriving DecidableEq, Repr

/-- 30_encoding R103, row by row. -/
def opcodeRows : List OpcodeRow :=
  [ { op := 0x01 },
    { op := 0x02, argBits := 0xFF },
    { op := 0x03 },
    { op := 0x10, usesSel := true, usesPayload := true },
    { op := 0x11, usesSel := true, argBits := 0xFF },
    { op := 0x12, usesSel := true, usesFid := true },
    { op := 0x13, usesSel := true, usesFid := true, usesValue := true },
    { op := 0x14, usesSel := true, usesPayload := true },
    { op := 0x15, usesSel := true },
    { op := 0x16, usesSel := true },
    { op := 0x17, usesSel := true },
    { op := 0x20, argBits := 0x01 },
    { op := 0x21, usesPayload := true },
    { op := 0x22 },
    { op := 0x30 } ]

/-- 30_encoding R104: RSV is 0 and every operand the row does not use is zero, or empty for PAYLOAD. -/
def OpcodeRow.admits (r : OpcodeRow) (o : Operation) : Bool :=
  o.word.extractLsb' 9 7 == 0 &&
  (r.usesSel || o.word.extractLsb' 8 1 == 0) &&
  (r.usesFid || o.word.extractLsb' 16 8 == 0) &&
  (o.word.extractLsb' 24 8 &&& ~~~ r.argBits) == 0 &&
  (r.usesValue || o.value == 0) &&
  (r.usesPayload || o.payload.isEmpty)

/-- 30_encoding R106: an operation is legal when its OP is listed and its row admits its operands. -/
def Operation.wellFormed (o : Operation) : Bool :=
  opcodeRows.any (fun r => r.op == o.word.extractLsb' 0 8 && r.admits o)

end Sys2Proof
end

