-- ==== Sys2Proof/Safety.lean ====
section
/-! DEFINITION. The terms claims are stated in: what an operation leaves unchanged, the invariant of the machine, safe
outcomes. -/

namespace Sys2Proof.Safety

open Sys2Proof.Machine

/-- Two frames read the same at every address. -/
def SameBytes (m m' : Memory) : Prop := ∀ a : Nat, m'.read a = m.read a

/-- What no operation of the command port touches: the parameters, the index and the inputs still to come (the port's
own, advanced before the operation runs) and the host's side. -/
def SameSurroundings (s t : State) : Prop :=
  t.config = s.config ∧ t.opIndex = s.opIndex ∧ t.events = s.events ∧ t.session = s.session

/-- The frame unit's state is unchanged: every byte of both registers and both presence bits. -/
def SameFrames (s t : State) : Prop :=
  SameBytes s.txf t.txf ∧ SameBytes s.rxf t.rxf ∧ t.txfPresent = s.txfPresent ∧ t.rxfPresent = s.rxfPresent

/-- The RX unit's state is unchanged: the buffer and its three flags. -/
def SameReceiver (s t : State) : Prop :=
  t.rxbuf = s.rxbuf ∧ t.loopMode = s.loopMode ∧ t.found = s.found ∧ t.done = s.done

/-- Every state element of 10_state R20 but ERR_STICKY is unchanged. -/
def SameButErrors (s t : State) : Prop := t.crcReg = s.crcReg ∧ SameFrames s t ∧ SameReceiver s t

/-- Every state element of 10_state R20 is unchanged. -/
def SameBlock (s t : State) : Prop := SameButErrors s t ∧ t.errSticky = s.errSticky

/-- 10_state R38: every state element holds its reset value. -/
def HasResetValues (s : State) : Prop :=
  s.crcReg = s.config.crcInit ∧ (∀ a, a < 128 → s.txf.read a = some 0x00) ∧ (∀ a, a < 128 → s.rxf.read a = some 0x00) ∧
  s.txfPresent = false ∧ s.rxfPresent = false ∧ s.rxbuf = [] ∧ s.loopMode = false ∧ s.found = false ∧ s.done = false ∧
  s.errSticky = 0x0000

/-- The frame register SEL does not select. -/
def otherSel : FrameSel → FrameSel
  | .tx => .rx
  | .rx => .tx

/-- Everything but the selected frame register (its bytes and its presence bit) is unchanged. -/
def SameButFrame (sel : FrameSel) (s t : State) : Prop :=
  SameBytes (s.frame (otherSel sel)) (t.frame (otherSel sel)) ∧ t.present (otherSel sel) = s.present (otherSel sel) ∧
  t.crcReg = s.crcReg ∧ SameReceiver s t ∧ t.errSticky = s.errSticky ∧ SameSurroundings s t

/-- 60_exceptions R272: the errors an instruction can raise after the decoder's ILLEGAL_OP, first checked first. -/
def raisable : Instr → List ErrorCode
  | .frameLoadRaw _ _ => [.sizeMismatch]
  | .frameFromCommand _ _ => [.invalidCommand]
  | .fieldGet _ _ => [.noFrame, .unknownField]
  | .fieldSet _ _ _ => [.noFrame, .unknownField, .unsupportedEncode, .valueRange]
  | .setDataFlags _ _ => [.noFrame, .unknownField]
  | .isValid _ => [.noFrame]
  | .frameCrc _ => [.noFrame]
  | .serialize _ => [.noFrame]
  | .rxAppend _ => [.rxDone, .rxOverflow]
  | .rxScan => [.rxDone]
  | .crcInit => []
  | .crcFeed _ => []
  | .crcRead => []
  | .rxStart _ => []
  | .statusRead => []
  | .cmdNothing => []
  | .cmdGet => []
  | .cmdSet => []
  | .cmdButton => []
  | .cmdShutdown => []

/-- The outcome is a next state. -/
def Completes (r : Result) : Prop := ∃ t, r = .next t

/-- `n` steps. -/
def runSteps : Nat → State → Result
  | 0, s => .next s
  | n + 1, s =>
    match step s with
    | .next t => runSteps n t
    | .fault f => .fault f
    | .refused r => .refused r

/-- One round of the receiver (45_host_session R243) whose read has the outcome `x.1` and whose sleep lasts `x.2`
milliseconds: read, RX_APPEND, RX_SCAN, the end of the pass, the sleep. -/
def silentRound (x : ReadOutcome × Nat) : List Event :=
  [.turn .receiver { read := x.1 }, .turn .receiver {}, .turn .receiver {}, .turn .receiver {},
    .turn .receiver { elapsed := x.2 }]

/-! ### The greedy scan (43_rx_resync R212, R214, R218), apart from the machine's own loop -/

/-- The `while` of 43_rx_resync R212 as a relation: `buf` drains into the frames delivered, the number of bytes
discarded and the bytes that stay. -/
inductive Drains (init : Half) : List Byte → List (List Byte) → Nat → List Byte → Prop where
  | stop (buf : List Byte) (h : buf.length < 128) : Drains init buf [] 0 buf
  | deliver (buf : List Byte) (ws : List (List Byte)) (n : Nat) (rest : List Byte) (h : 128 ≤ buf.length)
      (hv : validFrame init (buf.take 128) = true) (hr : Drains init (buf.drop 128) ws n rest) :
      Drains init buf (buf.take 128 :: ws) n rest
  | discard (buf : List Byte) (ws : List (List Byte)) (n : Nat) (rest : List Byte) (h : 128 ≤ buf.length)
      (hv : validFrame init (buf.take 128) = false) (hr : Drains init (buf.drop 1) ws n rest) :
      Drains init buf ws (n + 1) rest

/-- The greedy scan of 43_rx_resync R218 over a stream `st` from position `p`, at most `fuel` rounds: the windows
accepted with their positions, and the final position. -/
def greedyScan (init : Half) (st : List Byte) : Nat → Nat → List (Nat × List Byte) × Nat
  | 0, p => ([], p)
  | fuel + 1, p =>
    if p + 128 ≤ st.length then
      if validFrame init ((st.drop p).take 128) then
        ((p, (st.drop p).take 128) :: (greedyScan init st fuel (p + 128)).1, (greedyScan init st fuel (p + 128)).2)
      else greedyScan init st fuel (p + 1)
    else ([], p)

/-- The bytes a list of receive operations appends. -/
def appendedBytes : List Instr → List Byte
  | [] => []
  | .rxAppend bs :: is => bs ++ appendedBytes is
  | _ :: is => appendedBytes is

/-- An operation of a running receiver: RX_APPEND or RX_SCAN. -/
def isReceive : Instr → Bool
  | .rxAppend _ => true
  | .rxScan => true
  | _ => false

/-- Run operations one after another, all of them with status OK, collecting the frames their responses carry. -/
def runCollect : List Instr → State → Option (List (List Byte) × State)
  | [], s => some ([], s)
  | i :: is, s =>
    match exec i s with
    | .next t =>
      match t.response with
      | some r => if r.status = .ok then (runCollect is t).map (fun x => (r.rframes ++ x.1, x.2)) else none
      | none => none
    | _ => none

/-- Gaps and frames in turn: a gap, a frame, a gap, a frame, and a last gap (43_rx_resync R214). -/
def weave : List (List Byte) → List (List Byte) → List Byte
  | g :: gs, w :: ws => g ++ w ++ weave gs ws
  | g :: _, [] => g
  | [], _ => []

/-- The bits of ERR_STICKY that always read 0: bit 0 and bits 15..10 (10_state R31). -/
def stickyReserved : Half := 0xFC01

/-- The invariant of the machine: what holds at reset and every step keeps. -/
structure Inv (s : State) : Prop where
  /-- 00_scope R9. -/
  config : s.config.wellFormed = true
  /-- TXF keeps the canonical form. -/
  txf : s.txf.wf = true
  /-- RXF keeps the canonical form. -/
  rxf : s.rxf.wf = true
  /-- 10_state R27. -/
  rxbuf : s.rxbuf.length ≤ rxbufCap
  /-- 10_state R31. -/
  sticky : s.errSticky &&& stickyReserved = 0
  /-- 10_state R30, 43_rx_resync R213: DONE is set only in single-shot mode by a pass that found a frame. -/
  done : s.done = true → s.loopMode = false ∧ s.found = true
  /-- 10_state R26: a pass that found a frame put one into RXF. -/
  found : s.found = true → s.rxfPresent = true

end Sys2Proof.Safety
end

