-- ==== Sys2Proof/Certificates/Slice0/Obligations.lean ====
section
/-! DEFINITION. The statements for the provers. Each names the rules of spec/ it formalises; a premise on the state is an
invariant of the model (`Inv`, kept by every step) or a condition the rule itself names. -/

open Sys2Proof Sys2Proof.Machine Sys2Proof.Safety

/-! ## The CRC unit -/

/-- 41_crc R155. -/
def Obligations.CrcInitLoadsParameter : Prop :=
  decodeOperation { word := 0x00000001 } = .ok .crcInit ∧
  ∀ s : State, exec .crcInit s = .next { s with crcReg := s.config.crcInit, response := some {} }

/-- 41_crc R157. -/
def Obligations.CrcFeedAdvancesOneByte : Prop :=
  (∀ b : Byte, decodeOperation { word := 0x00000002 ||| (b.setWidth 32 <<< 24) } = .ok (.crcFeed b)) ∧
  ∀ (b : Byte) (s : State), exec (.crcFeed b) s = .next { s with crcReg := crcByte s.crcReg b, response := some {} }

/-- 41_crc R158. -/
def Obligations.CrcReadAnswersComplement : Prop :=
  decodeOperation { word := 0x00000003 } = .ok .crcRead ∧
  ∀ s : State, exec .crcRead s = .next { s with response := some { rvalue := (~~~ s.crcReg).setWidth 32 } }

/-- 41_crc R159: the stream CRC_INIT, one CRC_FEED a byte, CRC_READ, run on the machine, answers `crc16`; and what that
function is: eight times the bit step of R150 for a byte (R151), all bytes from the initial value and the complement (R152),
with the check values of R161 for both initial values. The bit step is R150's own reading (D6; log 12). -/
def Obligations.CrcStreamEqualsSequenceCrc : Prop :=
  (∀ (r : Half) (b : Byte), ∃ x : Nat → Half × Byte, x 0 = (r, b) ∧
    (∀ i, i < 8 →
      x (i + 1) =
        (if ((x i).1 ^^^ (x i).2.setWidth 16) &&& 1 = 1 then ((x i).1 >>> 1) ^^^ 0xA001 else (x i).1 >>> 1,
          (x i).2 >>> 1)) ∧
    crcByte r b = (x 8).1) ∧
  (∀ init : Half, crc16 init [] = ~~~ init ∧
    ∀ (bs : List Byte) (b : Byte), crc16 init (bs ++ [b]) = ~~~ (crcByte (~~~ (crc16 init bs)) b)) ∧
  crc16 0x0000 [0x01] = 0x3F3E ∧ crc16 0xFFFF [0x01] = 0x7F81 ∧
  crc16 0x0000 [0x31, 0x32, 0x33, 0x34, 0x35, 0x36, 0x37, 0x38, 0x39] = 0x44C2 ∧
  crc16 0xFFFF [0x31, 0x32, 0x33, 0x34, 0x35, 0x36, 0x37, 0x38, 0x39] = 0xB4C8 ∧
  ∀ (s : State) (bs : List Byte),
    s.events = ([Instr.crcInit] ++ bs.map Instr.crcFeed ++ [Instr.crcRead]).map (fun i => .operation (operationOf i)) →
    ∃ t, runSteps (bs.length + 2) s = .next t ∧
      t.response = some { rvalue := (crc16 s.config.crcInit bs).setWidth 32 } ∧
      SameFrames s t ∧ SameReceiver s t ∧ t.errSticky = s.errSticky ∧ t.config = s.config ∧
      t.opIndex = s.opIndex + (bs.length + 2) ∧ t.session = s.session

/-- 41_crc R160, with the corner cases of 42_frame R177: changing any one of bytes 0..125 changes the checksum, and
changing any one byte of a valid frame makes it invalid. For every initial value of the register. -/
def Obligations.SingleByteChangeIsDetected : Prop :=
  ∀ (init : Half) (w : List Byte) (i : Nat) (b : Byte), w.length = 128 → i < 128 → b ≠ w.getD i 0 →
    (i < 126 → frameCrcOf init (w.set i b) ≠ frameCrcOf init w) ∧
    (validFrame init w = true → validFrame init (w.set i b) = false)

/-! ## The codec -/

/-- 40_codec R131, R132, R133, R137, R138: the little-endian number, no flags, no bytes; the meaning of a date and of a
battery. The POSIX seconds of a date (1104537600 at raw 0, no leap seconds) are the choice of log 23: R137 takes them "from
general knowledge, not in source" and from D30. -/
def Obligations.NumericKindsDecodeLittleEndian : Prop :=
  (∀ b0 : Byte, (decodeField .byte [b0]).rvalue.toNat = b0.toNat ∧ (decodeField .byte [b0]).flags = 0 ∧
    (decodeField .byte [b0]).rbytes = []) ∧
  (∀ b0 b1 : Byte, (decodeField .word [b0, b1]).rvalue.toNat = b0.toNat + 256 * b1.toNat ∧
    (decodeField .word [b0, b1]).flags = 0 ∧ (decodeField .word [b0, b1]).rbytes = []) ∧
  (∀ (k : Kind) (b0 b1 b2 b3 : Byte), k = .integer ∨ k = .date ∨ k = .battery →
    (decodeField k [b0, b1, b2, b3]).rvalue.toNat =
      b0.toNat + 256 * b1.toNat + 65536 * b2.toNat + 16777216 * b3.toNat ∧
    (decodeField k [b0, b1, b2, b3]).flags = 0 ∧ (decodeField k [b0, b1, b2, b3]).rbytes = []) ∧
  (∀ raw : Word, renderValue .date raw [] = .instant (1104537600 + raw.toNat)) ∧
  (∀ raw : Word, renderValue .battery raw [] = .battery ((raw.toNat : Rat) / 1000))

/-- 40_codec R134: the bytes before the first zero byte, their number, NON_ASCII and UNTERMINATED; each byte
below 0x80 means the ASCII character of its code, whatever stands beside it. That a byte of 0x80 or more has exactly one place
in the text, so that the other characters keep their positions, is the model's choice (log 23). -/
def Obligations.StringDecodesUpToFirstZero : Prop :=
  (∀ (bs : List Byte) (v : Word), ∃ l : List (Option Char), renderValue .string v bs = .text l ∧ l.length = bs.length ∧
    ∀ i, i < bs.length → (bs.getD i 0).toNat < 0x80 → l.getD i none = some (Char.ofNat (bs.getD i 0).toNat)) ∧
  ∀ bs : List Byte, 1 ≤ bs.length →
    ∃ k : Nat, k ≤ bs.length ∧ (∀ i, i < k → bs.getD i 0 ≠ 0) ∧ (k < bs.length → bs.getD k 0 = 0) ∧
      (decodeField .string bs).rbytes = bs.take k ∧
      (decodeField .string bs).rvalue = BitVec.ofNat 32 k ∧
      (decodeField .string bs).flags.getLsbD 0 = false ∧
      ((decodeField .string bs).flags.getLsbD 1 = true ↔ ∃ b ∈ bs.take k, 0x80 ≤ b.toNat) ∧
      ((decodeField .string bs).flags.getLsbD 2 = true ↔ k = bs.length) ∧
      (decodeField .string bs).flags.getLsbD 3 = false ∧ (decodeField .string bs).flags.getLsbD 4 = false

/-- 40_codec R135: the raw number, SENTINEL exactly at 0 and from 0xFFFFFFFD on, and the exact rational it means. -/
def Obligations.TemperatureFlagsSentinels : Prop :=
  ∀ b0 b1 b2 b3 : Byte,
    (decodeField .temperature [b0, b1, b2, b3]).rvalue = le32 b0 b1 b2 b3 ∧
    (decodeField .temperature [b0, b1, b2, b3]).flags =
      (if le32 b0 b1 b2 b3 = 0 ∨ 0xFFFFFFFD ≤ (le32 b0 b1 b2 b3).toNat then 1 else 0) ∧
    (decodeField .temperature [b0, b1, b2, b3]).rbytes = [] ∧
    temperatureOf (le32 b0 b1 b2 b3) =
      (if le32 b0 b1 b2 b3 = 0 ∨ 0xFFFFFFFD ≤ (le32 b0 b1 b2 b3).toNat then -300
       else ((le32 b0 b1 b2 b3).toNat : Rat) / 100000 - 300)

/-- 40_codec R142: decoding the encoded bytes of a byte, word or integer field gives the value back. -/
def Obligations.CodecRoundTrips : Prop :=
  ∀ (k : Kind) (n : Nat) (v : Word), k = .byte ∧ n = 1 ∨ k = .word ∧ n = 2 ∨ k = .integer ∧ n = 4 →
    v.toNat < 2 ^ (8 * n) → (decodeField k (leBytes n v)).rvalue = v

/-! ## The frame unit -/

/-- 42_frame R171. -/
def Obligations.FrameLoadRawStoresExactly128Bytes : Prop :=
  (∀ payload : List Byte,
    decodeOperation { word := 0x00000010, payload := payload } = .ok (.frameLoadRaw .tx payload) ∧
    decodeOperation { word := 0x00000110, payload := payload } = .ok (.frameLoadRaw .rx payload)) ∧
  ∀ (sel : FrameSel) (payload : List Byte) (s : State),
    (payload.length = 128 →
      ∃ t, exec (.frameLoadRaw sel payload) s = .next t ∧ t.response = some {} ∧ t.present sel = true ∧
        (∀ a, a < 128 → (t.frame sel).read a = some (payload.getD a 0)) ∧ SameButFrame sel s t) ∧
    (payload.length ≠ 128 →
      exec (.frameLoadRaw sel payload) s =
        .next (raised .sizeMismatch (BitVec.ofNat 32 (min payload.length 0xFFFFFFFF)) s))

/-- 42_frame R172, in every configuration that meets 00_scope R9. -/
def Obligations.FrameFromCommandBuildsSealedFrame : Prop :=
  (∀ arg : Byte,
    decodeOperation { word := 0x00000011 ||| (arg.setWidth 32 <<< 24) } = .ok (.frameFromCommand .tx arg) ∧
    decodeOperation { word := 0x00000111 ||| (arg.setWidth 32 <<< 24) } = .ok (.frameFromCommand .rx arg)) ∧
  ∀ (sel : FrameSel) (arg : Byte) (s : State), s.config.wellFormed = true →
    (arg = 0 ∨ arg = 1 ∨ arg = 2 ∨ arg = 3 ∨ arg = 5 →
      ∃ t, exec (.frameFromCommand sel arg) s = .next t ∧ t.response = some {} ∧ t.present sel = true ∧
        (∀ a, a < 126 → (t.frame sel).read a =
          some (if a = s.config.commandOff then arg else if a = s.config.versionOff then 1 else 0)) ∧
        validFrame s.config.crcInit (t.frame sel).bytes = true ∧ SameButFrame sel s t) ∧
    (¬(arg = 0 ∨ arg = 1 ∨ arg = 2 ∨ arg = 3 ∨ arg = 5) →
      exec (.frameFromCommand sel arg) s = .next (raised .invalidCommand (arg.setWidth 32) s))

/-- 42_frame R173: the errors in their order, and the answer for every registered field. `desc` is the lookup of 42_frame
R170: the fixed rows of 30_encoding R82, and for the ids 4..255 the entry of REGISTRY_EXT or none (R83). The KIND numbers are those of R84. CALIBRATION_VALUE_1,
_2 and _3 have the range CAL_RANGE; an id that both tables list, or one table twice, is left out (log 10). -/
def Obligations.FieldGetAnswersDecodedField : Prop :=
  (∀ c : Config,
    desc c 0 = some { name := "COMMAND", offset := c.commandOff, length := 1, kind := .byte } ∧
    desc c 1 = some { name := "VERSION", offset := c.versionOff, length := 1, kind := .byte } ∧
    desc c 2 = some { name := "DATA_FLAGS", offset := c.dataFlagsOff, length := 2, kind := .word } ∧
    desc c 3 = some { name := "CHECKSUM", offset := 126, length := 2, kind := .word }) ∧
  (∀ (c : Config) (fid : Byte), 4 ≤ fid.toNat →
    (∀ k, c.calibration = some k → fid ≠ k.id1 ∧ fid ≠ k.id2 ∧ fid ≠ k.id3) →
    (∀ d, (fid, d) ∈ c.registryExt → (∀ e ∈ c.registryExt, e.1 = fid → e.2 = d) → desc c fid = some d) ∧
    ((∀ e ∈ c.registryExt, e.1 ≠ fid) → desc c fid = none)) ∧
  (∀ (c : Config) (k : Calibration) (fid : Byte), c.calibration = some k → 4 ≤ fid.toNat →
    fid = k.id1 ∨ fid = k.id2 ∨ fid = k.id3 → (∀ e ∈ c.registryExt, e.1 ≠ fid) →
    ∃ d, desc c fid = some d ∧ d.offset = k.offset ∧ d.length = k.length) ∧
  (kindCode .byte = 0 ∧ kindCode .word = 1 ∧ kindCode .integer = 2 ∧ kindCode .string = 3 ∧ kindCode .temperature = 4 ∧
    kindCode .date = 5 ∧ kindCode .battery = 6) ∧
  (∀ fid : Byte,
    decodeOperation { word := 0x00000012 ||| (fid.setWidth 32 <<< 16) } = .ok (.fieldGet .tx fid) ∧
    decodeOperation { word := 0x00000112 ||| (fid.setWidth 32 <<< 16) } = .ok (.fieldGet .rx fid)) ∧
  ∀ (sel : FrameSel) (fid : Byte) (s : State),
    (s.present sel = false → exec (.fieldGet sel fid) s = .next (raised .noFrame (selWord sel) s)) ∧
    (s.present sel = true → desc s.config fid = none →
      exec (.fieldGet sel fid) s = .next (raised .unknownField (fid.setWidth 32) s)) ∧
    (∀ d, s.present sel = true → desc s.config fid = some d → s.config.wellFormed = true →
      ∃ bs : List Byte, bs.length = d.length ∧
        (∀ k, k < d.length → (s.frame sel).read (d.offset + k) = some (bs.getD k 0)) ∧
        exec (.fieldGet sel fid) s =
          .next
            { s with
              response :=
                some
                  { rvalue := (decodeField d.kind bs).rvalue
                    rflags := kindCode d.kind ++ (decodeField d.kind bs).flags
                    rbytes := (decodeField d.kind bs).rbytes } })

/-- 42_frame R174: the errors in their order, and the bytes of a written and re-sealed frame. -/
def Obligations.FieldSetWritesAndSeals : Prop :=
  (∀ (fid : Byte) (v : Word),
    decodeOperation { word := 0x00000013 ||| (fid.setWidth 32 <<< 16), value := v } = .ok (.fieldSet .tx fid v) ∧
    decodeOperation { word := 0x00000113 ||| (fid.setWidth 32 <<< 16), value := v } = .ok (.fieldSet .rx fid v)) ∧
  ∀ (sel : FrameSel) (fid : Byte) (v : Word) (s : State),
    (s.present sel = false → exec (.fieldSet sel fid v) s = .next (raised .noFrame (selWord sel) s)) ∧
    (s.present sel = true → desc s.config fid = none →
      exec (.fieldSet sel fid v) s = .next (raised .unknownField (fid.setWidth 32) s)) ∧
    (∀ d, s.present sel = true → desc s.config fid = some d →
      ((d.kind = .string ∨ d.kind = .temperature ∨ d.kind = .date ∨ d.kind = .battery) →
        exec (.fieldSet sel fid v) s = .next (raised .unsupportedEncode (fid.setWidth 32) s)) ∧
      ((d.kind = .byte ∨ d.kind = .word ∨ d.kind = .integer) → 2 ^ (8 * d.length) ≤ v.toNat →
        exec (.fieldSet sel fid v) s = .next (raised .valueRange v s)) ∧
      ((d.kind = .byte ∨ d.kind = .word ∨ d.kind = .integer) → v.toNat < 2 ^ (8 * d.length) →
        s.config.wellFormed = true → (s.frame sel).wf = true →
        ∃ t, exec (.fieldSet sel fid v) s = .next t ∧ t.response = some {} ∧ t.present sel = true ∧
          (∀ a, a < 126 → (t.frame sel).read a =
            if d.offset ≤ a ∧ a < d.offset + d.length then some ((v >>> (8 * (a - d.offset))).setWidth 8)
            else (s.frame sel).read a) ∧
          validFrame s.config.crcInit (t.frame sel).bytes = true ∧ SameButFrame sel s t))

/-- 42_frame R176: the union of the listed fields' bits, or the first listed id that has none. `flagbit` is the lookup of
42_frame R170 in DFLAG_BIT: the entry of the id, or none (an id listed twice is left out, log 10). -/
def Obligations.SetDataFlagsWritesUnionOfBits : Prop :=
  (∀ (c : Config) (f : Byte),
    (∀ b, (f, b) ∈ c.dflagBit → (∀ e ∈ c.dflagBit, e.1 = f → e.2 = b) → flagbit c f = some b) ∧
    ((∀ e ∈ c.dflagBit, e.1 ≠ f) → flagbit c f = none)) ∧
  (∀ fids : List Byte,
    decodeOperation { word := 0x00000014, payload := fids } = .ok (.setDataFlags .tx fids) ∧
    decodeOperation { word := 0x00000114, payload := fids } = .ok (.setDataFlags .rx fids)) ∧
  ∀ (sel : FrameSel) (fids : List Byte) (s : State),
    (s.present sel = false → exec (.setDataFlags sel fids) s = .next (raised .noFrame (selWord sel) s)) ∧
    (∀ (before after : List Byte) (g : Byte), s.present sel = true → fids = before ++ g :: after →
      (∀ f ∈ before, (flagbit s.config f).isSome = true) → flagbit s.config g = none →
      exec (.setDataFlags sel fids) s = .next (raised .unknownField (g.setWidth 32) s)) ∧
    (s.present sel = true → (∀ f ∈ fids, (flagbit s.config f).isSome = true) → s.config.wellFormed = true →
      (s.frame sel).wf = true →
      ∃ (mask : Half) (t : State), exec (.setDataFlags sel fids) s = .next t ∧
        (∀ i, i < 16 → (mask.getLsbD i = true ↔ ∃ f ∈ fids, ∃ b, flagbit s.config f = some b ∧ b.val = i)) ∧
        t.response = some { rvalue := mask.setWidth 32 } ∧ t.present sel = true ∧
        (∀ a, a < 126 → (t.frame sel).read a =
          if a = s.config.dataFlagsOff then some (mask.setWidth 8)
          else if a = s.config.dataFlagsOff + 1 then some ((mask >>> 8).setWidth 8)
          else (s.frame sel).read a) ∧
        validFrame s.config.crcInit (t.frame sel).bytes = true ∧ SameButFrame sel s t)

/-- 42_frame R177. -/
def Obligations.IsValidComparesChecksum : Prop :=
  decodeOperation { word := 0x00000015 } = .ok (.isValid .tx) ∧
  decodeOperation { word := 0x00000115 } = .ok (.isValid .rx) ∧
  ∀ (sel : FrameSel) (s : State),
    (s.present sel = false → exec (.isValid sel) s = .next (raised .noFrame (selWord sel) s)) ∧
    (s.present sel = true →
      exec (.isValid sel) s =
        .next
          { s with
            response :=
              some
                { rvalue :=
                    if crc16 s.config.crcInit ((s.frame sel).bytes.take 126) =
                        le16 ((s.frame sel).bytes.getD 126 0) ((s.frame sel).bytes.getD 127 0)
                    then 1 else 0 } })

/-- 42_frame R178; it equals FIELD_GET CHECKSUM exactly when IS_VALID answers 1. -/
def Obligations.FrameCrcAnswersChecksumOfFirst126 : Prop :=
  decodeOperation { word := 0x00000016 } = .ok (.frameCrc .tx) ∧
  decodeOperation { word := 0x00000116 } = .ok (.frameCrc .rx) ∧
  ∀ (sel : FrameSel) (s : State),
    (s.present sel = false → exec (.frameCrc sel) s = .next (raised .noFrame (selWord sel) s)) ∧
    (s.present sel = true →
      exec (.frameCrc sel) s =
        .next
          { s with
            response := some { rvalue := (crc16 s.config.crcInit ((s.frame sel).bytes.take 126)).setWidth 32 } }) ∧
    (s.present sel = true →
      ∃ t u v, exec (.frameCrc sel) s = .next t ∧ exec (.fieldGet sel 3) s = .next u ∧ exec (.isValid sel) s = .next v ∧
        ((t.response.map (fun r => r.rvalue) = u.response.map (fun r => r.rvalue)) ↔
          v.response = some { rvalue := 1 }))

/-- 42_frame R179; a raw-loaded frame comes back byte for byte, valid or not. -/
def Obligations.SerializeEmitsFrameInOrder : Prop :=
  decodeOperation { word := 0x00000017 } = .ok (.serialize .tx) ∧
  decodeOperation { word := 0x00000117 } = .ok (.serialize .rx) ∧
  ∀ (sel : FrameSel) (s : State),
    (s.present sel = false → exec (.serialize sel) s = .next (raised .noFrame (selWord sel) s)) ∧
    (s.present sel = true →
      ∃ bs : List Byte, bs.length = 128 ∧ (∀ a, a < 128 → (s.frame sel).read a = some (bs.getD a 0)) ∧
        exec (.serialize sel) s = .next { s with response := some { rbytes := bs } }) ∧
    (∀ payload : List Byte, payload.length = 128 →
      ∃ t u, exec (.frameLoadRaw sel payload) s = .next t ∧ exec (.serialize sel) t = .next u ∧
        u.response = some { rbytes := payload })

/-- 40_codec R142 on the machine: FIELD_SET then FIELD_GET answers the value, for every byte, word and integer field that
the checksum bytes do not cover (42_frame R174). -/
def Obligations.FieldSetThenGetReturnsValue : Prop :=
  ∀ (sel : FrameSel) (fid : Byte) (v : Word) (d : Descriptor) (s : State),
    s.present sel = true → s.config.wellFormed = true → (s.frame sel).wf = true → desc s.config fid = some d →
    (d.kind = .byte ∨ d.kind = .word ∨ d.kind = .integer) → d.offset + d.length ≤ 126 → v.toNat < 2 ^ (8 * d.length) →
    ∃ t u, exec (.fieldSet sel fid v) s = .next t ∧ exec (.fieldGet sel fid) t = .next u ∧
      u.response.map (fun r => (r.status, r.rvalue)) = some (.ok, v)

/-- 40_codec R143, 20_memory R56, 30_encoding R83: fields of one range and one kind always decode equal, the three
calibration values among them. -/
def Obligations.AliasedFieldsDecodeEqual : Prop :=
  (∀ (sel : FrameSel) (f g : Byte) (d e : Descriptor) (s : State), desc s.config f = some d → desc s.config g = some e →
    d.offset = e.offset → d.length = e.length → d.kind = e.kind →
    exec (.fieldGet sel f) s = exec (.fieldGet sel g) s) ∧
  (∀ (sel : FrameSel) (k : Calibration) (s : State), s.config.calibration = some k → s.config.wellFormed = true →
    exec (.fieldGet sel k.id1) s = exec (.fieldGet sel k.id2) s ∧
    exec (.fieldGet sel k.id2) s = exec (.fieldGet sel k.id3) s)

/-- 42_frame R182: ids that share a data-flag bit, alone or together. -/
def Obligations.SharedBitFieldsSetTheSameMask : Prop :=
  ∀ (sel : FrameSel) (f g : Byte) (s : State), flagbit s.config f = flagbit s.config g →
    (flagbit s.config f).isSome = true →
    exec (.setDataFlags sel [f]) s = exec (.setDataFlags sel [g]) s ∧
    exec (.setDataFlags sel [f, g]) s = exec (.setDataFlags sel [f]) s

/-- 42_frame R176, corner cases: order and repetition of the listed ids never change the result. -/
def Obligations.DataFlagsIgnoreOrderAndRepetition : Prop :=
  ∀ (sel : FrameSel) (l l' : List Byte) (s : State), (∀ f, f ∈ l ↔ f ∈ l') →
    (∀ f ∈ l, (flagbit s.config f).isSome = true) →
    exec (.setDataFlags sel l) s = exec (.setDataFlags sel l') s

/-- 42_frame R181, 10_state R37: after a successful FRAME_FROM_COMMAND, FIELD_SET or SET_DATA_FLAGS on `sel`, IS_VALID on
`sel` answers 1. -/
def Obligations.WritesLeaveFrameValid : Prop :=
  ∀ (sel : FrameSel) (i : Instr) (s t : State),
    ((∃ arg, i = .frameFromCommand sel arg) ∨ (∃ fid v, i = .fieldSet sel fid v) ∨ (∃ fids, i = .setDataFlags sel fids)) →
    (s.frame sel).wf = true → exec i s = .next t → t.response.map (fun r => r.status) = some .ok →
    ∃ u, exec (.isValid sel) t = .next u ∧ u.response = some { rvalue := 1 }

/-- 42_frame R180: after FRAME_LOAD_RAW or FRAME_FROM_COMMAND the register does not depend on what it held. -/
def Obligations.BuiltFrameForgetsItsPast : Prop :=
  ∀ (sel : FrameSel) (i : Instr) (s s' t t' : State),
    ((∃ payload, i = .frameLoadRaw sel payload) ∨ (∃ arg, i = .frameFromCommand sel arg)) →
    s.config = s'.config → exec i s = .next t → exec i s' = .next t' →
    t.response.map (fun r => r.status) = some .ok →
    t.frame sel = t'.frame sel ∧ t.present sel = true ∧ t'.present sel = true ∧ t.response = t'.response

/-! ## The RX unit -/

/-- 43_rx_resync R210: legal at any time. The last clause, that reset leaves the RX unit as RX_START ONCE does, is what R210
marks "[derived: from 10_state.md rule R38]". -/
def Obligations.RxStartBeginsSession : Prop :=
  decodeOperation { word := 0x00000020 } = .ok (.rxStart .once) ∧
  decodeOperation { word := 0x01000020 } = .ok (.rxStart .loop) ∧
  (∀ (mode : RxMode) (s : State),
    exec (.rxStart mode) s =
      .next
        { s with
          rxbuf := [], loopMode := decide (mode = .loop), found := false, done := false, rxfPresent := false,
          response := some {} }) ∧
  (∀ c : Config, exec (.rxStart .once) (State.resetWith c) =
    .next { State.resetWith c with response := some {} })

/-- 43_rx_resync R211: RX_DONE first, then RX_OVERFLOW, else the bytes at the tail. -/
def Obligations.RxAppendAddsAtTail : Prop :=
  (∀ payload : List Byte, decodeOperation { word := 0x00000021, payload := payload } = .ok (.rxAppend payload)) ∧
  ∀ (payload : List Byte) (s : State),
    (s.done = true → exec (.rxAppend payload) s = .next (raised .rxDone 0 s)) ∧
    (s.done = false → 256 < s.rxbuf.length + payload.length →
      exec (.rxAppend payload) s =
        .next (raised .rxOverflow (BitVec.ofNat 32 (min (s.rxbuf.length + payload.length) 0xFFFFFFFF)) s)) ∧
    (s.done = false → s.rxbuf.length + payload.length ≤ 256 →
      exec (.rxAppend payload) s =
        .next
          { s with
            rxbuf := s.rxbuf ++ payload
            response := some { rvalue := BitVec.ofNat 32 (s.rxbuf ++ payload).length } })

/-- 43_rx_resync R212 with R213: the pass is the greedy drain; RXF holds the last delivered frame; FOUND, DONE and the
response say what happened; nothing else changes. -/
def Obligations.RxScanDrainsGreedily : Prop :=
  decodeOperation { word := 0x00000022 } = .ok .rxScan ∧
  ∀ s : State,
    (s.done = true → exec .rxScan s = .next (raised .rxDone 0 s)) ∧
    (s.done = false →
      ∃ (t : State) (ws : List (List Byte)) (n : Nat), exec .rxScan s = .next t ∧
        Drains s.config.crcInit s.rxbuf ws n t.rxbuf ∧
        (t.found = true ↔ ws ≠ []) ∧ (t.done = true ↔ s.loopMode = false ∧ ws ≠ []) ∧
        t.response =
          some
            { rvalue := BitVec.ofNat 32 n
              rflags := (if t.found then 1 else 0) ||| (if t.done then 2 else 0)
              rframes := ws } ∧
        (ws = [] → SameBytes s.rxf t.rxf ∧ t.rxfPresent = s.rxfPresent) ∧
        (∀ w, ws.getLast? = some w → t.rxf.bytes = w ∧ t.rxfPresent = true) ∧
        SameBytes s.txf t.txf ∧ t.txfPresent = s.txfPresent ∧ t.crcReg = s.crcReg ∧ t.loopMode = s.loopMode ∧
        t.errSticky = s.errSticky ∧ SameSurroundings s t)

/-- 43_rx_resync R214: the buffer is gaps and delivered frames in turn and then what stays; the gaps are what was
discarded. -/
def Obligations.DeliveredFramesAreConsecutiveSegments : Prop :=
  ∀ (s t : State) (r : Response), s.done = false → exec .rxScan s = .next t → t.response = some r →
    ∃ gaps : List (List Byte), gaps.length = r.rframes.length + 1 ∧
      s.rxbuf = weave gaps r.rframes ++ t.rxbuf ∧
      r.rvalue = BitVec.ofNat 32 (gaps.map (fun g => g.length)).sum

/-- 43_rx_resync R215: a byte stays until 128 are buffered behind it: a buffer of fewer than 128 bytes is left alone. -/
def Obligations.ShortBufferIsLeftAlone : Prop :=
  ∀ s : State, s.done = false → s.rxbuf.length < 128 →
    exec .rxScan s = .next { s with found := false, response := some {} }

/-- 43_rx_resync R216: a successful pass leaves at most 127 bytes, so a read of at most 128 bytes always fits. -/
def Obligations.PassLeavesRoomForARead : Prop :=
  ∀ (s t : State), s.done = false → exec .rxScan s = .next t →
    t.rxbuf.length ≤ 127 ∧
    ∀ payload : List Byte, payload.length ≤ 128 → t.done = false →
      ∃ u, exec (.rxAppend payload) t = .next u ∧ u.response.map (fun r => r.status) = some .ok ∧ u.rxbuf.length ≤ 255

/-- 43_rx_resync R219: every delivered window has 128 bytes and a matching checksum; nothing more is promised. -/
def Obligations.DeliveredFramesAreValid : Prop :=
  ∀ (s t : State) (r : Response), exec .rxScan s = .next t → t.response = some r →
    ∀ w ∈ r.rframes, w.length = 128 ∧ validFrame s.config.crcInit w = true

/-- 43_rx_resync R218: which frames are delivered, and what stays, depends only on the bytes appended since RX_START, not
on how they were split into appends or when the passes ran. -/
def Obligations.DeliveryIgnoresChunking : Prop :=
  ∀ (ops : List Instr) (s t : State) (frames : List (List Byte)), s.rxbuf = [] → (∀ i ∈ ops, isReceive i = true) →
    runCollect (ops ++ [.rxScan]) s = some (frames, t) →
    frames = (greedyScan s.config.crcInit (appendedBytes ops) (appendedBytes ops).length 0).1.map (fun x => x.2) ∧
    t.rxbuf =
      (appendedBytes ops).drop (greedyScan s.config.crcInit (appendedBytes ops) (appendedBytes ops).length 0).2

/-- 43_rx_resync R220: the pass that sets DONE delivers every frame the greedy scan over the buffer accepts (R218), not
only the first, and RXF holds the last; two valid frames back to back are such a buffer. -/
def Obligations.TerminatingPassDeliversEveryFrame : Prop :=
  (∀ (s t : State) (r : Response), s.done = false → exec .rxScan s = .next t → t.response = some r → t.done = true →
    r.rframes = (greedyScan s.config.crcInit s.rxbuf s.rxbuf.length 0).1.map (fun x => x.2) ∧
    t.rxbuf = s.rxbuf.drop (greedyScan s.config.crcInit s.rxbuf s.rxbuf.length 0).2 ∧
    r.rframes.getLast? = some t.rxf.bytes ∧ t.rxfPresent = true) ∧
  ∀ (s : State) (w1 w2 : List Byte), s.done = false → s.loopMode = false → w1.length = 128 → w2.length = 128 →
    validFrame s.config.crcInit w1 = true → validFrame s.config.crcInit w2 = true → s.rxbuf = w1 ++ w2 →
    ∃ t, exec .rxScan s = .next t ∧ t.response = some { rflags := 0x03, rframes := [w1, w2] } ∧ t.rxbuf = [] ∧
      t.done = true ∧ t.found = true ∧ t.rxf.bytes = w2

/-- 10_state R33, 43_rx_resync R217: the STATUS layout, field by field. -/
def Obligations.StatusReadShowsLayout : Prop :=
  decodeOperation { word := 0x00000030 } = .ok .statusRead ∧
  (∀ s : State, ∃ v : Word, exec .statusRead s = .next { s with response := some { rvalue := v } } ∧
    v.extractLsb' 0 9 = BitVec.ofNat 9 s.rxbuf.length ∧ v.getLsbD 9 = s.found ∧ v.getLsbD 10 = s.done ∧
    v.getLsbD 11 = s.loopMode ∧ v.getLsbD 12 = s.txfPresent ∧ v.getLsbD 13 = s.rxfPresent ∧
    v.extractLsb' 14 2 = 0 ∧ v.extractLsb' 16 16 = s.errSticky) ∧
  (∀ c : Config, exec .statusRead (State.resetWith c) = .next { State.resetWith c with response := some {} })

/-! ## Frames of the operations that store nothing -/

/-- The operations that store to no frame register: every byte of TXF and of RXF reads as before, whether they succeed or
fail, and the units they do not use are unchanged (20_memory R59, 41_crc R154). RX_START clears RXF_PRESENT (43_rx_resync
R210); RX_APPEND changes RXBUF and, when it fails, ERR_STICKY. -/
def Obligations.NonStoringOperationsKeepFrames : Prop :=
  ∀ (i : Instr) (s t : State), exec i s = .next t →
    (i = .crcInit ∨ (∃ b, i = .crcFeed b) ∨ i = .crcRead →
      SameFrames s t ∧ SameReceiver s t ∧ t.errSticky = s.errSticky ∧ SameSurroundings s t ∧
        (i = .crcRead → t.crcReg = s.crcReg)) ∧
    ((∃ sel fid, i = .fieldGet sel fid) ∨ (∃ sel, i = .isValid sel) ∨ (∃ sel, i = .frameCrc sel) ∨
      (∃ sel, i = .serialize sel) ∨ i = .statusRead → SameButErrors s t ∧ SameSurroundings s t) ∧
    ((∃ mode, i = .rxStart mode) →
      SameBytes s.txf t.txf ∧ SameBytes s.rxf t.rxf ∧ t.txfPresent = s.txfPresent ∧ t.rxfPresent = false ∧
        t.crcReg = s.crcReg ∧ t.errSticky = s.errSticky ∧ SameSurroundings s t) ∧
    ((∃ payload, i = .rxAppend payload) →
      SameFrames s t ∧ t.crcReg = s.crcReg ∧ t.loopMode = s.loopMode ∧ t.found = s.found ∧ t.done = s.done ∧
        (t.response.map (fun r => r.status) = some .ok → t.errSticky = s.errSticky) ∧
        (t.response.map (fun r => r.status) ≠ some .ok → t.rxbuf = s.rxbuf) ∧ SameSurroundings s t)

/-- 20_memory R59: the read operations have no side effect and are idempotent: run again on the state they leave, a
successful one leaves that same state. -/
def Obligations.ReadOperationsAreIdempotent : Prop :=
  ∀ (i : Instr) (s t : State),
    ((∃ sel fid, i = .fieldGet sel fid) ∨ (∃ sel, i = .isValid sel) ∨ (∃ sel, i = .frameCrc sel) ∨
      (∃ sel, i = .serialize sel) ∨ i = .crcRead ∨ i = .statusRead) →
    exec i s = .next t → t.response.map (fun r => r.status) = some .ok →
    t = { s with response := t.response } ∧ exec i t = .next t

/-! ## Errors -/

/-- 60_exceptions R274, R275: an operation that ends in an error changes nothing of the block but the bit of its code in
ERR_STICKY, and its response holds only the code and the info word. The codes are those of R271, as the bit of ERR_STICKY and as STATUS. -/
def Obligations.FailedOperationChangesOnlyErrSticky : Prop :=
  (ErrorCode.code .sizeMismatch = 1 ∧ ErrorCode.code .unsupportedEncode = 2 ∧ ErrorCode.code .unknownField = 3 ∧
    ErrorCode.code .valueRange = 4 ∧ ErrorCode.code .invalidCommand = 5 ∧ ErrorCode.code .rxOverflow = 6 ∧
    ErrorCode.code .illegalOp = 7 ∧ ErrorCode.code .noFrame = 8 ∧ ErrorCode.code .rxDone = 9) ∧
  (Status.code .ok = 0 ∧ ∀ e : ErrorCode, (Status.code (.error e)).toNat = e.code) ∧
  ∀ (o : Operation) (s t : State) (r : Response) (e : ErrorCode),
    issue o s = .next t → t.response = some r → r.status = .error e →
    SameButErrors s t ∧ t.errSticky = s.errSticky ||| (1 <<< e.code) ∧
    r.rflags = 0 ∧ r.rbytes = [] ∧ r.rframes = [] ∧ t.config = s.config ∧ t.session = s.session ∧ t.events = s.events

/-- 60_exceptions R272: an operation raises only the errors of its row. -/
def Obligations.OperationsRaiseOnlyTheirErrors : Prop :=
  ∀ (o : Operation) (s t : State) (e : ErrorCode) (r : Response),
    issue o s = .next t → t.response = some r → r.status = .error e →
    e = .illegalOp ∨
    ∃ i, decodeOperation o = .ok i ∧ e ∈ raisable i

/-- 10_state R31, 60_exceptions R275: only reset clears a bit of ERR_STICKY. -/
def Obligations.OnlyResetClearsErrSticky : Prop :=
  ∀ (s t : State) (k : Nat), s.events.head? ≠ some .reset → step s = .next t →
    s.errSticky.getLsbD k = true → t.errSticky.getLsbD k = true

/-- 30_encoding R104, R106: a word is an operation exactly when its row of the table admits it. -/
def Obligations.DecoderAcceptsExactlyTheTable : Prop :=
  ∀ o : Operation, (∃ i, decodeOperation o = .ok i) ↔ o.wellFormed = true

/-- 30_encoding R106 with 60_exceptions R271, R274: an illegal operation raises ILLEGAL_OP with its word, and the step
changes nothing else of the block. That a session that runs goes on is the model's choice (log 31). -/
def Obligations.IllegalOperationRaisesIllegalOp : Prop :=
  ∀ (o : Operation) (rest : List Event) (s : State), s.events = .operation o :: rest → o.wellFormed = false →
    ∃ t, step s = .next t ∧ t.response = some { status := .error .illegalOp, rvalue := o.word } ∧
      t.errSticky = s.errSticky ||| 0x0080 ∧ SameButErrors s t ∧ t.opIndex = s.opIndex + 1 ∧ t.events = rest ∧
      t.session = s.session ∧ t.config = s.config

/-! ## Encoding -/

/-- DECODE AND ENCODE AGREE, for every instruction with every operand (30_encoding R109, R110). -/
def Obligations.DecodeOfEncodeIsIdentity : Prop :=
  ∀ i : Instr, decode (encode i) = .ok i

/-- 30_encoding R104: every word's meaning is unique: what decodes is the encoding of what it decodes to. -/
def Obligations.EncodeOfDecodeIsIdentity : Prop :=
  ∀ (x : Encoded) (i : Instr), decode x = .ok i → encode i = x

/-- Words written out from 30_encoding R101 and R110 decode to the instructions they stand for (a sanity statement). That
`decodeTableWord` reads 8 bits as a COMMAND byte and 32 bits as a command word is the model's choice (log 27). -/
def Obligations.SampleWordsDecode : Prop :=
  decodeTableWord 32 0x00000001 = some .crcInit ∧
  decodeTableWord 32 0x31000002 = some (.crcFeed 0x31) ∧
  decodeTableWord 32 0x01000011 = some (.frameFromCommand .tx 0x01) ∧
  decodeTableWord 32 0x00040112 = some (.fieldGet .rx 0x04) ∧
  decodeTableWord 32 0x01000020 = some (.rxStart .loop) ∧
  decodeTableWord 32 0x00000022 = some .rxScan ∧
  decodeTableWord 8 0x03 = some .cmdButton ∧
  decodeTableWord 32 0x00000201 = none ∧ decodeTableWord 8 0x04 = none

/-! ## The machine -/

/-- A step runs the decoded instruction: an operation at the head of the inputs that decodes to `i` runs as `i`, on the
state with the input taken and the index of the next operation advanced (10_state R21, 20_memory R60). That inputs stand in a list is the model's choice (log 3),
and so is that an operation issued directly, should it end in an error, leaves a running session running (log 31). -/
def Obligations.StepRunsDecodedOperation : Prop :=
  ∀ (o : Operation) (rest : List Event) (i : Instr) (s : State), s.events = .operation o :: rest →
    decodeOperation o = .ok i → step s = exec i { s with events := rest, opIndex := s.opIndex + 1 }

/-- A step runs the decoded wire command: the receiver's turn with a COMMAND byte in hand that decodes to `i` runs as `i`;
a byte that is no command drops the frame (45_host_session R248, 30_encoding R93). -/
def Obligations.StepRunsDecodedWireCommand : Prop :=
  ∀ (env : Env) (more : List Event) (code : Byte) (rest : List (List Byte)) (done : Bool) (s : State),
    s.events = .turn .receiver env :: more → s.session.receiver = .command code rest done →
    (∀ i, decodeWire code = .ok i → step s = exec i { s with events := more }) ∧
    ((∀ i, decodeWire code ≠ .ok i) →
      step s = .next { s with events := more, session := { s.session with receiver := .deliver rest done } })

/-- The wire commands: GET goes on to decode the requested fields, in request order; every other command drops the frame
and goes on with the next; nothing of the block changes (30_encoding R88 to R92, 45_host_session R248; log 7). -/
def Obligations.PollKeepsOnlyGetFrames : Prop :=
  ∀ (code : Byte) (rest : List (List Byte)) (done : Bool) (s : State), s.session.receiver = .command code rest done →
    exec .cmdGet s =
      .next
        { s with
          session := { s.session with receiver := .decodeFields s.session.consumer.requested [] rest done } } ∧
    ∀ i, i = .cmdNothing ∨ i = .cmdSet ∨ i = .cmdButton ∨ i = .cmdShutdown →
      exec i s = .next { s with session := { s.session with receiver := .deliver rest done } }

/-- AN INVARIANT THAT EVERY STEP KEEPS: whatever the next input is. -/
def Obligations.StepKeepsInvariant : Prop :=
  ∀ s t : State, Inv s → step s = .next t → Inv t

/-- The invariant holds at reset, in every configuration that meets 00_scope R9 and in the shipped one. -/
def Obligations.ResetSatisfiesInvariant : Prop :=
  (∀ c : Config, c.wellFormed = true → Inv (State.resetWith c)) ∧ Inv State.reset

/-- 60_exceptions R270: there are no traps: in every state of a machine whose configuration meets 00_scope R9 a step
answers a next state, whatever the next input is. -/
def Obligations.StepNeverStops : Prop :=
  ∀ s : State, s.config.wellFormed = true → ∃ t, step s = .next t

/-- The configuration is "never mutated at runtime" (00_scope R8; log 1). -/
def Obligations.StepKeepsConfiguration : Prop :=
  ∀ s t : State, step s = .next t → t.config = s.config

/-- 10_state R21: the index advances by one per operation, failed ones included. -/
def Obligations.EveryOperationAdvancesIndex : Prop :=
  ∀ (o : Operation) (s t : State), issue o s = .next t → t.opIndex = s.opIndex + 1

/-- 10_state R38, 70_reset_and_hazards R300: the reset value of every state element, at power-on and after the reset event,
which does not change the configuration. -/
def Obligations.ResetEventRestoresResetValues : Prop :=
  (∀ c : Config, (State.resetWith c).config = c ∧ HasResetValues (State.resetWith c)) ∧
  ∀ (rest : List Event) (s : State), s.events = .reset :: rest →
    ∃ t, step s = .next t ∧ HasResetValues t ∧ t.config = s.config

/-- 70_reset_and_hazards R302: from reset every frame operation but FRAME_LOAD_RAW and FRAME_FROM_COMMAND raises
NO_FRAME, with SEL as the info word (60_exceptions R271): 0 for TXF, 1 for RXF (30_encoding R105). -/
def Obligations.FrameOperationsNeedAFrameAfterReset : Prop :=
  (selWord .tx = 0 ∧ selWord .rx = 1) ∧
  ∀ (c : Config) (sel : FrameSel) (i : Instr),
    ((∃ fid, i = .fieldGet sel fid) ∨ (∃ fid v, i = .fieldSet sel fid v) ∨ (∃ fids, i = .setDataFlags sel fids) ∨
      i = .isValid sel ∨ i = .frameCrc sel ∨ i = .serialize sel) →
    exec i (State.resetWith c) = .next (raised .noFrame (selWord sel) (State.resetWith c))

/-- 20_memory R64: with TXF built, the sender's SERIALIZE and any operation of the receiver's partition commute: in either
order the block ends in the same state and each operation gets the same response. -/
def Obligations.SenderAndReceiverCommute : Prop :=
  ∀ (i : Instr) (s a b : State), s.txfPresent = true →
    ((∃ mode, i = .rxStart mode) ∨ (∃ payload, i = .rxAppend payload) ∨ i = .rxScan ∨ i = .statusRead ∨
      (∃ payload, i = .frameLoadRaw .rx payload) ∨ (∃ arg, i = .frameFromCommand .rx arg) ∨
      (∃ fid, i = .fieldGet .rx fid) ∨ (∃ fid v, i = .fieldSet .rx fid v) ∨ (∃ fids, i = .setDataFlags .rx fids) ∨
      i = .isValid .rx ∨ i = .frameCrc .rx ∨ i = .serialize .rx) →
    exec (.serialize .tx) s = .next a → exec i a = .next b →
    ∃ a' b', exec i s = .next a' ∧ exec (.serialize .tx) a' = .next b' ∧ SameBlock b b' ∧
      a'.response = b.response ∧ b'.response = a.response

/-! ## The host's session -/

/-- 45_host_session R242, R246: a disconnect-class write failure is recovered: after a sleep of at least 1 s the link is closed
(it is closed after three steps; log 34), opened once, and the sender goes on; the failure is not surfaced and no state of the block changes. A sender that has
slept less than 1 s sleeps on (70_reset_and_hazards R311; log 15). -/
def Obligations.DisconnectIsRecoveredByOneReopen : Prop :=
  (∀ (env : Env) (more : List Event) (s : State), s.session.sender = .sleepRecovery → env.elapsed < 1000 →
    s.events = .turn .sender env :: more → step s = .next { s with events := more }) ∧
  ∀ (bs : List Byte) (code : Half) (cut elapsed : Nat) (more : List Event) (s : State),
    s.session.sender = .write bs → code ∈ s.config.disconnectClass → 1000 ≤ elapsed →
    s.events =
      [.turn .sender { write := .error code, cut := cut }, .turn .sender { elapsed := elapsed }, .turn .sender {},
        .turn .sender {}] ++ more →
    ∃ u t, runSteps 3 s = .next u ∧ u.session.handleOpen = false ∧ u.session.reopens = s.session.reopens ∧
      runSteps 4 s = .next t ∧ t.session.sender = .serialize ∧ t.session.handleOpen = true ∧
      t.session.reopens = s.session.reopens + 1 ∧ t.session.ending = s.session.ending ∧
      t.session.receiver = s.session.receiver ∧ t.session.caller = s.session.caller ∧
      t.session.delivered = s.session.delivered ∧ SameBlock s t ∧ t.opIndex = s.opIndex

/-- 45_host_session R251: any other write error ends the whole session: both activities stop. That it does so even after the
receiver of a single-shot session has exited is the model's choice (log 35). -/
def Obligations.OtherWriteErrorEndsSession : Prop :=
  ∀ (bs : List Byte) (code : Half) (cut : Nat) (more : List Event) (s : State),
    s.session.sender = .write bs → ¬ code ∈ s.config.disconnectClass →
    s.events = .turn .sender { write := .error code, cut := cut } :: more →
    ∃ t, step s = .next t ∧ t.session.ending = some (.failed (.writeError code)) ∧ t.session.sender = .off ∧
      t.session.receiver = .off ∧ t.session.caller = .idle ∧ SameBlock s t

/-- 45_host_session R249 with R243 and R244: a single-shot `pollOnce` whose pass finds two valid frames returns the
second, and cancels the sender. -/
def Obligations.PollOnceReturnsLastDelivered : Prop :=
  ∀ (w1 w2 : List Byte) (more : List Event) (s : State),
    s.session.caller = .waiting → s.session.mode = .once → s.session.consumer = .keepLast →
    s.session.receiver = .scan → s.session.sender = .sleepInterval → s.done = false → s.loopMode = false →
    w1.length = 128 → w2.length = 128 → validFrame s.config.crcInit w1 = true →
    validFrame s.config.crcInit w2 = true → s.rxbuf = w1 ++ w2 →
    s.events =
      [.turn .receiver {}, .turn .receiver {}, .turn .receiver {}, .turn .receiver {}, .turn .caller {}] ++ more →
    ∃ t, runSteps 5 s = .next t ∧ t.session.ending = some (.completed (some w2)) ∧
      t.session.delivered = s.session.delivered ++ [w1, w2] ∧ t.session.sender = .off ∧ t.session.receiver = .off ∧
      t.session.caller = .idle ∧ t.rxf.bytes = w2 ∧ t.done = true

/-- 45_host_session R252: there is no timeout: rounds of reads that return nothing (would-block, end-of-stream or an empty
read, R243), each followed by a sleep of at least 100 ms, never end the session, however many. A receiver that has
slept less than 100 ms sleeps on (70_reset_and_hazards R311; log 15). -/
def Obligations.SilentLinkNeverEndsSession : Prop :=
  (∀ (env : Env) (more : List Event) (s : State), s.session.receiver = .sleepIdle → env.elapsed < 100 →
    s.events = .turn .receiver env :: more → step s = .next { s with events := more }) ∧
  ∀ (rounds : List (ReadOutcome × Nat)) (more : List Event) (s : State),
    s.session.receiver = .read → s.done = false → s.rxbuf.length < 128 →
    (∀ x ∈ rounds, (x.1 = .wouldBlock ∨ x.1 = .endOfStream ∨ x.1 = .bytes []) ∧ 100 ≤ x.2) →
    s.events = rounds.flatMap silentRound ++ more →
    ∃ t, runSteps (5 * rounds.length) s = .next t ∧ t.session = s.session ∧ t.events = more ∧ t.rxbuf = s.rxbuf ∧
      t.done = false
end

