-- ==== Sys2Proof/Laws/Memory.lean ====
section
/-! SUPPORT. Laws of frame memory: a read after a write, the canonical form of every memory operation, whole frames. -/

namespace Sys2Proof.Machine

/-! ### One cell -/

/-- In a canonical list from `lo` on, no address below `lo` is listed. -/
theorem cellsGet_below (hi : Nat) (cs : List Host.Cell) (lo a : Nat) (h : cellsCanonical hi lo cs = true) (ha : a < lo) :
    cellsGet cs a = unlistedByte := by
  induction cs generalizing lo with
  | nil => rfl
  | cons c rest ih =>
    obtain ⟨k, v⟩ := c
    simp only [cellsCanonical, Bool.and_eq_true, decide_eq_true_eq] at h
    rw [cellsGet, if_neg (by omega), ih (k + 1) h.2 (by omega)]

/-- A byte written is read back. -/
theorem cellsGet_put_same (hi : Nat) (cs : List Host.Cell) (lo a : Nat) (b : Byte)
    (h : cellsCanonical hi lo cs = true) : cellsGet (cellsPut cs a b) a = b := by
  induction cs generalizing lo with
  | nil =>
    rw [cellsPut]
    split
    · rename_i hb; rw [hb]; rfl
    · rw [cellsGet, if_pos rfl]
  | cons c rest ih =>
    obtain ⟨k, v⟩ := c
    have hc := h
    simp only [cellsCanonical, Bool.and_eq_true, decide_eq_true_eq] at h
    rw [cellsPut]
    split
    · rename_i hlt
      split
      · rename_i hb
        rw [cellsGet, if_neg (by omega), cellsGet_below hi rest (k + 1) a h.2 (by omega), hb]
      · rw [cellsGet, if_pos rfl]
    · split
      · rename_i hk
        split
        · rename_i hb; rw [cellsGet_below hi rest (k + 1) a h.2 (by omega), hb]
        · rw [cellsGet, if_pos rfl]
      · rw [cellsGet, if_neg (by omega), ih (k + 1) h.2]

/-- A write leaves every other address alone. -/
theorem cellsGet_put_other (hi : Nat) (cs : List Host.Cell) (lo a x : Nat) (b : Byte)
    (h : cellsCanonical hi lo cs = true) (hx : x ≠ a) : cellsGet (cellsPut cs a b) x = cellsGet cs x := by
  induction cs generalizing lo with
  | nil =>
    rw [cellsPut]
    split
    · rfl
    · simp only [cellsGet, if_neg (Ne.symm hx)]
  | cons c rest ih =>
    obtain ⟨k, v⟩ := c
    simp only [cellsCanonical, Bool.and_eq_true, decide_eq_true_eq] at h
    rw [cellsPut]
    split
    · split
      · rfl
      · rw [cellsGet, if_neg (Ne.symm hx)]
    · split
      · rename_i hk
        split
        · rw [cellsGet, if_neg (by omega)]
        · rw [cellsGet, cellsGet, if_neg (Ne.symm hx), if_neg (by omega)]
      · simp only [cellsGet, ih (k + 1) h.2]

/-- A write keeps the canonical form. -/
theorem cellsPut_canonical (hi : Nat) (cs : List Host.Cell) (lo a : Nat) (b : Byte)
    (h : cellsCanonical hi lo cs = true) (hl : lo ≤ a) (ha : a < hi) : cellsCanonical hi lo (cellsPut cs a b) = true := by
  induction cs generalizing lo with
  | nil =>
    rw [cellsPut]
    split
    · rfl
    · rename_i hb
      simp [cellsCanonical, hl, ha, hb]
  | cons c rest ih =>
    obtain ⟨k, v⟩ := c
    have hc := h
    simp only [cellsCanonical, Bool.and_eq_true, decide_eq_true_eq, bne_iff_ne, ne_eq] at h
    obtain ⟨⟨⟨h1, h2⟩, h3⟩, h4⟩ := h
    have weaken : ∀ lo', lo' ≤ k + 1 → cellsCanonical hi lo' rest = true := by
      intro lo' hle
      cases rest with
      | nil => rfl
      | cons d rest' =>
        obtain ⟨k', v'⟩ := d
        simp only [cellsCanonical, Bool.and_eq_true, decide_eq_true_eq] at h4 ⊢
        exact ⟨⟨⟨by omega, h4.1.1.2⟩, h4.1.2⟩, h4.2⟩
    rw [cellsPut]
    split
    · rename_i hlt
      split
      · exact hc
      · rename_i hb
        simp only [cellsCanonical, Bool.and_eq_true, decide_eq_true_eq, bne_iff_ne, ne_eq]
        exact ⟨⟨⟨hl, ha⟩, hb⟩, ⟨⟨by omega, h2⟩, h3⟩, h4⟩
    · split
      · rename_i hk
        split
        · exact weaken lo (by omega)
        · rename_i hb
          simp only [cellsCanonical, Bool.and_eq_true, decide_eq_true_eq, bne_iff_ne, ne_eq]
          exact ⟨⟨⟨hl, ha⟩, hb⟩, weaken (a + 1) (by omega)⟩
      · simp only [cellsCanonical, Bool.and_eq_true, decide_eq_true_eq, bne_iff_ne, ne_eq]
        exact ⟨⟨⟨h1, h2⟩, h3⟩, ih (k + 1) h4 (by omega)⟩

/-- Equal readings make equal memories: the canonical form is unique. -/
theorem cells_ext (hi : Nat) (cs ds : List Host.Cell) (lo : Nat) (hc : cellsCanonical hi lo cs = true)
    (hd : cellsCanonical hi lo ds = true) (h : ∀ a, a < hi → cellsGet cs a = cellsGet ds a) : cs = ds := by
  induction cs generalizing lo ds with
  | nil =>
    cases ds with
    | nil => rfl
    | cons d rest =>
      obtain ⟨k, v⟩ := d
      simp only [cellsCanonical, Bool.and_eq_true, decide_eq_true_eq, bne_iff_ne, ne_eq] at hd
      have := h k hd.1.1.2
      rw [cellsGet, cellsGet, if_pos rfl] at this
      exact absurd this.symm hd.1.2
  | cons c rest ih =>
    obtain ⟨k, v⟩ := c
    have hcc := hc
    simp only [cellsCanonical, Bool.and_eq_true, decide_eq_true_eq, bne_iff_ne, ne_eq] at hc
    cases ds with
    | nil =>
      have := h k hc.1.1.2
      rw [cellsGet, cellsGet, if_pos rfl] at this
      exact absurd this hc.1.2
    | cons d rest' =>
      obtain ⟨k', v'⟩ := d
      have hdd := hd
      simp only [cellsCanonical, Bool.and_eq_true, decide_eq_true_eq, bne_iff_ne, ne_eq] at hd
      have hk : k = k' := by
        rcases Nat.lt_trichotomy k k' with hlt | heq | hgt
        · have := h k hc.1.1.2
          rw [cellsGet, if_pos rfl, cellsGet, if_neg (by omega), cellsGet_below hi rest' (k' + 1) k hd.2 (by omega)] at this
          exact absurd this hc.1.2
        · exact heq
        · have := h k' hd.1.1.2
          rw [cellsGet, if_neg (by omega), cellsGet_below hi rest (k + 1) k' hc.2 (by omega), cellsGet, if_pos rfl] at this
          exact absurd this.symm hd.1.2
      subst hk
      have hv : v = v' := by
        have := h k hc.1.1.2
        rwa [cellsGet, if_pos rfl, cellsGet, if_pos rfl] at this
      subst hv
      congr 1
      refine ih rest' (k + 1) hc.2 hd.2 (fun a ha => ?_)
      by_cases hak : k = a
      · subst hak
        rw [cellsGet_below hi rest (k + 1) k hc.2 (by omega), cellsGet_below hi rest' (k + 1) k hd.2 (by omega)]
      · have := h a ha
        rwa [cellsGet, if_neg hak, cellsGet, if_neg hak] at this

/-! ### Several cells -/

/-- Storing bytes keeps the canonical form. -/
theorem cellsPutAll_canonical (hi : Nat) (cs : List Host.Cell) (a : Nat) (bs : List Byte)
    (h : cellsCanonical hi 0 cs = true) (ha : a + bs.length ≤ hi) : cellsCanonical hi 0 (cellsPutAll cs a bs) = true := by
  induction bs generalizing cs a with
  | nil => exact h
  | cons b bs ih =>
    simp only [List.length_cons] at ha
    exact ih _ _ (cellsPut_canonical hi cs 0 a b h (Nat.zero_le _) (by omega)) (by omega)

/-- What an address holds after bytes are stored: byte `x - a` of them inside their range, the old byte outside. -/
theorem cellsGet_putAll (hi : Nat) (cs : List Host.Cell) (a : Nat) (bs : List Byte) (x : Nat)
    (h : cellsCanonical hi 0 cs = true) (ha : a + bs.length ≤ hi) :
    cellsGet (cellsPutAll cs a bs) x = if a ≤ x ∧ x < a + bs.length then bs.getD (x - a) 0 else cellsGet cs x := by
  induction bs generalizing cs a with
  | nil =>
    rw [cellsPutAll, if_neg (by simp)]
  | cons b bs ih =>
    simp only [List.length_cons] at ha
    have hp := cellsPut_canonical hi cs 0 a b h (Nat.zero_le _) (by omega)
    rw [cellsPutAll, ih _ _ hp (by omega)]
    simp only [List.length_cons]
    by_cases hx : x = a
    · subst hx
      rw [if_neg (by omega), if_pos (by omega), cellsGet_put_same hi cs 0 x b h]
      simp
    · rw [cellsGet_put_other hi cs 0 a x b h hx]
      by_cases hr : a + 1 ≤ x ∧ x < a + 1 + bs.length
      · rw [if_pos hr, if_pos (by omega)]
        obtain ⟨k, rfl⟩ : ∃ k, x = a + (k + 1) := ⟨x - a - 1, by omega⟩
        rw [show a + (k + 1) - (a + 1) = k by omega, show a + (k + 1) - a = k + 1 by omega, List.getD_cons_succ]
      · rw [if_neg hr, if_neg (by omega)]

/-- The cells of consecutive bytes are canonical. -/
theorem cellsOf_canonical (hi a lo : Nat) (bs : List Byte) (hlo : lo ≤ a) (h : a + bs.length ≤ hi) :
    cellsCanonical hi lo (cellsOf a bs) = true := by
  induction bs generalizing a lo with
  | nil => rfl
  | cons b bs ih =>
    simp only [List.length_cons] at h
    rw [cellsOf]
    split
    · exact ih (a + 1) lo (by omega) (by omega)
    · rename_i hb
      simp only [cellsCanonical, Bool.and_eq_true, decide_eq_true_eq, bne_iff_ne, ne_eq]
      exact ⟨⟨⟨hlo, by omega⟩, hb⟩, ih (a + 1) (a + 1) (Nat.le_refl _) (by omega)⟩

/-- An address of the cells of consecutive bytes holds its byte. -/
theorem cellsGet_of (a : Nat) (bs : List Byte) (x : Nat) :
    cellsGet (cellsOf a bs) x = if a ≤ x then bs.getD (x - a) 0 else 0 := by
  induction bs generalizing a with
  | nil => simp [cellsOf, cellsGet, unlistedByte]
  | cons b bs ih =>
    rw [cellsOf]
    by_cases hx : x = a
    · subst hx
      split
      · rename_i hb
        rw [ih, if_neg (by omega), if_pos (by omega), hb]
        simp [unlistedByte]
      · rw [cellsGet, if_pos rfl, if_pos (by omega)]
        simp
    · have hrest : cellsGet (if b = unlistedByte then cellsOf (a + 1) bs else (a, b) :: cellsOf (a + 1) bs) x
          = cellsGet (cellsOf (a + 1) bs) x := by
        split
        · rfl
        · rw [cellsGet, if_neg (Ne.symm hx)]
      rw [hrest, ih]
      by_cases hle : a + 1 ≤ x
      · rw [if_pos hle, if_pos (by omega)]
        obtain ⟨k, rfl⟩ : ∃ k, x = a + (k + 1) := ⟨x - a - 1, by omega⟩
        rw [show a + (k + 1) - (a + 1) = k by omega, show a + (k + 1) - a = k + 1 by omega, List.getD_cons_succ]
      · rw [if_neg hle, if_neg (by omega)]

/-! ### Frames -/

/-- The frame of zeros is canonical. -/
@[simp] theorem Memory.blank_wf : Memory.blank.wf = true := rfl

/-- Every byte of the frame of zeros is 0x00. -/
theorem Memory.read_blank (a : Nat) (h : a < frameLen) : Memory.blank.read a = some 0x00 := by
  simp [Memory.read, h, Memory.blank, cellsGet, unlistedByte]

/-- No address outside 0x00..0x7F exists. -/
theorem Memory.read_outside (m : Memory) (a : Nat) (h : frameLen ≤ a) : m.read a = none := by
  simp [Memory.read, Nat.not_lt.mpr h]

/-- A frame has 128 bytes. -/
@[simp] theorem Memory.length_bytes (m : Memory) : m.bytes.length = 128 := by simp [Memory.bytes, frameLen]

/-- Byte i of a whole frame is the byte at address i. -/
theorem Memory.getElem_bytes (m : Memory) (i : Nat) (h : i < m.bytes.length) : m.bytes[i] = cellsGet m.cells i := by
  simp [Memory.bytes]

/-- Byte i of a whole frame, as a total read. -/
theorem Memory.byte_eq (m : Memory) (i : Nat) (h : i < 128) : m.bytes.getD i 0 = cellsGet m.cells i := by
  rw [List.getD_eq_getElem _ _ (by simpa using h), Memory.getElem_bytes]

/-- Canonical frames with equal bytes are equal. -/
theorem Memory.ext_bytes (m m' : Memory) (h : m.wf = true) (h' : m'.wf = true) (hb : m.bytes = m'.bytes) : m = m' := by
  cases m with
  | mk cs =>
    cases m' with
    | mk ds =>
      congr 1
      refine cells_ext frameLen cs ds 0 h h' (fun a ha => ?_)
      have h1 := Memory.byte_eq { cells := cs } a ha
      have h2 := Memory.byte_eq { cells := ds } a ha
      rw [← h1, ← h2, hb]

/-- A frame written whole is canonical. -/
theorem Memory.ofBytes_wf (bs : List Byte) : (Memory.ofBytes bs).wf = true :=
  cellsOf_canonical frameLen 0 0 (bs.take frameLen) (Nat.le_refl _) (by simp)

/-- A frame written whole holds exactly the bytes written. -/
theorem Memory.bytes_ofBytes (bs : List Byte) (h : bs.length = 128) : (Memory.ofBytes bs).bytes = bs := by
  apply List.ext_getElem
  · simp [h]
  · intro i h1 h2
    rw [Memory.getElem_bytes, Memory.ofBytes, cellsGet_of]
    have : bs.take frameLen = bs := List.take_of_length_le (by simp [frameLen, h])
    rw [this]
    simp only [Nat.zero_le, if_true, Nat.sub_zero]
    exact List.getD_eq_getElem _ _ h2

/-- What `writeRange` can do: in bounds it stores the bytes, keeping the canonical form; else there is no such range. -/
theorem Memory.writeRange_spec (m m' : Memory) (o : Nat) (bs : List Byte) (h : m.writeRange o bs = some m') :
    o + bs.length ≤ frameLen ∧ (m.wf = true → m'.wf = true) ∧
    (m.wf = true → ∀ a, m'.read a =
      if o ≤ a ∧ a < o + bs.length then (if a < frameLen then some (bs.getD (a - o) 0) else none) else m.read a) := by
  unfold Memory.writeRange at h
  split at h
  · rename_i hb
    obtain rfl := Option.some.inj h
    refine ⟨hb, fun hw => cellsPutAll_canonical frameLen m.cells o bs hw hb, fun hw a => ?_⟩
    simp only [Memory.read]
    rw [cellsGet_putAll frameLen m.cells o bs a hw hb]
    by_cases hr : o ≤ a ∧ a < o + bs.length
    · simp [hr]
    · simp [hr]
  · cases h

/-- `writeRange` answers exactly when the range lies in the frame. -/
theorem Memory.writeRange_isSome (m : Memory) (o : Nat) (bs : List Byte) (h : o + bs.length ≤ 128) :
    ∃ m', m.writeRange o bs = some m' := by
  exact ⟨_, if_pos h⟩

/-- `readRange` answers exactly when the range lies in the frame, with the bytes of the range. -/
theorem Memory.readRange_eq (m : Memory) (o n : Nat) (h : o + n ≤ 128) :
    m.readRange o n = some ((m.bytes.drop o).take n) := by
  rw [Memory.readRange, if_pos (by simpa [frameLen] using h)]
  congr 1
  apply List.ext_getElem
  · simp only [List.length_map, List.length_range, List.length_take, List.length_drop, Memory.length_bytes]; omega
  · intro i h1 h2
    simp only [List.length_map, List.length_range] at h1
    simp only [List.getElem_map, List.getElem_range, List.getElem_take, List.getElem_drop]
    rw [Memory.getElem_bytes]

end Sys2Proof.Machine
end

