-- ==== Sys2Proof/Laws/State.lean ====
section
/-! SUPPORT. One lemma per field per update of the state, so that no later proof unfolds a record update. -/

namespace Sys2Proof.Machine

/-! ### Frame registers -/

@[simp] theorem State.frame_tx (s : State) : s.frame .tx = s.txf := rfl
@[simp] theorem State.frame_rx (s : State) : s.frame .rx = s.rxf := rfl
@[simp] theorem State.present_tx (s : State) : s.present .tx = s.txfPresent := rfl
@[simp] theorem State.present_rx (s : State) : s.present .rx = s.rxfPresent := rfl

/-! ### `setFrame`, `putFrame` -/

@[simp] theorem State.setFrame_config (s : State) (sel : FrameSel) (m : Memory) : (s.setFrame sel m).config = s.config := by cases sel <;> rfl
@[simp] theorem State.setFrame_crcReg (s : State) (sel : FrameSel) (m : Memory) : (s.setFrame sel m).crcReg = s.crcReg := by cases sel <;> rfl
@[simp] theorem State.setFrame_txfPresent (s : State) (sel : FrameSel) (m : Memory) : (s.setFrame sel m).txfPresent = s.txfPresent := by cases sel <;> rfl
@[simp] theorem State.setFrame_rxfPresent (s : State) (sel : FrameSel) (m : Memory) : (s.setFrame sel m).rxfPresent = s.rxfPresent := by cases sel <;> rfl
@[simp] theorem State.setFrame_rxbuf (s : State) (sel : FrameSel) (m : Memory) : (s.setFrame sel m).rxbuf = s.rxbuf := by cases sel <;> rfl
@[simp] theorem State.setFrame_loopMode (s : State) (sel : FrameSel) (m : Memory) : (s.setFrame sel m).loopMode = s.loopMode := by cases sel <;> rfl
@[simp] theorem State.setFrame_found (s : State) (sel : FrameSel) (m : Memory) : (s.setFrame sel m).found = s.found := by cases sel <;> rfl
@[simp] theorem State.setFrame_done (s : State) (sel : FrameSel) (m : Memory) : (s.setFrame sel m).done = s.done := by cases sel <;> rfl
@[simp] theorem State.setFrame_errSticky (s : State) (sel : FrameSel) (m : Memory) : (s.setFrame sel m).errSticky = s.errSticky := by cases sel <;> rfl
@[simp] theorem State.setFrame_response (s : State) (sel : FrameSel) (m : Memory) : (s.setFrame sel m).response = s.response := by cases sel <;> rfl
@[simp] theorem State.setFrame_opIndex (s : State) (sel : FrameSel) (m : Memory) : (s.setFrame sel m).opIndex = s.opIndex := by cases sel <;> rfl
@[simp] theorem State.setFrame_events (s : State) (sel : FrameSel) (m : Memory) : (s.setFrame sel m).events = s.events := by cases sel <;> rfl
@[simp] theorem State.setFrame_session (s : State) (sel : FrameSel) (m : Memory) : (s.setFrame sel m).session = s.session := by cases sel <;> rfl
@[simp] theorem State.setFrame_frame (s : State) (sel : FrameSel) (m : Memory) : (s.setFrame sel m).frame sel = m := by cases sel <;> rfl
@[simp] theorem State.setFrame_tx_txf (s : State) (m : Memory) : (s.setFrame .tx m).txf = m := rfl
@[simp] theorem State.setFrame_tx_rxf (s : State) (m : Memory) : (s.setFrame .tx m).rxf = s.rxf := rfl
@[simp] theorem State.setFrame_rx_txf (s : State) (m : Memory) : (s.setFrame .rx m).txf = s.txf := rfl
@[simp] theorem State.setFrame_rx_rxf (s : State) (m : Memory) : (s.setFrame .rx m).rxf = m := rfl
@[simp] theorem State.putFrame_config (s : State) (sel : FrameSel) (m : Memory) : (s.putFrame sel m).config = s.config := by cases sel <;> rfl
@[simp] theorem State.putFrame_crcReg (s : State) (sel : FrameSel) (m : Memory) : (s.putFrame sel m).crcReg = s.crcReg := by cases sel <;> rfl
@[simp] theorem State.putFrame_rxbuf (s : State) (sel : FrameSel) (m : Memory) : (s.putFrame sel m).rxbuf = s.rxbuf := by cases sel <;> rfl
@[simp] theorem State.putFrame_loopMode (s : State) (sel : FrameSel) (m : Memory) : (s.putFrame sel m).loopMode = s.loopMode := by cases sel <;> rfl
@[simp] theorem State.putFrame_found (s : State) (sel : FrameSel) (m : Memory) : (s.putFrame sel m).found = s.found := by cases sel <;> rfl
@[simp] theorem State.putFrame_done (s : State) (sel : FrameSel) (m : Memory) : (s.putFrame sel m).done = s.done := by cases sel <;> rfl
@[simp] theorem State.putFrame_errSticky (s : State) (sel : FrameSel) (m : Memory) : (s.putFrame sel m).errSticky = s.errSticky := by cases sel <;> rfl
@[simp] theorem State.putFrame_response (s : State) (sel : FrameSel) (m : Memory) : (s.putFrame sel m).response = s.response := by cases sel <;> rfl
@[simp] theorem State.putFrame_opIndex (s : State) (sel : FrameSel) (m : Memory) : (s.putFrame sel m).opIndex = s.opIndex := by cases sel <;> rfl
@[simp] theorem State.putFrame_events (s : State) (sel : FrameSel) (m : Memory) : (s.putFrame sel m).events = s.events := by cases sel <;> rfl
@[simp] theorem State.putFrame_session (s : State) (sel : FrameSel) (m : Memory) : (s.putFrame sel m).session = s.session := by cases sel <;> rfl
@[simp] theorem State.putFrame_frame (s : State) (sel : FrameSel) (m : Memory) : (s.putFrame sel m).frame sel = m := by cases sel <;> rfl
@[simp] theorem State.putFrame_tx_txf (s : State) (m : Memory) : (s.putFrame .tx m).txf = m := rfl
@[simp] theorem State.putFrame_tx_rxf (s : State) (m : Memory) : (s.putFrame .tx m).rxf = s.rxf := rfl
@[simp] theorem State.putFrame_rx_txf (s : State) (m : Memory) : (s.putFrame .rx m).txf = s.txf := rfl
@[simp] theorem State.putFrame_rx_rxf (s : State) (m : Memory) : (s.putFrame .rx m).rxf = m := rfl
@[simp] theorem State.putFrame_present (s : State) (sel : FrameSel) (m : Memory) : (s.putFrame sel m).present sel = true := by cases sel <;> rfl
@[simp] theorem State.putFrame_tx_txfPresent (s : State) (m : Memory) : (s.putFrame .tx m).txfPresent = true := rfl
@[simp] theorem State.putFrame_tx_rxfPresent (s : State) (m : Memory) : (s.putFrame .tx m).rxfPresent = s.rxfPresent := rfl
@[simp] theorem State.putFrame_rx_txfPresent (s : State) (m : Memory) : (s.putFrame .rx m).txfPresent = s.txfPresent := rfl
@[simp] theorem State.putFrame_rx_rxfPresent (s : State) (m : Memory) : (s.putFrame .rx m).rxfPresent = true := rfl

/-! ### Recording a response: neither frame register moves -/

@[simp] theorem State.response_frame (s : State) (r : Option Response) (sel : FrameSel) :
    ({ s with response := r } : State).frame sel = s.frame sel := by cases sel <;> rfl
@[simp] theorem State.response_present (s : State) (r : Option Response) (sel : FrameSel) :
    ({ s with response := r } : State).present sel = s.present sel := by cases sel <;> rfl
@[simp] theorem State.setFrame_present (s : State) (sel sel' : FrameSel) (m : Memory) :
    (s.setFrame sel m).present sel' = s.present sel' := by cases sel <;> rfl

/-! ### `raised`, `accept`, `resetBlock` -/

@[simp] theorem raised_config (e : ErrorCode) (info : Word) (s : State) : (raised e info s).config = s.config := rfl
@[simp] theorem raised_crcReg (e : ErrorCode) (info : Word) (s : State) : (raised e info s).crcReg = s.crcReg := rfl
@[simp] theorem raised_txf (e : ErrorCode) (info : Word) (s : State) : (raised e info s).txf = s.txf := rfl
@[simp] theorem raised_rxf (e : ErrorCode) (info : Word) (s : State) : (raised e info s).rxf = s.rxf := rfl
@[simp] theorem raised_txfPresent (e : ErrorCode) (info : Word) (s : State) : (raised e info s).txfPresent = s.txfPresent := rfl
@[simp] theorem raised_rxfPresent (e : ErrorCode) (info : Word) (s : State) : (raised e info s).rxfPresent = s.rxfPresent := rfl
@[simp] theorem raised_rxbuf (e : ErrorCode) (info : Word) (s : State) : (raised e info s).rxbuf = s.rxbuf := rfl
@[simp] theorem raised_loopMode (e : ErrorCode) (info : Word) (s : State) : (raised e info s).loopMode = s.loopMode := rfl
@[simp] theorem raised_found (e : ErrorCode) (info : Word) (s : State) : (raised e info s).found = s.found := rfl
@[simp] theorem raised_done (e : ErrorCode) (info : Word) (s : State) : (raised e info s).done = s.done := rfl
@[simp] theorem raised_opIndex (e : ErrorCode) (info : Word) (s : State) : (raised e info s).opIndex = s.opIndex := rfl
@[simp] theorem raised_events (e : ErrorCode) (info : Word) (s : State) : (raised e info s).events = s.events := rfl
@[simp] theorem raised_session (e : ErrorCode) (info : Word) (s : State) : (raised e info s).session = s.session := rfl
@[simp] theorem raised_errSticky (e : ErrorCode) (info : Word) (s : State) : (raised e info s).errSticky = s.errSticky ||| e.stickyBit := rfl
@[simp] theorem raised_response (e : ErrorCode) (info : Word) (s : State) :
    (raised e info s).response = some { status := .error e, rvalue := info } := rfl
@[simp] theorem accept_config (s : State) : (accept s).config = s.config := rfl
@[simp] theorem accept_crcReg (s : State) : (accept s).crcReg = s.crcReg := rfl
@[simp] theorem accept_txf (s : State) : (accept s).txf = s.txf := rfl
@[simp] theorem accept_rxf (s : State) : (accept s).rxf = s.rxf := rfl
@[simp] theorem accept_txfPresent (s : State) : (accept s).txfPresent = s.txfPresent := rfl
@[simp] theorem accept_rxfPresent (s : State) : (accept s).rxfPresent = s.rxfPresent := rfl
@[simp] theorem accept_rxbuf (s : State) : (accept s).rxbuf = s.rxbuf := rfl
@[simp] theorem accept_loopMode (s : State) : (accept s).loopMode = s.loopMode := rfl
@[simp] theorem accept_found (s : State) : (accept s).found = s.found := rfl
@[simp] theorem accept_done (s : State) : (accept s).done = s.done := rfl
@[simp] theorem accept_errSticky (s : State) : (accept s).errSticky = s.errSticky := rfl
@[simp] theorem accept_response (s : State) : (accept s).response = s.response := rfl
@[simp] theorem accept_events (s : State) : (accept s).events = s.events := rfl
@[simp] theorem accept_session (s : State) : (accept s).session = s.session := rfl
@[simp] theorem accept_opIndex (s : State) : (accept s).opIndex = s.opIndex + 1 := rfl
@[simp] theorem resetBlock_config (s : State) : (resetBlock s).config = s.config := rfl
@[simp] theorem resetBlock_crcReg (s : State) : (resetBlock s).crcReg = s.config.crcInit := rfl
@[simp] theorem resetBlock_txf (s : State) : (resetBlock s).txf = .blank := rfl
@[simp] theorem resetBlock_rxf (s : State) : (resetBlock s).rxf = .blank := rfl
@[simp] theorem resetBlock_txfPresent (s : State) : (resetBlock s).txfPresent = false := rfl
@[simp] theorem resetBlock_rxfPresent (s : State) : (resetBlock s).rxfPresent = false := rfl
@[simp] theorem resetBlock_rxbuf (s : State) : (resetBlock s).rxbuf = [] := rfl
@[simp] theorem resetBlock_loopMode (s : State) : (resetBlock s).loopMode = false := rfl
@[simp] theorem resetBlock_found (s : State) : (resetBlock s).found = false := rfl
@[simp] theorem resetBlock_done (s : State) : (resetBlock s).done = false := rfl
@[simp] theorem resetBlock_errSticky (s : State) : (resetBlock s).errSticky = 0 := rfl
@[simp] theorem resetBlock_response (s : State) : (resetBlock s).response = none := rfl
@[simp] theorem resetBlock_opIndex (s : State) : (resetBlock s).opIndex = s.opIndex := rfl
@[simp] theorem resetBlock_events (s : State) : (resetBlock s).events = s.events := rfl
@[simp] theorem resetBlock_session (s : State) : (resetBlock s).session = s.session := rfl

/-! ### The last frame of a pass -/

@[simp] theorem State.receiveLast_config (s : State) (ws : List (List Byte)) : (s.receiveLast ws).config = s.config := by
  unfold State.receiveLast; split <;> rfl
@[simp] theorem State.receiveLast_crcReg (s : State) (ws : List (List Byte)) : (s.receiveLast ws).crcReg = s.crcReg := by
  unfold State.receiveLast; split <;> rfl
@[simp] theorem State.receiveLast_txf (s : State) (ws : List (List Byte)) : (s.receiveLast ws).txf = s.txf := by
  unfold State.receiveLast; split <;> rfl
@[simp] theorem State.receiveLast_txfPresent (s : State) (ws : List (List Byte)) : (s.receiveLast ws).txfPresent = s.txfPresent := by
  unfold State.receiveLast; split <;> rfl
@[simp] theorem State.receiveLast_rxbuf (s : State) (ws : List (List Byte)) : (s.receiveLast ws).rxbuf = s.rxbuf := by
  unfold State.receiveLast; split <;> rfl
@[simp] theorem State.receiveLast_loopMode (s : State) (ws : List (List Byte)) : (s.receiveLast ws).loopMode = s.loopMode := by
  unfold State.receiveLast; split <;> rfl
@[simp] theorem State.receiveLast_found (s : State) (ws : List (List Byte)) : (s.receiveLast ws).found = s.found := by
  unfold State.receiveLast; split <;> rfl
@[simp] theorem State.receiveLast_done (s : State) (ws : List (List Byte)) : (s.receiveLast ws).done = s.done := by
  unfold State.receiveLast; split <;> rfl
@[simp] theorem State.receiveLast_errSticky (s : State) (ws : List (List Byte)) : (s.receiveLast ws).errSticky = s.errSticky := by
  unfold State.receiveLast; split <;> rfl
@[simp] theorem State.receiveLast_response (s : State) (ws : List (List Byte)) : (s.receiveLast ws).response = s.response := by
  unfold State.receiveLast; split <;> rfl
@[simp] theorem State.receiveLast_opIndex (s : State) (ws : List (List Byte)) : (s.receiveLast ws).opIndex = s.opIndex := by
  unfold State.receiveLast; split <;> rfl
@[simp] theorem State.receiveLast_events (s : State) (ws : List (List Byte)) : (s.receiveLast ws).events = s.events := by
  unfold State.receiveLast; split <;> rfl
@[simp] theorem State.receiveLast_session (s : State) (ws : List (List Byte)) : (s.receiveLast ws).session = s.session := by
  unfold State.receiveLast; split <;> rfl

/-- RXF after a pass (10_state R25): the last delivered frame. -/
theorem State.receiveLast_some (s : State) (ws : List (List Byte)) (w : List Byte) (h : ws.getLast? = some w) :
    (s.receiveLast ws).rxf = Memory.ofBytes w ∧ (s.receiveLast ws).rxfPresent = true := by
  unfold State.receiveLast; rw [h]; exact ⟨rfl, rfl⟩

/-- A pass that delivers nothing leaves RXF alone. -/
@[simp] theorem State.receiveLast_nil (s : State) : s.receiveLast [] = s := rfl

/-! ### Moves of the host's activities: only `session` changes -/

@[simp] theorem State.senderTo_config (s : State) (a : SenderAt) : (s.senderTo a).config = s.config := rfl
@[simp] theorem State.senderTo_crcReg (s : State) (a : SenderAt) : (s.senderTo a).crcReg = s.crcReg := rfl
@[simp] theorem State.senderTo_txf (s : State) (a : SenderAt) : (s.senderTo a).txf = s.txf := rfl
@[simp] theorem State.senderTo_rxf (s : State) (a : SenderAt) : (s.senderTo a).rxf = s.rxf := rfl
@[simp] theorem State.senderTo_txfPresent (s : State) (a : SenderAt) : (s.senderTo a).txfPresent = s.txfPresent := rfl
@[simp] theorem State.senderTo_rxfPresent (s : State) (a : SenderAt) : (s.senderTo a).rxfPresent = s.rxfPresent := rfl
@[simp] theorem State.senderTo_rxbuf (s : State) (a : SenderAt) : (s.senderTo a).rxbuf = s.rxbuf := rfl
@[simp] theorem State.senderTo_loopMode (s : State) (a : SenderAt) : (s.senderTo a).loopMode = s.loopMode := rfl
@[simp] theorem State.senderTo_found (s : State) (a : SenderAt) : (s.senderTo a).found = s.found := rfl
@[simp] theorem State.senderTo_done (s : State) (a : SenderAt) : (s.senderTo a).done = s.done := rfl
@[simp] theorem State.senderTo_errSticky (s : State) (a : SenderAt) : (s.senderTo a).errSticky = s.errSticky := rfl
@[simp] theorem State.senderTo_response (s : State) (a : SenderAt) : (s.senderTo a).response = s.response := rfl
@[simp] theorem State.senderTo_opIndex (s : State) (a : SenderAt) : (s.senderTo a).opIndex = s.opIndex := rfl
@[simp] theorem State.senderTo_events (s : State) (a : SenderAt) : (s.senderTo a).events = s.events := rfl
@[simp] theorem State.senderTo_session (s : State) (a : SenderAt) : (s.senderTo a).session = { s.session with sender := a } := rfl
@[simp] theorem State.receiverTo_config (s : State) (a : ReceiverAt) : (s.receiverTo a).config = s.config := rfl
@[simp] theorem State.receiverTo_crcReg (s : State) (a : ReceiverAt) : (s.receiverTo a).crcReg = s.crcReg := rfl
@[simp] theorem State.receiverTo_txf (s : State) (a : ReceiverAt) : (s.receiverTo a).txf = s.txf := rfl
@[simp] theorem State.receiverTo_rxf (s : State) (a : ReceiverAt) : (s.receiverTo a).rxf = s.rxf := rfl
@[simp] theorem State.receiverTo_txfPresent (s : State) (a : ReceiverAt) : (s.receiverTo a).txfPresent = s.txfPresent := rfl
@[simp] theorem State.receiverTo_rxfPresent (s : State) (a : ReceiverAt) : (s.receiverTo a).rxfPresent = s.rxfPresent := rfl
@[simp] theorem State.receiverTo_rxbuf (s : State) (a : ReceiverAt) : (s.receiverTo a).rxbuf = s.rxbuf := rfl
@[simp] theorem State.receiverTo_loopMode (s : State) (a : ReceiverAt) : (s.receiverTo a).loopMode = s.loopMode := rfl
@[simp] theorem State.receiverTo_found (s : State) (a : ReceiverAt) : (s.receiverTo a).found = s.found := rfl
@[simp] theorem State.receiverTo_done (s : State) (a : ReceiverAt) : (s.receiverTo a).done = s.done := rfl
@[simp] theorem State.receiverTo_errSticky (s : State) (a : ReceiverAt) : (s.receiverTo a).errSticky = s.errSticky := rfl
@[simp] theorem State.receiverTo_response (s : State) (a : ReceiverAt) : (s.receiverTo a).response = s.response := rfl
@[simp] theorem State.receiverTo_opIndex (s : State) (a : ReceiverAt) : (s.receiverTo a).opIndex = s.opIndex := rfl
@[simp] theorem State.receiverTo_events (s : State) (a : ReceiverAt) : (s.receiverTo a).events = s.events := rfl
@[simp] theorem State.receiverTo_session (s : State) (a : ReceiverAt) : (s.receiverTo a).session = { s.session with receiver := a } := rfl
@[simp] theorem State.callerTo_config (s : State) (a : CallerAt) : (s.callerTo a).config = s.config := rfl
@[simp] theorem State.callerTo_crcReg (s : State) (a : CallerAt) : (s.callerTo a).crcReg = s.crcReg := rfl
@[simp] theorem State.callerTo_txf (s : State) (a : CallerAt) : (s.callerTo a).txf = s.txf := rfl
@[simp] theorem State.callerTo_rxf (s : State) (a : CallerAt) : (s.callerTo a).rxf = s.rxf := rfl
@[simp] theorem State.callerTo_txfPresent (s : State) (a : CallerAt) : (s.callerTo a).txfPresent = s.txfPresent := rfl
@[simp] theorem State.callerTo_rxfPresent (s : State) (a : CallerAt) : (s.callerTo a).rxfPresent = s.rxfPresent := rfl
@[simp] theorem State.callerTo_rxbuf (s : State) (a : CallerAt) : (s.callerTo a).rxbuf = s.rxbuf := rfl
@[simp] theorem State.callerTo_loopMode (s : State) (a : CallerAt) : (s.callerTo a).loopMode = s.loopMode := rfl
@[simp] theorem State.callerTo_found (s : State) (a : CallerAt) : (s.callerTo a).found = s.found := rfl
@[simp] theorem State.callerTo_done (s : State) (a : CallerAt) : (s.callerTo a).done = s.done := rfl
@[simp] theorem State.callerTo_errSticky (s : State) (a : CallerAt) : (s.callerTo a).errSticky = s.errSticky := rfl
@[simp] theorem State.callerTo_response (s : State) (a : CallerAt) : (s.callerTo a).response = s.response := rfl
@[simp] theorem State.callerTo_opIndex (s : State) (a : CallerAt) : (s.callerTo a).opIndex = s.opIndex := rfl
@[simp] theorem State.callerTo_events (s : State) (a : CallerAt) : (s.callerTo a).events = s.events := rfl
@[simp] theorem State.callerTo_session (s : State) (a : CallerAt) : (s.callerTo a).session = { s.session with caller := a } := rfl
@[simp] theorem State.reaches_config (s : State) (bs : List Byte) : (s.reaches bs).config = s.config := rfl
@[simp] theorem State.reaches_crcReg (s : State) (bs : List Byte) : (s.reaches bs).crcReg = s.crcReg := rfl
@[simp] theorem State.reaches_txf (s : State) (bs : List Byte) : (s.reaches bs).txf = s.txf := rfl
@[simp] theorem State.reaches_rxf (s : State) (bs : List Byte) : (s.reaches bs).rxf = s.rxf := rfl
@[simp] theorem State.reaches_txfPresent (s : State) (bs : List Byte) : (s.reaches bs).txfPresent = s.txfPresent := rfl
@[simp] theorem State.reaches_rxfPresent (s : State) (bs : List Byte) : (s.reaches bs).rxfPresent = s.rxfPresent := rfl
@[simp] theorem State.reaches_rxbuf (s : State) (bs : List Byte) : (s.reaches bs).rxbuf = s.rxbuf := rfl
@[simp] theorem State.reaches_loopMode (s : State) (bs : List Byte) : (s.reaches bs).loopMode = s.loopMode := rfl
@[simp] theorem State.reaches_found (s : State) (bs : List Byte) : (s.reaches bs).found = s.found := rfl
@[simp] theorem State.reaches_done (s : State) (bs : List Byte) : (s.reaches bs).done = s.done := rfl
@[simp] theorem State.reaches_errSticky (s : State) (bs : List Byte) : (s.reaches bs).errSticky = s.errSticky := rfl
@[simp] theorem State.reaches_response (s : State) (bs : List Byte) : (s.reaches bs).response = s.response := rfl
@[simp] theorem State.reaches_opIndex (s : State) (bs : List Byte) : (s.reaches bs).opIndex = s.opIndex := rfl
@[simp] theorem State.reaches_events (s : State) (bs : List Byte) : (s.reaches bs).events = s.events := rfl
@[simp] theorem State.reaches_session (s : State) (bs : List Byte) : (s.reaches bs).session = { s.session with sent := s.session.sent ++ [bs] } := rfl
@[simp] theorem State.closeHandle_config (s : State) : (s.closeHandle).config = s.config := rfl
@[simp] theorem State.closeHandle_crcReg (s : State) : (s.closeHandle).crcReg = s.crcReg := rfl
@[simp] theorem State.closeHandle_txf (s : State) : (s.closeHandle).txf = s.txf := rfl
@[simp] theorem State.closeHandle_rxf (s : State) : (s.closeHandle).rxf = s.rxf := rfl
@[simp] theorem State.closeHandle_txfPresent (s : State) : (s.closeHandle).txfPresent = s.txfPresent := rfl
@[simp] theorem State.closeHandle_rxfPresent (s : State) : (s.closeHandle).rxfPresent = s.rxfPresent := rfl
@[simp] theorem State.closeHandle_rxbuf (s : State) : (s.closeHandle).rxbuf = s.rxbuf := rfl
@[simp] theorem State.closeHandle_loopMode (s : State) : (s.closeHandle).loopMode = s.loopMode := rfl
@[simp] theorem State.closeHandle_found (s : State) : (s.closeHandle).found = s.found := rfl
@[simp] theorem State.closeHandle_done (s : State) : (s.closeHandle).done = s.done := rfl
@[simp] theorem State.closeHandle_errSticky (s : State) : (s.closeHandle).errSticky = s.errSticky := rfl
@[simp] theorem State.closeHandle_response (s : State) : (s.closeHandle).response = s.response := rfl
@[simp] theorem State.closeHandle_opIndex (s : State) : (s.closeHandle).opIndex = s.opIndex := rfl
@[simp] theorem State.closeHandle_events (s : State) : (s.closeHandle).events = s.events := rfl
@[simp] theorem State.closeHandle_session (s : State) : (s.closeHandle).session = { s.session with handleOpen := false } := rfl
@[simp] theorem State.openHandle_config (s : State) : (s.openHandle).config = s.config := rfl
@[simp] theorem State.openHandle_crcReg (s : State) : (s.openHandle).crcReg = s.crcReg := rfl
@[simp] theorem State.openHandle_txf (s : State) : (s.openHandle).txf = s.txf := rfl
@[simp] theorem State.openHandle_rxf (s : State) : (s.openHandle).rxf = s.rxf := rfl
@[simp] theorem State.openHandle_txfPresent (s : State) : (s.openHandle).txfPresent = s.txfPresent := rfl
@[simp] theorem State.openHandle_rxfPresent (s : State) : (s.openHandle).rxfPresent = s.rxfPresent := rfl
@[simp] theorem State.openHandle_rxbuf (s : State) : (s.openHandle).rxbuf = s.rxbuf := rfl
@[simp] theorem State.openHandle_loopMode (s : State) : (s.openHandle).loopMode = s.loopMode := rfl
@[simp] theorem State.openHandle_found (s : State) : (s.openHandle).found = s.found := rfl
@[simp] theorem State.openHandle_done (s : State) : (s.openHandle).done = s.done := rfl
@[simp] theorem State.openHandle_errSticky (s : State) : (s.openHandle).errSticky = s.errSticky := rfl
@[simp] theorem State.openHandle_response (s : State) : (s.openHandle).response = s.response := rfl
@[simp] theorem State.openHandle_opIndex (s : State) : (s.openHandle).opIndex = s.opIndex := rfl
@[simp] theorem State.openHandle_events (s : State) : (s.openHandle).events = s.events := rfl
@[simp] theorem State.openHandle_session (s : State) : (s.openHandle).session = { s.session with handleOpen := true, reopens := s.session.reopens + 1 } := rfl

/-! ### Ending a session, starting a call, the wire commands: only `session` changes -/

/-- A state differs from another at most in the host's side. -/
def OnlySession (s t : State) : Prop := { t with session := s.session } = s

theorem OnlySession.refl (s : State) : OnlySession s s := rfl

theorem OnlySession.trans {s t u : State} (h : OnlySession s t) (h' : OnlySession t u) : OnlySession s u := by
  cases s; cases t; cases u
  simp only [OnlySession, State.mk.injEq] at *
  simp_all

/-- Every field but the host's side is the same. -/
theorem OnlySession.eq {s t : State} (h : OnlySession s t) : t = { s with session := t.session } := by
  cases s; cases t
  simp only [OnlySession, State.mk.injEq] at *
  simp_all

theorem cancelActivities_only (env : Env) (s : State) : OnlySession s (cancelActivities env s) := by
  unfold cancelActivities
  split <;> exact rfl

theorem endSession_only (e : SessionEnd) (env : Env) (s : State) : OnlySession s (endSession e env s) :=
  (cancelActivities_only env s).trans rfl

theorem failSession_only (c : FatalCause) (env : Env) (s : State) : OnlySession s (failSession c env s) :=
  endSession_only _ env s

theorem reopenByCaller_only (env : Env) (s : State) : OnlySession s (reopenByCaller env s) := by
  unfold reopenByCaller
  split
  · exact rfl
  · exact OnlySession.trans (t := s.closeHandle) rfl (failSession_only _ env _)

theorem closeByCaller_only (env : Env) (s : State) : OnlySession s (closeByCaller env s) := by
  unfold closeByCaller
  split
  · exact (cancelActivities_only env s).trans rfl
  all_goals exact (endSession_only .closed env s).trans rfl

theorem startWatch_only (interval : Nat) (env : Env) (s : State) : OnlySession s (startWatch interval env s) := by
  unfold startWatch
  split
  · exact rfl
  · exact OnlySession.trans (t := beginCall interval true .loop (.values []) .openLink s) rfl (failSession_only _ env _)

theorem startCall_only (c : Call) (env : Env) (s : State) : OnlySession s (startCall c env s) := by
  cases c <;> simp only [startCall]
  case close => exact closeByCaller_only env s
  case reopen =>
    split
    · exact reopenByCaller_only env s
    · exact OnlySession.refl s
  case watchProbes interval =>
    split
    · exact startWatch_only interval env s
    · exact OnlySession.refl s
  all_goals split <;> exact rfl

theorem dropFrame_only (s : State) : OnlySession s (dropFrame s) := by
  unfold dropFrame
  split <;> exact rfl

theorem keepFrame_only (s : State) : OnlySession s (keepFrame s) := by
  unfold keepFrame
  split <;> exact rfl

theorem afterHandler_only (env : Env) (s : State) (next : ReceiverAt) : OnlySession s (afterHandler env s next) := by
  unfold afterHandler
  split
  · exact rfl
  · exact failSession_only _ env s

/-- A handler that returns: the receiver goes on. -/
theorem afterHandler_ok {env : Env} (s : State) (next : ReceiverAt) (h : env.handlerError = none) :
    afterHandler env s next = s.receiverTo next := by
  rw [afterHandler, h]

/-- A handler that raises ends the session (45_host_session R251). -/
theorem afterHandler_error {env : Env} {code : Half} (s : State) (next : ReceiverAt) (h : env.handlerError = some code) :
    afterHandler env s next = failSession (.handlerError code) env s := by
  rw [afterHandler, h]

theorem handValues_only (got : List Reading) (next : ReceiverAt) (env : Env) (s : State) :
    OnlySession s (handValues got next env s) :=
  OnlySession.trans (t := { s with session := { s.session with values := s.session.values ++ [got] } }) rfl
    (afterHandler_only env _ next)

theorem afterWrite_only (bs : List Byte) (env : Env) (s : State) : OnlySession s (afterWrite bs env s) := by
  unfold afterWrite
  split
  · exact rfl
  · split
    · exact rfl
    · exact failSession_only _ env s

end Sys2Proof.Machine
end

