-- ==== Sys2Proof/Laws/Ops.lean ====
section
/-! SUPPORT. Each shared operation's lemma: once, everything it can do. -/

namespace Sys2Proof.Machine

/-! ### Ending an operation -/

theorem respond_next {r : Response} {s t : State} (h : respond r s = .next t) : t = { s with response := some r } := by
  cases h; rfl

theorem raise_next {e : ErrorCode} {info : Word} {s t : State} (h : raise e info s = .next t) : t = raised e info s := by
  cases h; rfl

/-- `withFrame`: the continuation on a present frame, NO_FRAME on an absent one. -/
theorem withFrame_present {sel : FrameSel} {s : State} {k : Memory → Result} (h : s.present sel = true) :
    withFrame sel s k = k (s.frame sel) := if_pos h

theorem withFrame_absent {sel : FrameSel} {s : State} {k : Memory → Result} (h : s.present sel = false) :
    withFrame sel s k = .next (raised .noFrame (selWord sel) s) := by
  rw [withFrame, h]; rfl

theorem withFrame_next {sel : FrameSel} {s t : State} {k : Memory → Result} (h : withFrame sel s k = .next t) :
    (s.present sel = true ∧ k (s.frame sel) = .next t) ∨
    (s.present sel = false ∧ t = raised .noFrame (selWord sel) s) := by
  cases hp : s.present sel with
  | true => exact .inl ⟨rfl, by rw [withFrame_present hp] at h; exact h⟩
  | false => exact .inr ⟨rfl, by rw [withFrame_absent hp] at h; cases h; rfl⟩

/-! ### Sealing a frame (42_frame R175) -/

@[simp] theorem length_leBytes (n : Nat) (v : Word) : (leBytes n v).length = n := by
  induction n generalizing v with
  | zero => rfl
  | succ n ih => simp [leBytes, ih]

/-- A 16-bit value is the `le16` of its two little-endian bytes. -/
theorem le16_leBytes (c : Half) :
    le16 ((leBytes 2 (c.setWidth 32)).getD 0 0) ((leBytes 2 (c.setWidth 32)).getD 1 0) = c := by
  simp only [leBytes, List.getD_cons_zero, List.getD_cons_succ, le16]
  ext i hi
  simp only [BitVec.getElem_append]
  split
  · rename_i h
    simp [BitVec.getLsbD_eq_getElem hi]
  · rename_i h
    simp
    rw [show 8 + (i - 8) = i by omega, BitVec.getLsbD_eq_getElem hi]
    simp; omega

/-- `le16` loses neither byte. -/
theorem le16_injective {a b c d : Byte} (h : le16 a b = le16 c d) : a = c ∧ b = d := by
  have key : ∀ i, (le16 a b).getLsbD i = (le16 c d).getLsbD i := fun i => by rw [h]
  simp only [le16, BitVec.getLsbD_append] at key
  refine ⟨BitVec.eq_of_getLsbD_eq (fun i hi => ?_), BitVec.eq_of_getLsbD_eq (fun i hi => ?_)⟩
  · have := key i
    rwa [if_pos hi, if_pos hi] at this
  · have := key (8 + i)
    rwa [if_neg (by omega), if_neg (by omega), show 8 + i - 8 = i by omega] at this

/-- `storeChecksum` writes bytes 126 and 127 and no other. -/
theorem storeChecksum_cell (init : Half) (m : Memory) (x : Nat) (h : m.wf = true) :
    cellsGet (storeChecksum init m).cells x =
      if 126 ≤ x ∧ x < 128 then (leBytes 2 ((frameCrcOf init m.bytes).setWidth 32)).getD (x - 126) 0
      else cellsGet m.cells x := by
  rw [storeChecksum, cellsGet_putAll frameLen m.cells cksumOff _ x h (by simp [cksumOff, frameLen])]
  simp [cksumOff]

theorem storeChecksum_wf (init : Half) (m : Memory) (h : m.wf = true) : (storeChecksum init m).wf = true :=
  cellsPutAll_canonical frameLen m.cells cksumOff _ h (by simp [cksumOff, frameLen])

/-- Bytes 0..125 are unchanged. -/
theorem storeChecksum_take (init : Half) (m : Memory) (h : m.wf = true) :
    (storeChecksum init m).bytes.take crcLen = m.bytes.take crcLen := by
  apply List.ext_getElem
  · simp
  · intro i h1 h2
    simp only [List.length_take, Memory.length_bytes, crcLen] at h1
    simp only [List.getElem_take]
    rw [Memory.getElem_bytes, Memory.getElem_bytes, storeChecksum_cell init m i h, if_neg (by omega)]

theorem storeChecksum_crc (init : Half) (m : Memory) (h : m.wf = true) :
    frameCrcOf init (storeChecksum init m).bytes = frameCrcOf init m.bytes := by
  rw [frameCrcOf, storeChecksum_take init m h, frameCrcOf]

/-- Every byte below 126 reads as before. -/
theorem storeChecksum_read (init : Half) (m : Memory) (a : Nat) (h : m.wf = true) (ha : a < 126 ∨ 128 ≤ a) :
    (storeChecksum init m).read a = m.read a := by
  simp only [Memory.read]
  rw [storeChecksum_cell init m a h, if_neg (show ¬(126 ≤ a ∧ a < 128) by omega)]

/-- The stored word is the frame's own CRC. -/
theorem storeChecksum_word (init : Half) (m : Memory) (h : m.wf = true) :
    checksumWord (storeChecksum init m).bytes = frameCrcOf init m.bytes := by
  have e0 := Memory.byte_eq (storeChecksum init m) 126 (by omega)
  have e1 := Memory.byte_eq (storeChecksum init m) 127 (by omega)
  rw [storeChecksum_cell init m _ h, if_pos (by omega)] at e0 e1
  rw [checksumWord, byteAt, byteAt]
  show le16 ((storeChecksum init m).bytes.getD 126 0) ((storeChecksum init m).bytes.getD 127 0) = _
  rw [e0, e1]
  exact le16_leBytes _

/-- A frame whose checksum was just stored is valid (41_crc R156). -/
theorem storeChecksum_valid (init : Half) (m : Memory) (h : m.wf = true) :
    validFrame init (storeChecksum init m).bytes = true := by
  rw [validFrame, storeChecksum_crc init m h, storeChecksum_word init m h]
  exact beq_self_eq_true _

/-- `sealedWrite`: a range of the frame is written and sealed; any other range is the fault. -/
theorem sealedWrite_next {init : Half} {m : Memory} {o : Nat} {bs : List Byte} {k : Memory → Result} {t : State}
    (h : sealedWrite init m o bs k = .next t) :
    ∃ m', m.writeRange o bs = some m' ∧ k (storeChecksum init m') = .next t := by
  unfold sealedWrite at h
  split at h
  · cases h
  · rename_i m' hm
    exact ⟨m', hm, h⟩

theorem sealedWrite_in_frame {init : Half} {m : Memory} {o : Nat} {bs : List Byte} {k : Memory → Result}
    (h : o + bs.length ≤ 128) :
    ∃ m', m.writeRange o bs = some m' ∧ sealedWrite init m o bs k = k (storeChecksum init m') := by
  obtain ⟨m', hm⟩ := Memory.writeRange_isSome m o bs h
  exact ⟨m', hm, by rw [sealedWrite, hm]⟩

/-! ### Lookups -/

theorem assoc_mem {α : Type} {l : List (Byte × α)} {a : Byte} {v : α} (h : assoc l a = some v) : (a, v) ∈ l := by
  induction l with
  | nil => cases h
  | cons e rest ih =>
    obtain ⟨k, x⟩ := e
    rw [assoc] at h
    split at h
    · rename_i hk
      cases h; cases hk
      exact List.mem_cons_self
    · exact List.mem_cons_of_mem _ (ih h)

/-- The mask of a list of field ids (42_frame R176): every id has a bit, and the mask holds exactly the old bits and
theirs. -/
theorem dataFlagsMask_ok {c : Config} {fids : List Byte} {mask out : Half} (h : dataFlagsMask c mask fids = .ok out) :
    (∀ f ∈ fids, (flagbit c f).isSome = true) ∧
    (∀ i, i < 16 → out.getLsbD i = (mask.getLsbD i || fids.any (fun f => (flagbit c f).any (fun b => b.val == i)))) := by
  induction fids generalizing mask with
  | nil => cases h; simp
  | cons f fs ih =>
    rw [dataFlagsMask] at h
    split at h
    · cases h
    · rename_i b hb
      obtain ⟨h1, h2⟩ := ih h
      refine ⟨fun g hg => ?_, fun i hi => ?_⟩
      · rcases List.mem_cons.mp hg with rfl | hg
        · rw [hb]; rfl
        · exact h1 g hg
      · rw [h2 i hi]
        simp only [List.any_cons, hb, Option.any_some, BitVec.getLsbD_or]
        have : ((1 : Half) <<< b.val).getLsbD i = (b.val == i) := by
          simp only [BitVec.getLsbD_shiftLeft]
          by_cases hbi : b.val = i
          · subst hbi; simp [hi]
          · by_cases hlt : i < b.val
            · simp [hlt, hbi]
            · have : i - b.val ≠ 0 := by omega
              simp [hbi, BitVec.getLsbD_one, this]
        rw [this, Bool.or_assoc]

/-- The first id without a bit is the one reported (D31). -/
theorem dataFlagsMask_error {c : Config} {fids : List Byte} {mask : Half} {g : Byte}
    (h : dataFlagsMask c mask fids = .error g) :
    ∃ before after, fids = before ++ g :: after ∧ (∀ f ∈ before, (flagbit c f).isSome = true) ∧ flagbit c g = none := by
  induction fids generalizing mask with
  | nil => cases h
  | cons f fs ih =>
    rw [dataFlagsMask] at h
    split at h
    · rename_i hb
      cases h
      exact ⟨[], fs, rfl, by simp, hb⟩
    · rename_i b hb
      obtain ⟨before, after, rfl, h1, h2⟩ := ih h
      refine ⟨f :: before, after, rfl, fun x hx => ?_, h2⟩
      rcases List.mem_cons.mp hx with rfl | hx
      · rw [hb]; rfl
      · exact h1 x hx

/-- When every listed id has a bit there is a mask. -/
theorem dataFlagsMask_of_all {c : Config} {fids : List Byte} (h : ∀ f ∈ fids, (flagbit c f).isSome = true) (mask : Half) :
    ∃ out, dataFlagsMask c mask fids = .ok out := by
  induction fids generalizing mask with
  | nil => exact ⟨mask, rfl⟩
  | cons f fs ih =>
    obtain ⟨b, hb⟩ := Option.isSome_iff_exists.mp (h f List.mem_cons_self)
    rw [dataFlagsMask, hb]
    exact ih (fun g hg => h g (List.mem_cons_of_mem _ hg)) _

/-- When some listed id has no bit the first of them is reported. -/
theorem dataFlagsMask_of_first {c : Config} {before after : List Byte} {g : Byte}
    (h : ∀ f ∈ before, (flagbit c f).isSome = true) (hg : flagbit c g = none) (mask : Half) :
    dataFlagsMask c mask (before ++ g :: after) = .error g := by
  induction before generalizing mask with
  | nil => rw [List.nil_append, dataFlagsMask, hg]
  | cons f fs ih =>
    obtain ⟨b, hb⟩ := Option.isSome_iff_exists.mp (h f List.mem_cons_self)
    rw [List.cons_append, dataFlagsMask, hb]
    exact ih (fun x hx => h x (List.mem_cons_of_mem _ hx)) _

/-! ### The drain (43_rx_resync R212) -/

/-- A buffer of fewer than 128 bytes stays as it is. -/
theorem drain_short (init : Half) (fuel : Nat) {buf : List Byte} (h : buf.length < 128) :
    drain init fuel buf = { delivered := [], discarded := 0, rest := buf } := by
  cases fuel with
  | zero => rfl
  | succ fuel => exact if_pos h

/-- A valid candidate is delivered. -/
theorem drain_valid (init : Half) (fuel : Nat) {buf : List Byte} (h : 128 ≤ buf.length)
    (hv : validFrame init (buf.take 128) = true) :
    drain init (fuel + 1) buf =
      { delivered := buf.take 128 :: (drain init fuel (buf.drop 128)).delivered
        discarded := (drain init fuel (buf.drop 128)).discarded
        rest := (drain init fuel (buf.drop 128)).rest } := by
  have hl : ¬ buf.length < frameLen := Nat.not_lt.mpr h
  have hv' : validFrame init (buf.take frameLen) = true := hv
  rw [drain, if_neg hl, if_pos hv']
  rfl

/-- An invalid candidate loses its first byte. -/
theorem drain_invalid (init : Half) (fuel : Nat) {buf : List Byte} (h : 128 ≤ buf.length)
    (hv : validFrame init (buf.take 128) = false) :
    drain init (fuel + 1) buf =
      { delivered := (drain init fuel (buf.drop 1)).delivered
        discarded := (drain init fuel (buf.drop 1)).discarded + 1
        rest := (drain init fuel (buf.drop 1)).rest } := by
  have hl : ¬ buf.length < frameLen := Nat.not_lt.mpr h
  have hv' : ¬ validFrame init (buf.take frameLen) = true := fun g => Bool.false_ne_true (hv ▸ g)
  rw [drain, if_neg hl, if_neg hv']

/-- A pass with enough rounds leaves fewer than 128 bytes. -/
theorem drain_rest_short (init : Half) (fuel : Nat) (buf : List Byte) (h : buf.length ≤ fuel) :
    (drain init fuel buf).rest.length < 128 := by
  induction fuel generalizing buf with
  | zero => simp only [drain]; omega
  | succ fuel ih =>
    rw [drain]
    split
    · rename_i hs; exact hs
    · rename_i hs
      simp only [frameLen] at hs
      split
      · exact ih _ (by simp [frameLen]; omega)
      · exact ih _ (by simp; omega)

/-- Every delivered window has 128 bytes and a matching checksum. -/
theorem drain_delivered (init : Half) (fuel : Nat) (buf : List Byte) :
    ∀ w ∈ (drain init fuel buf).delivered, w.length = 128 ∧ validFrame init w = true := by
  induction fuel generalizing buf with
  | zero => simp [drain]
  | succ fuel ih =>
    rw [drain]
    split
    · simp
    · rename_i hs
      simp only [frameLen] at hs
      split
      · rename_i hv
        intro w hw
        rcases List.mem_cons.mp hw with rfl | hw
        · exact ⟨by simp [frameLen]; omega, hv⟩
        · exact ih _ w hw
      · exact ih _

/-- No byte is lost: what was buffered is delivered, discarded or kept. -/
theorem drain_count (init : Half) (fuel : Nat) (buf : List Byte) :
    buf.length = 128 * (drain init fuel buf).delivered.length + (drain init fuel buf).discarded +
      (drain init fuel buf).rest.length := by
  induction fuel generalizing buf with
  | zero => simp [drain]
  | succ fuel ih =>
    rw [drain]
    split
    · simp
    · rename_i hs
      simp only [frameLen] at hs
      split
      · have := ih (buf.drop frameLen)
        simp only [frameLen, List.length_drop, List.length_cons] at this ⊢
        omega
      · have := ih (buf.drop 1)
        simp only [List.length_drop] at this ⊢
        omega

/-- What stays is the tail of what was buffered. -/
theorem drain_rest_suffix (init : Half) (fuel : Nat) (buf : List Byte) : (drain init fuel buf).rest <:+ buf := by
  induction fuel generalizing buf with
  | zero => exact List.suffix_refl _
  | succ fuel ih =>
    rw [drain]
    split
    · exact List.suffix_refl _
    · split
      · exact (ih _).trans (List.drop_suffix _ _)
      · exact (ih _).trans (List.drop_suffix _ _)

end Sys2Proof.Machine
end

