-- ==== Sys2Proof/Laws/Codec.lean ====
section
/-! SUPPORT. The little-endian assembly of 00_scope R13 as numbers, and the bytes of a value put together again. -/

namespace Sys2Proof.Machine

theorem append_toNat {n m : Nat} (x : BitVec n) (y : BitVec m) : (x ++ y).toNat = x.toNat * 2 ^ m + y.toNat := by
  rw [BitVec.toNat_append, ← Nat.shiftLeft_add_eq_or_of_lt y.isLt, Nat.shiftLeft_eq]

theorem le16_toNat (b0 b1 : Byte) : (le16 b0 b1).toNat = b0.toNat + 256 * b1.toNat := by
  rw [le16, append_toNat]
  omega

theorem le32_toNat (b0 b1 b2 b3 : Byte) :
    (le32 b0 b1 b2 b3).toNat = b0.toNat + 256 * b1.toNat + 65536 * b2.toNat + 16777216 * b3.toNat := by
  rw [le32, append_toNat, append_toNat, append_toNat]
  omega

/-- Byte `i` of a value's little-endian bytes. -/
theorem leBytes_getD (n : Nat) (v : Word) (i : Nat) (h : i < n) :
    (leBytes n v).getD i 0 = (v >>> (8 * i)).setWidth 8 := by
  induction n generalizing v i with
  | zero => omega
  | succ n ih =>
    cases i with
    | zero => simp [leBytes]
    | succ i =>
      rw [leBytes, List.getD_cons_succ, ih (v >>> 8) i (by omega), ← BitVec.shiftRight_add]
      congr 2
      omega

end Sys2Proof.Machine
end

