-- ==== Sys2Proof/Laws/Config.lean ====
section
/-! SUPPORT. What a configuration that meets 00_scope R9 gives: every field lies in the frame, and the shipped configuration
meets R9 whatever its lost tables hold. -/

namespace Sys2Proof

/-- The shipped configuration meets 00_scope R9. -/
theorem Config.shipped_wellFormed : Config.shipped.wellFormed = true := by
  have hcal : (match Config.shipped.calibration with
      | none => true
      | some k => k.wellFormed) = true := by
    show (match Config.lostCalibration.map (fun c => c.val) with
      | none => true
      | some k => k.wellFormed) = true
    cases Config.lostCalibration with
    | none => rfl
    | some c => exact c.property
  have hreg : Config.shipped.registryExt.all (fun e => e.2.wellFormed) = true := by
    show (Config.lostRegistry.map (fun e => (e.1, e.2.val))).all (fun e => e.2.wellFormed) = true
    rw [List.all_eq_true]
    intro e he
    obtain ⟨x, -, rfl⟩ := List.mem_map.mp he
    exact x.2.property
  have hhead : Config.shipped.headerWellFormed = true := rfl
  rw [Config.wellFormed, hhead, hreg]
  exact hcal

/-- The three parts of 00_scope R9. -/
theorem Config.wellFormed_parts {c : Config} (h : c.wellFormed = true) :
    c.headerWellFormed = true ∧ (∀ e ∈ c.registryExt, e.2.wellFormed = true) ∧
    (∀ k, c.calibration = some k → k.wellFormed = true) := by
  simp only [Config.wellFormed, Bool.and_eq_true] at h
  refine ⟨h.1.1, fun e he => List.all_eq_true.mp h.1.2 e he, fun k hk => ?_⟩
  have := h.2
  rwa [hk] at this

/-- 00_scope R9 for the three header fields, in numbers. -/
theorem Config.header_bounds {c : Config} (h : c.wellFormed = true) :
    c.commandOff < 126 ∧ c.versionOff < 126 ∧ c.dataFlagsOff + 2 ≤ 126 ∧ c.commandOff ≠ c.versionOff ∧
    (c.commandOff < c.dataFlagsOff ∨ c.dataFlagsOff + 2 ≤ c.commandOff) ∧
    (c.versionOff < c.dataFlagsOff ∨ c.dataFlagsOff + 2 ≤ c.versionOff) := by
  have := (Config.wellFormed_parts h).1
  simp only [Config.headerWellFormed, rangesDisjoint, Bool.and_eq_true, decide_eq_true_eq] at this
  omega

end Sys2Proof

namespace Sys2Proof.Machine

/-- Every registered field lies in the frame and has a length its kind allows (00_scope R9). -/
theorem desc_in_frame {c : Config} {fid : Byte} {d : Descriptor} (hc : c.wellFormed = true)
    (h : desc c fid = some d) : d.offset + d.length ≤ 128 ∧ d.kind.lengthOk d.length = true := by
  have hb := Config.header_bounds hc
  obtain ⟨-, hr, hk⟩ := Config.wellFormed_parts hc
  unfold desc at h
  split at h
  · rename_i e he
    cases h
    unfold fixedField at he
    split_ifs at he <;> cases he <;> simp [Kind.lengthOk, cksumOff] <;> omega
  · split at h
    · rename_i e he
      cases h
      unfold calibrationField at he
      split at he
      · cases he
      · rename_i k hck
        have := hk k hck
        simp only [Calibration.wellFormed, Bool.and_eq_true, decide_eq_true_eq] at this
        split_ifs at he <;> cases he <;> exact ⟨this.1.2, this.2⟩
    · have := hr _ (assoc_mem h)
      simp only [Descriptor.wellFormed, Bool.and_eq_true, decide_eq_true_eq] at this
      exact this

/-- The probe-temperature ids name temperature fields of REGISTRY_EXT (45_host_session R250, 30_encoding R85). -/
theorem probeIds_registered {c : Config} {ids : Byte × Byte} (h : probeIds c = some ids) :
    ∀ fid, fid = ids.1 ∨ fid = ids.2 →
      ∃ d, (fid, d) ∈ c.registryExt ∧ desc c fid = some d ∧ d.kind = .temperature := by
  have key : ∀ fid, registeredTemperature c fid = true →
      ∃ d, (fid, d) ∈ c.registryExt ∧ desc c fid = some d ∧ d.kind = .temperature := by
    intro fid hf
    unfold registeredTemperature at hf
    split at hf
    · cases hf
    · rename_i d hd
      simp only [Bool.and_eq_true, beq_iff_eq] at hf
      exact ⟨d, assoc_mem hd, hf.1, hf.2⟩
  unfold probeIds at h
  split at h
  · rename_i hp
    cases h
    rw [Bool.and_eq_true] at hp
    rintro fid (rfl | rfl)
    · exact key _ hp.1
    · exact key _ hp.2
  · cases h

/-- The length of a field of an encodable kind (40_codec R130). -/
theorem encodable_length {k : Kind} {n : Nat} (hk : encodable k = true) (hn : k.lengthOk n = true) :
    k = .byte ∧ n = 1 ∨ k = .word ∧ n = 2 ∨ k = .integer ∧ n = 4 := by
  cases k <;> simp_all [encodable, Kind.lengthOk]

/-- The unsealed frame of a command (42_frame R172): it is canonical, and each of its bytes. -/
theorem commandBytes_ok {c : Config} (arg : Byte) (hc : c.wellFormed = true) :
    ∃ m, commandBytes c arg = .ok m ∧ m.wf = true ∧
      ∀ a, a < 128 → m.read a = some (if a = c.commandOff then arg else if a = c.versionOff then 1 else 0) := by
  have hb := Config.header_bounds hc
  obtain ⟨m1, h1⟩ := Memory.writeRange_isSome .blank c.commandOff [arg] (by simp; omega)
  obtain ⟨m2, h2⟩ := Memory.writeRange_isSome m1 c.versionOff [versionValue] (by simp; omega)
  obtain ⟨-, w1, r1⟩ := Memory.writeRange_spec _ _ _ _ h1
  obtain ⟨-, w2, r2⟩ := Memory.writeRange_spec _ _ _ _ h2
  have hw1 := w1 Memory.blank_wf
  refine ⟨m2, by rw [commandBytes, h1]; simp only [h2], w2 hw1, fun a ha => ?_⟩
  have hf : a < frameLen := ha
  rw [r2 hw1, r1 Memory.blank_wf, Memory.read_blank a hf]
  simp only [List.length_singleton, hf, if_true]
  rcases (by omega : a = c.commandOff ∨ a = c.versionOff ∨ (a ≠ c.commandOff ∧ a ≠ c.versionOff)) with e | e | ⟨e, e'⟩
  · rw [if_neg (by omega), if_pos (by omega), if_pos e, e, Nat.sub_self]; rfl
  · rw [if_pos (by omega), if_neg (by omega), if_pos e, e, Nat.sub_self]; rfl
  · rw [if_neg (by omega), if_neg (by omega), if_neg e, if_neg e']

end Sys2Proof.Machine
end

