-- ==== Sys2Proof/Laws/Crc.lean ====
section
/-! SUPPORT. Laws of the CRC (41_crc): one byte step at a time, and that a step loses nothing of the register or of the
byte. -/

namespace Sys2Proof.Machine

/-- The register after two sequences, one after the other. -/
theorem crcRegister_append (r : Half) (xs ys : List Byte) :
    crcRegister r (xs ++ ys) = crcRegister (crcRegister r xs) ys := List.foldl_append

@[simp] theorem crcRegister_nil (r : Half) : crcRegister r [] = r := rfl

@[simp] theorem crcRegister_cons (r : Half) (b : Byte) (bs : List Byte) :
    crcRegister r (b :: bs) = crcRegister (crcByte r b) bs := rfl

/-- Complementing the checksum gives the register back (41_crc R152). -/
theorem not_crc16 (init : Half) (bs : List Byte) : ~~~ (crc16 init bs) = crcRegister init bs := by simp [crc16]

/-! ### A step with the byte folded into the register -/

theorem setWidth_ushiftRight_one (b : Byte) : ((b >>> 1).setWidth 16 : Half) = b.setWidth 16 >>> 1 := by
  refine BitVec.eq_of_getLsbD_eq (fun i hi => ?_)
  simp only [BitVec.getLsbD_setWidth, BitVec.getLsbD_ushiftRight, hi, decide_true, Bool.true_and]
  by_cases h : 1 + i < 16
  · simp [h]
  · rw [BitVec.getLsbD_of_ge _ _ (by omega)]
    simp [h]

theorem crcBit_fold (r : Half) (b : Byte) :
    (crcBit (r ^^^ b.setWidth 16) 0).1 = (crcBit r b).1 ^^^ (b >>> 1).setWidth 16 := by
  unfold crcBit
  rw [setWidth_ushiftRight_one, show ((0 : Byte).setWidth 16 : Half) = 0#16 from rfl, BitVec.xor_zero]
  by_cases h : (r ^^^ b.setWidth 16) &&& 1 = 1
  · rw [if_pos h, if_pos h, BitVec.ushiftRight_xor_distrib]
    show _ ^^^ _ = (_ ^^^ _) ^^^ _
    ac_rfl
  · rw [if_neg h, if_neg h, BitVec.ushiftRight_xor_distrib]

theorem crcBits_succ (n : Nat) (r : Half) (b : Byte) :
    crcBits (n + 1) (r, b) = crcBits n ((crcBit r b).1, b >>> 1) := rfl

theorem crcBits_succ_zero (n : Nat) (r : Half) : crcBits (n + 1) (r, 0) = crcBits n ((crcBit r 0).1, 0) := by
  rw [crcBits_succ, show (0 : Byte) >>> 1 = 0 from by decide]

theorem crcBits_fold (n : Nat) (r : Half) (b : Byte) :
    (crcBits n (r ^^^ b.setWidth 16, 0)).1 = (crcBits n (r, b)).1 ^^^ (b >>> n).setWidth 16 := by
  induction n generalizing r b with
  | zero => simp [crcBits]
  | succ n ih =>
    rw [crcBits_succ_zero, crcBits_succ, crcBit_fold, ih, ← BitVec.shiftRight_add, Nat.add_comm]

/-- A byte step is a step of eight zero bits on the register with the byte folded in. -/
theorem crcByte_fold (r : Half) (b : Byte) : crcByte r b = (crcBits 8 (r ^^^ b.setWidth 16, 0)).1 := by
  rw [crcBits_fold, show b >>> 8 = 0#8 from BitVec.ushiftRight_eq_zero (by omega)]
  exact (BitVec.xor_zero).symm

/-! ### A step loses nothing -/

theorem and_one_eq_one (r : Half) : r &&& 1 = 1 ↔ r.getLsbD 0 = true := by
  constructor
  · intro h
    have := congrArg (fun x => BitVec.getLsbD x 0) h
    simpa using this
  · intro h
    refine BitVec.eq_of_getLsbD_eq (fun i hi => ?_)
    cases i with
    | zero => simpa using h
    | succ i => simp [BitVec.getLsbD_one]

/-- A step of a zero bit: bit 0 decides whether the polynomial is applied (41_crc R150). -/
theorem crcBit_zero (r : Half) : (crcBit r 0).1 = if r.getLsbD 0 = true then (r >>> 1) ^^^ crcPolyR else r >>> 1 := by
  unfold crcBit
  rw [show ((0 : Byte).setWidth 16 : Half) = 0#16 from rfl, BitVec.xor_zero]
  simp only [and_one_eq_one]

/-- Bit 15 of a shifted register says whether the polynomial was applied. -/
theorem crcBit_top (r : Half) : (crcBit r 0).1.getLsbD 15 = r.getLsbD 0 := by
  rw [crcBit_zero]
  split
  · rename_i h; rw [h]; simp [crcPolyR]
  · rename_i h; rw [Bool.not_eq_true] at h; rw [h]; simp

theorem crcBit_undo (r : Half) : r >>> 1 = (crcBit r 0).1 ^^^ (if r.getLsbD 0 then crcPolyR else 0) := by
  rw [crcBit_zero]
  split
  · rw [BitVec.xor_assoc, BitVec.xor_self, BitVec.xor_zero]
  · exact BitVec.xor_zero.symm

theorem crcBit_injective {r r' : Half} (h : (crcBit r 0).1 = (crcBit r' 0).1) : r = r' := by
  have h0 : r.getLsbD 0 = r'.getLsbD 0 := by rw [← crcBit_top, ← crcBit_top, h]
  have h1 : r >>> 1 = r' >>> 1 := by rw [crcBit_undo, crcBit_undo r', h, h0]
  refine BitVec.eq_of_getLsbD_eq (fun i _ => ?_)
  cases i with
  | zero => exact h0
  | succ i =>
    have := congrArg (fun x => BitVec.getLsbD x i) h1
    simpa [Nat.add_comm] using this

theorem crcBits_injective (n : Nat) {r r' : Half} (h : (crcBits n (r, 0)).1 = (crcBits n (r', 0)).1) : r = r' := by
  induction n generalizing r r' with
  | zero => exact h
  | succ n ih =>
    rw [crcBits_succ_zero, crcBits_succ_zero] at h
    exact crcBit_injective (ih h)

/-- Distinct registers stay distinct over the same byte. -/
theorem crcByte_register_injective {r r' : Half} (b : Byte) (h : crcByte r b = crcByte r' b) : r = r' := by
  rw [crcByte_fold, crcByte_fold r'] at h
  have := congrArg (fun x => x ^^^ b.setWidth 16) (crcBits_injective 8 h)
  simpa [BitVec.xor_assoc] using this

/-- Distinct bytes take a register to distinct registers. -/
theorem crcByte_byte_injective (r : Half) {b b' : Byte} (h : crcByte r b = crcByte r b') : b = b' := by
  rw [crcByte_fold, crcByte_fold r b'] at h
  have h1 := congrArg (fun x => r ^^^ x) (crcBits_injective 8 h)
  simp only [← BitVec.xor_assoc, BitVec.xor_self, BitVec.zero_xor] at h1
  have h2 := congrArg (BitVec.setWidth 8) h1
  simpa using h2

end Sys2Proof.Machine
end

