-- ==== Sys2Proof/Laws/Encoding.lean ====
section
/-! SUPPORT. The fields of a built command word (30_encoding R101) and what each part of the decoder can answer (R109). -/

namespace Sys2Proof

@[simp] theorem commandWord_opcode (arg fid : Byte) (sel : BitVec 1) (op : Byte) :
    (commandWord arg fid sel op).extractLsb' 0 8 = op := by
  unfold commandWord
  ext i hi
  simp only [BitVec.getElem_extractLsb', Nat.zero_add, BitVec.getLsbD_append]
  simp [hi]

@[simp] theorem commandWord_sel (arg fid : Byte) (sel : BitVec 1) (op : Byte) :
    (commandWord arg fid sel op).extractLsb' 8 1 = sel := by
  unfold commandWord
  ext i hi
  simp only [BitVec.getElem_extractLsb', BitVec.getLsbD_append]
  rw [if_neg (by omega), if_pos (by omega)]
  rw [show 8 + i - 8 = i by omega, BitVec.getLsbD_eq_getElem hi]

@[simp] theorem commandWord_rsv (arg fid : Byte) (sel : BitVec 1) (op : Byte) :
    (commandWord arg fid sel op).extractLsb' 9 7 = 0 := by
  unfold commandWord
  ext i hi
  simp only [BitVec.getElem_extractLsb', BitVec.getLsbD_append]
  rw [if_neg (by omega), if_neg (by omega), if_pos (by omega)]
  simp

@[simp] theorem commandWord_fid (arg fid : Byte) (sel : BitVec 1) (op : Byte) :
    (commandWord arg fid sel op).extractLsb' 16 8 = fid := by
  unfold commandWord
  ext i hi
  simp only [BitVec.getElem_extractLsb', BitVec.getLsbD_append]
  rw [if_neg (by omega), if_neg (by omega), if_neg (by omega), if_pos (by omega)]
  rw [show 16 + i - 8 - 1 - 7 = i by omega, BitVec.getLsbD_eq_getElem hi]

@[simp] theorem commandWord_arg (arg fid : Byte) (sel : BitVec 1) (op : Byte) :
    (commandWord arg fid sel op).extractLsb' 24 8 = arg := by
  unfold commandWord
  ext i hi
  simp only [BitVec.getElem_extractLsb', BitVec.getLsbD_append]
  rw [if_neg (by omega), if_neg (by omega), if_neg (by omega), if_neg (by omega)]
  rw [show 24 + i - 8 - 1 - 7 - 8 = i by omega, BitVec.getLsbD_eq_getElem hi]

/-- A command word is its five fields. -/
theorem word_eq_commandWord (w : Word) (h : w.extractLsb' 9 7 = 0) :
    w = commandWord (w.extractLsb' 24 8) (w.extractLsb' 16 8) (w.extractLsb' 8 1) (w.extractLsb' 0 8) := by
  unfold commandWord
  rw [← h]
  refine BitVec.eq_of_getLsbD_eq (fun i hi => ?_)
  simp only [BitVec.getLsbD_append, BitVec.getLsbD_extractLsb']
  rcases (by omega : i < 8 ∨ i = 8 ∨ (9 ≤ i ∧ i < 16) ∨ (16 ≤ i ∧ i < 24) ∨ 24 ≤ i) with c | c | c | c | c
  · rw [if_pos c]; simp [c]
  · subst c; simp
  · rw [if_neg (by omega), if_neg (by omega), if_pos (by omega), show 9 + (i - 8 - 1) = i by omega]
    simp; omega
  · rw [if_neg (by omega), if_neg (by omega), if_neg (by omega), if_pos (by omega),
      show 16 + (i - 8 - 1 - 7) = i by omega]
    simp; omega
  · rw [if_neg (by omega), if_neg (by omega), if_neg (by omega), if_neg (by omega),
      show 24 + (i - 8 - 1 - 7 - 8) = i by omega]
    simp; omega

/-- SEL as a bit and back (30_encoding R105). -/
@[simp] theorem FrameSel.ofBit_bit (s : FrameSel) : FrameSel.ofBit s.bit = s := by cases s <;> rfl

/-- SEL from a bit and back. -/
@[simp] theorem FrameSel.bit_ofBit (b : BitVec 1) : (FrameSel.ofBit b).bit = b := by
  obtain rfl | rfl : b = 0 ∨ b = 1 := by revert b; decide
  all_goals rfl

/-- LOOP as an ARG and back (43_rx_resync R210). -/
@[simp] theorem RxMode.ofArg_arg (m : RxMode) : RxMode.ofArg m.arg = m := by cases m <;> rfl

/-- A command's code and back (30_encoding R87). -/
@[simp] theorem Command.ofCode_code (c : Command) : Command.ofCode? c.code = some c := by cases c <;> rfl

/-! ### The parts of the decoder (30_encoding R109) -/

/-- A `require` line that passes answers its instruction. -/
theorem requireZero_ok {b : Bool} {i j : Instr} (h : requireZero b i = .ok j) : b = true ∧ j = i := by
  cases b with
  | true => exact ⟨rfl, by cases h; rfl⟩
  | false => cases h

/-- A `require` line passes exactly when its condition holds. -/
theorem requireZero_isOk {b : Bool} {i : Instr} : (∃ j, requireZero b i = .ok j) ↔ b = true := by
  cases b with
  | true => exact ⟨fun _ => rfl, fun _ => ⟨i, rfl⟩⟩
  | false => exact ⟨fun ⟨_, h⟩ => (nomatch h), fun h => (nomatch h)⟩

/-- One line of the `match op`: this opcode's answer, or the answer of the lines below. -/
theorem line_ok {c : Prop} [Decidable c] {a b : Except DecodeError Instr} {j : Instr}
    (h : (if c then a else b) = .ok j) : (c ∧ a = .ok j) ∨ (¬c ∧ b = .ok j) := by
  by_cases hc : c
  · exact .inl ⟨hc, by rwa [if_pos hc] at h⟩
  · exact .inr ⟨hc, by rwa [if_neg hc] at h⟩

/-- The last two lines: VALUE only with FIELD_SET, PAYLOAD only with the three operations that take one. -/
theorem checkBeside_ok {o : Operation} {i j : Instr} :
    o.checkBeside i = .ok j ↔
      j = i ∧ (o.opcode = 0x13 ∨ o.value = 0) ∧
        (o.opcode = 0x10 ∨ o.opcode = 0x14 ∨ o.opcode = 0x21 ∨ o.payload = []) := by
  unfold Operation.checkBeside
  split
  · rename_i h
    exact ⟨fun h' => (nomatch h'), fun h' => by tauto⟩
  · rename_i h
    split
    · rename_i g
      exact ⟨fun h' => (nomatch h'), fun h' => by tauto⟩
    · rename_i g
      exact ⟨fun h' => ⟨by cases h'; rfl, by tauto, by tauto⟩, fun h' => by rw [h'.1]⟩

/-- What decodes: RSV is 0, the opcode's line passes, and nothing unused stands beside the word. -/
theorem decodeOperation_ok {o : Operation} {i : Instr} :
    decodeOperation o = .ok i ↔
      o.rsv = 0 ∧ o.select = .ok i ∧ (o.opcode = 0x13 ∨ o.value = 0) ∧
        (o.opcode = 0x10 ∨ o.opcode = 0x14 ∨ o.opcode = 0x21 ∨ o.payload = []) := by
  unfold decodeOperation
  by_cases hr : o.rsv = 0
  · rw [if_neg (not_not.mpr hr)]
    cases hs : o.select with
    | error e => exact ⟨fun h => (nomatch h), fun h => (nomatch h.2.1)⟩
    | ok j =>
      show o.checkBeside j = .ok i ↔ _
      rw [checkBeside_ok]
      exact ⟨fun h => ⟨hr, by rw [h.1], h.2⟩, fun h => ⟨(Except.ok.inj h.2.1).symm, h.2.2⟩⟩
  · rw [if_pos hr]
    exact ⟨fun h => (nomatch h), fun h => absurd h.1 hr⟩

/-- No operation decodes to a wire command. -/
theorem decodeOperation_not_wire {o : Operation} {i : Instr} (h : decodeOperation o = .ok i) (c : Command) :
    i ≠ c.instr := by
  have hs := (decodeOperation_ok.mp h).2.1
  unfold Operation.select at hs
  dsimp only at hs
  iterate 15
    rcases line_ok hs with ⟨-, hs⟩ | ⟨-, hs⟩
    · obtain ⟨-, rfl⟩ := requireZero_ok hs
      cases c <;> exact fun h => by cases h
  cases hs

/-- A COMMAND byte decodes exactly when it is the code of a command. -/
theorem decodeWire_ok {code : Byte} {i : Instr} (h : decodeWire code = .ok i) :
    ∃ c : Command, code = c.code ∧ i = c.instr := by
  unfold decodeWire at h
  split at h
  · rename_i c hc
    refine ⟨c, ?_, (Except.ok.inj h).symm⟩
    unfold Command.ofCode? at hc
    split_ifs at hc with h0 h1 h2 h3 h5 <;> cases hc <;> assumption
  · cases h

end Sys2Proof
end

