-- ==== Sys2Proof/Laws/Exec.lean ====
section
/-! SUPPORT. What each meaning with more than one path can answer, each said once: the error it raised, or the state its
effect leaves. -/

namespace Sys2Proof.Machine

theorem execFrameLoadRaw_next {sel : FrameSel} {p : List Byte} {s t : State} (h : execFrameLoadRaw sel p s = .next t) :
    (p.length ≠ 128 ∧ t = raised .sizeMismatch (cappedWord p.length) s) ∨
    (p.length = 128 ∧ t = { s.putFrame sel (Memory.ofBytes p) with response := some {} }) := by
  unfold execFrameLoadRaw at h
  split at h
  · rename_i hp; exact .inl ⟨hp, raise_next h⟩
  · rename_i hp; exact .inr ⟨not_not.mp hp, respond_next h⟩

theorem execFrameFromCommand_next {sel : FrameSel} {arg : Byte} {s t : State}
    (h : execFrameFromCommand sel arg s = .next t) :
    (Command.ofCode? arg = none ∧ t = raised .invalidCommand (arg.setWidth 32) s) ∨
    (∃ c m, Command.ofCode? arg = some c ∧ commandBytes s.config arg = .ok m ∧
      t = { s.putFrame sel (storeChecksum s.config.crcInit m) with response := some {} }) := by
  unfold execFrameFromCommand at h
  split at h
  · rename_i hc; exact .inl ⟨hc, raise_next h⟩
  · rename_i c hc
    split at h
    · cases h
    · rename_i m hm; exact .inr ⟨c, m, hc, hm, respond_next h⟩

/-- The memory of a command frame is canonical, whatever the configuration. -/
theorem commandBytes_wf {c : Config} {arg : Byte} {m : Memory} (h : commandBytes c arg = .ok m) : m.wf = true := by
  unfold commandBytes at h
  split at h
  · cases h
  · rename_i m1 h1
    split at h
    · cases h
    · rename_i m2 h2
      cases h
      exact (Memory.writeRange_spec _ _ _ _ h2).2.1 ((Memory.writeRange_spec _ _ _ _ h1).2.1 Memory.blank_wf)

theorem execFieldGet_next {sel : FrameSel} {fid : Byte} {s t : State} (h : execFieldGet sel fid s = .next t) :
    (s.present sel = false ∧ t = raised .noFrame (selWord sel) s) ∨
    (s.present sel = true ∧ desc s.config fid = none ∧ t = raised .unknownField (fid.setWidth 32) s) ∨
    (∃ d bs, s.present sel = true ∧ desc s.config fid = some d ∧
      (s.frame sel).readRange d.offset d.length = some bs ∧ t = { s with response := some (fieldResponse d.kind bs) }) := by
  rcases withFrame_next h with ⟨hp, h⟩ | ⟨hp, ht⟩
  · split at h
    · rename_i hd; exact .inr (.inl ⟨hp, hd, raise_next h⟩)
    · rename_i d hd
      split at h
      · cases h
      · rename_i bs hb; exact .inr (.inr ⟨d, bs, hp, hd, hb, respond_next h⟩)
  · exact .inl ⟨hp, ht⟩

theorem execFieldSet_next {sel : FrameSel} {fid : Byte} {v : Word} {s t : State}
    (h : execFieldSet sel fid v s = .next t) :
    (s.present sel = false ∧ t = raised .noFrame (selWord sel) s) ∨
    (s.present sel = true ∧ desc s.config fid = none ∧ t = raised .unknownField (fid.setWidth 32) s) ∨
    (∃ d, s.present sel = true ∧ desc s.config fid = some d ∧ encodable d.kind = false ∧
      t = raised .unsupportedEncode (fid.setWidth 32) s) ∨
    (∃ d, s.present sel = true ∧ desc s.config fid = some d ∧ encodable d.kind = true ∧ fitsBytes v d.length = false ∧
      t = raised .valueRange v s) ∨
    (∃ d m, s.present sel = true ∧ desc s.config fid = some d ∧ encodable d.kind = true ∧ fitsBytes v d.length = true ∧
      (s.frame sel).writeRange d.offset (leBytes d.length v) = some m ∧
      t = { s.setFrame sel (storeChecksum s.config.crcInit m) with response := some {} }) := by
  rcases withFrame_next h with ⟨hp, h⟩ | ⟨hp, ht⟩
  · split at h
    · rename_i hd; exact .inr (.inl ⟨hp, hd, raise_next h⟩)
    · rename_i d hd
      split at h
      · rename_i he; exact .inr (.inr (.inl ⟨d, hp, hd, he, raise_next h⟩))
      · rename_i he
        rw [Bool.not_eq_false] at he
        split at h
        · rename_i hf; exact .inr (.inr (.inr (.inl ⟨d, hp, hd, he, hf, raise_next h⟩)))
        · rename_i hf
          rw [Bool.not_eq_false] at hf
          obtain ⟨m, hm, h⟩ := sealedWrite_next h
          exact .inr (.inr (.inr (.inr ⟨d, m, hp, hd, he, hf, hm, respond_next h⟩)))
  · exact .inl ⟨hp, ht⟩

theorem execSetDataFlags_next {sel : FrameSel} {fids : List Byte} {s t : State}
    (h : execSetDataFlags sel fids s = .next t) :
    (s.present sel = false ∧ t = raised .noFrame (selWord sel) s) ∨
    (∃ f, s.present sel = true ∧ dataFlagsMask s.config 0 fids = .error f ∧
      t = raised .unknownField (f.setWidth 32) s) ∨
    (∃ mask m, s.present sel = true ∧ dataFlagsMask s.config 0 fids = .ok mask ∧
      (s.frame sel).writeRange s.config.dataFlagsOff (leBytes 2 (mask.setWidth 32)) = some m ∧
      t =
        { s.setFrame sel (storeChecksum s.config.crcInit m) with
          response := some { rvalue := mask.setWidth 32 } }) := by
  rcases withFrame_next h with ⟨hp, h⟩ | ⟨hp, ht⟩
  · split at h
    · rename_i f hf; exact .inr (.inl ⟨f, hp, hf, raise_next h⟩)
    · rename_i mask hm
      obtain ⟨m, hw, h⟩ := sealedWrite_next h
      exact .inr (.inr ⟨mask, m, hp, hm, hw, respond_next h⟩)
  · exact .inl ⟨hp, ht⟩

theorem execIsValid_next {sel : FrameSel} {s t : State} (h : execIsValid sel s = .next t) :
    (s.present sel = false ∧ t = raised .noFrame (selWord sel) s) ∨
    (s.present sel = true ∧
      t =
        { s with
          response := some { rvalue := if validFrame s.config.crcInit (s.frame sel).bytes then 1 else 0 } }) := by
  rcases withFrame_next h with ⟨hp, h⟩ | ⟨hp, ht⟩
  · exact .inr ⟨hp, respond_next h⟩
  · exact .inl ⟨hp, ht⟩

theorem execFrameCrc_next {sel : FrameSel} {s t : State} (h : execFrameCrc sel s = .next t) :
    (s.present sel = false ∧ t = raised .noFrame (selWord sel) s) ∨
    (s.present sel = true ∧
      t =
        { s with
          response := some { rvalue := (frameCrcOf s.config.crcInit (s.frame sel).bytes).setWidth 32 } }) := by
  rcases withFrame_next h with ⟨hp, h⟩ | ⟨hp, ht⟩
  · exact .inr ⟨hp, respond_next h⟩
  · exact .inl ⟨hp, ht⟩

theorem execSerialize_next {sel : FrameSel} {s t : State} (h : execSerialize sel s = .next t) :
    (s.present sel = false ∧ t = raised .noFrame (selWord sel) s) ∨
    (s.present sel = true ∧ t = { s with response := some { rbytes := (s.frame sel).bytes } }) := by
  rcases withFrame_next h with ⟨hp, h⟩ | ⟨hp, ht⟩
  · exact .inr ⟨hp, respond_next h⟩
  · exact .inl ⟨hp, ht⟩

theorem execRxAppend_next {p : List Byte} {s t : State} (h : execRxAppend p s = .next t) :
    (s.done = true ∧ t = raised .rxDone 0 s) ∨
    (s.done = false ∧ rxbufCap < s.rxbuf.length + p.length ∧
      t = raised .rxOverflow (cappedWord (s.rxbuf.length + p.length)) s) ∨
    (s.done = false ∧ s.rxbuf.length + p.length ≤ rxbufCap ∧
      t =
        { s with
          rxbuf := s.rxbuf ++ p
          response := some { rvalue := BitVec.ofNat 32 (s.rxbuf.length + p.length) } }) := by
  unfold execRxAppend at h
  split at h
  · rename_i hd; exact .inl ⟨hd, raise_next h⟩
  · rename_i hd
    rw [Bool.not_eq_true] at hd
    split at h
    · rename_i hl; exact .inr (.inl ⟨hd, hl, raise_next h⟩)
    · rename_i hl; exact .inr (.inr ⟨hd, Nat.not_lt.mp hl, respond_next h⟩)

/-- The state a pass leaves (43_rx_resync R212, R213). -/
def scanned (s : State) : State :=
  { s.receiveLast (scanPass s.config.crcInit s.rxbuf).delivered with
    rxbuf := (scanPass s.config.crcInit s.rxbuf).rest
    found := !(scanPass s.config.crcInit s.rxbuf).delivered.isEmpty
    done := !s.loopMode && !(scanPass s.config.crcInit s.rxbuf).delivered.isEmpty
    response :=
      some
        { rvalue := BitVec.ofNat 32 (scanPass s.config.crcInit s.rxbuf).discarded
          rflags :=
            scanFlags (!(scanPass s.config.crcInit s.rxbuf).delivered.isEmpty)
              (!s.loopMode && !(scanPass s.config.crcInit s.rxbuf).delivered.isEmpty)
          rframes := (scanPass s.config.crcInit s.rxbuf).delivered } }

/-- A pass of a running receiver. -/
theorem execRxScan_running {s : State} (h : s.done = false) : execRxScan s = .next (scanned s) := by
  unfold execRxScan
  rw [h]
  rfl

theorem execRxScan_next {s t : State} (h : execRxScan s = .next t) :
    (s.done = true ∧ t = raised .rxDone 0 s) ∨ (s.done = false ∧ t = scanned s) := by
  cases hd : s.done with
  | true =>
    unfold execRxScan at h
    rw [if_pos hd] at h
    exact .inl ⟨rfl, raise_next h⟩
  | false =>
    rw [execRxScan_running hd] at h
    cases h
    exact .inr ⟨rfl, rfl⟩

end Sys2Proof.Machine
end

