-- ==== Sys2Proof/Laws/PerInstr.lean ====
section
/-! SUPPORT. A statement for all instructions, made one instruction at a time: the encoding of every instruction, whatever
its operands, has the fixed bits of its row of spec/opcode_table.json. -/

namespace Sys2Proof.Laws.EncodingMatchesTable

/-- The row of spec/opcode_table.json: its match, and the mask of its fixed bits. A row of a wire command is its code. -/
def row : Instr → Word × Word
  | .crcInit => (0x00000001, 0xFFFFFFFF)
  | .crcFeed _ => (0x00000002, 0x00FFFFFF)
  | .crcRead => (0x00000003, 0xFFFFFFFF)
  | .frameLoadRaw _ _ => (0x00000010, 0xFFFFFEFF)
  | .frameFromCommand _ _ => (0x00000011, 0x00FFFEFF)
  | .fieldGet _ _ => (0x00000012, 0xFF00FEFF)
  | .fieldSet _ _ _ => (0x00000013, 0xFF00FEFF)
  | .setDataFlags _ _ => (0x00000014, 0xFFFFFEFF)
  | .isValid _ => (0x00000015, 0xFFFFFEFF)
  | .frameCrc _ => (0x00000016, 0xFFFFFEFF)
  | .serialize _ => (0x00000017, 0xFFFFFEFF)
  | .rxStart _ => (0x00000020, 0xFEFFFFFF)
  | .rxAppend _ => (0x00000021, 0xFFFFFFFF)
  | .rxScan => (0x00000022, 0xFFFFFFFF)
  | .statusRead => (0x00000030, 0xFFFFFFFF)
  | .cmdNothing => (0x00, 0xFF)
  | .cmdGet => (0x01, 0xFF)
  | .cmdSet => (0x02, 0xFF)
  | .cmdButton => (0x03, 0xFF)
  | .cmdShutdown => (0x05, 0xFF)

/-- The bits that carry the instruction. -/
def carrier : Encoded → Word
  | .operation o => o.word
  | .wire code => code.setWidth 32

/-- The encoding of an instruction has its row's fixed bits. -/
def Statement (i : Instr) : Prop := carrier (encode i) &&& (row i).2 = (row i).1

theorem crcInit : Statement .crcInit := by unfold Statement; decide +kernel
theorem crcFeed (b : Byte) : Statement (.crcFeed b) := by unfold Statement; revert b; decide +kernel
theorem crcRead : Statement .crcRead := by unfold Statement; decide +kernel
theorem frameLoadRaw (sel : FrameSel) (payload : List Byte) : Statement (.frameLoadRaw sel payload) := by
  show commandWord 0 0 sel.bit 0x10 &&& 0xFFFFFEFF = 0x00000010
  cases sel <;> decide +kernel
theorem frameFromCommand (sel : FrameSel) (arg : Byte) : Statement (.frameFromCommand sel arg) := by
  show commandWord arg 0 sel.bit 0x11 &&& 0x00FFFEFF = 0x00000011
  cases sel <;> revert arg <;> decide +kernel
theorem fieldGet (sel : FrameSel) (fid : Byte) : Statement (.fieldGet sel fid) := by
  show commandWord 0 fid sel.bit 0x12 &&& 0xFF00FEFF = 0x00000012
  cases sel <;> revert fid <;> decide +kernel
theorem fieldSet (sel : FrameSel) (fid : Byte) (value : Word) : Statement (.fieldSet sel fid value) := by
  show commandWord 0 fid sel.bit 0x13 &&& 0xFF00FEFF = 0x00000013
  cases sel <;> revert fid <;> decide +kernel
theorem setDataFlags (sel : FrameSel) (fids : List Byte) : Statement (.setDataFlags sel fids) := by
  show commandWord 0 0 sel.bit 0x14 &&& 0xFFFFFEFF = 0x00000014
  cases sel <;> decide +kernel
theorem isValid (sel : FrameSel) : Statement (.isValid sel) := by unfold Statement; cases sel <;> decide +kernel
theorem frameCrc (sel : FrameSel) : Statement (.frameCrc sel) := by unfold Statement; cases sel <;> decide +kernel
theorem serialize (sel : FrameSel) : Statement (.serialize sel) := by unfold Statement; cases sel <;> decide +kernel
theorem rxStart (mode : RxMode) : Statement (.rxStart mode) := by unfold Statement; cases mode <;> decide +kernel
theorem rxAppend (payload : List Byte) : Statement (.rxAppend payload) := by
  show commandWord 0 0 0 0x21 &&& 0xFFFFFFFF = 0x00000021
  decide +kernel
theorem rxScan : Statement .rxScan := by unfold Statement; decide +kernel
theorem statusRead : Statement .statusRead := by unfold Statement; decide +kernel
theorem cmdNothing : Statement .cmdNothing := by unfold Statement; decide +kernel
theorem cmdGet : Statement .cmdGet := by unfold Statement; decide +kernel
theorem cmdSet : Statement .cmdSet := by unfold Statement; decide +kernel
theorem cmdButton : Statement .cmdButton := by unfold Statement; decide +kernel
theorem cmdShutdown : Statement .cmdShutdown := by unfold Statement; decide +kernel

end Sys2Proof.Laws.EncodingMatchesTable
end

