-- ==== Sys2Proof/Laws/Step.lean ====
section
/-! SUPPORT. What the command port, an activity's operation, a turn and a step can do, each said once. -/

namespace Sys2Proof.Machine

/-! ### The command port -/

theorem issue_ok {o : Operation} {i : Instr} {s : State} (h : decodeOperation o = .ok i) :
    issue o s = exec i (accept s) := by
  rw [issue, h]

theorem issue_illegal {o : Operation} {e : DecodeError} {s : State} (h : decodeOperation o = .error e) :
    issue o s = .next (raised .illegalOp o.word (accept s)) := by
  rw [issue, h]
  rfl

/-- An operation either decodes and runs, or raises ILLEGAL_OP. -/
theorem issue_next {o : Operation} {s t : State} (h : issue o s = .next t) :
    (∃ i, decodeOperation o = .ok i ∧ exec i (accept s) = .next t) ∨
    (∃ e, decodeOperation o = .error e ∧ t = raised .illegalOp o.word (accept s)) := by
  cases hd : decodeOperation o with
  | ok i => exact .inl ⟨i, rfl, by rwa [issue_ok hd] at h⟩
  | error e => exact .inr ⟨e, rfl, by rw [issue_illegal hd] at h; cases h; rfl⟩

/-- An activity's operation: its continuation on OK, the end of the session on an error (45_host_session R251). -/
theorem issueOrFail_next {o : Operation} {env : Env} {s t : State} {k : Response → State → State}
    (h : issueOrFail o env s k = .next t) :
    ∃ u, issue o s = .next u ∧
      ((∃ r, u.response = some r ∧ r.status = .ok ∧ t = k r u) ∨
       (∃ r e, u.response = some r ∧ r.status = .error e ∧ t = failSession (.status e) env u) ∨
       (u.response = none ∧ t = u)) := by
  unfold issueOrFail at h
  split at h
  · rename_i u hu
    refine ⟨u, hu, ?_⟩
    split at h
    · rename_i r hr
      split at h
      · rename_i hs; cases h; exact .inl ⟨r, hr, hs, rfl⟩
      · rename_i e hs; cases h; exact .inr (.inl ⟨r, e, hr, hs, rfl⟩)
    · rename_i hr; cases h; exact .inr (.inr ⟨hr, rfl⟩)
  · cases h
  · cases h

/-- An activity's operation that ends with status OK goes on with its continuation. -/
theorem issueOrFail_ok {o : Operation} {env : Env} {s u : State} {r : Response} {k : Response → State → State}
    (h : issue o s = .next u) (hr : u.response = some r) (hs : r.status = .ok) :
    issueOrFail o env s k = .next (k r u) := by
  simp only [issueOrFail, h, hr, hs]

/-- An activity's operation stops only where the operation does. -/
theorem issueOrFail_completes {o : Operation} {env : Env} {s : State} {k : Response → State → State}
    (h : ∃ u, issue o s = .next u) : ∃ t, issueOrFail o env s k = .next t := by
  obtain ⟨u, hu⟩ := h
  unfold issueOrFail
  rw [hu]
  dsimp only
  split
  · split
    · exact ⟨_, rfl⟩
    · exact ⟨_, rfl⟩
  · exact ⟨_, rfl⟩

/-! ### Moves that touch only the host's side -/

theorem senderTo_only (s : State) (a : SenderAt) : OnlySession s (s.senderTo a) := rfl
theorem receiverTo_only (s : State) (a : ReceiverAt) : OnlySession s (s.receiverTo a) := rfl
theorem callerTo_only (s : State) (a : CallerAt) : OnlySession s (s.callerTo a) := rfl
theorem startActivities_only (s : State) : OnlySession s (startActivities s) := rfl

theorem dispatchCommand_only {code : Byte} {s t : State} (h : dispatchCommand code s = .next t) : OnlySession s t := by
  unfold dispatchCommand at h
  split at h
  · rename_i i hi
    obtain ⟨c, -, rfl⟩ := decodeWire_ok hi
    cases c <;> (cases h; first | exact dropFrame_only s | exact keepFrame_only s)
  · cases h; exact dropFrame_only s

theorem dispatchCommand_completes (code : Byte) (s : State) : ∃ t, dispatchCommand code s = .next t := by
  unfold dispatchCommand
  split
  · rename_i i hi
    obtain ⟨c, -, rfl⟩ := decodeWire_ok hi
    cases c <;> exact ⟨_, rfl⟩
  · exact ⟨_, rfl⟩

/-! ### A turn -/

/-- What a turn does to everything but the host's side: nothing, or one operation. -/
def TurnEffect (s t : State) : Prop :=
  OnlySession s t ∨ ∃ o u v, OnlySession s u ∧ issue o u = .next v ∧ OnlySession v t

theorem issueOrFail_effect {o : Operation} {env : Env} {s u t : State} {k : Response → State → State}
    (hu : OnlySession s u) (hk : ∀ r v, OnlySession v (k r v)) (h : issueOrFail o env u k = .next t) : TurnEffect s t := by
  obtain ⟨v, hv, h⟩ := issueOrFail_next h
  rcases h with ⟨r, -, -, rfl⟩ | ⟨r, e, -, -, rfl⟩ | ⟨-, rfl⟩
  · exact .inr ⟨o, u, v, hu, hv, hk r v⟩
  · exact .inr ⟨o, u, v, hu, hv, failSession_only _ env v⟩
  · exact .inr ⟨o, u, t, hu, hv, OnlySession.refl t⟩

theorem senderTurn_effect {env : Env} {s t : State} (h : senderTurn env s = .next t) : TurnEffect s t := by
  unfold senderTurn at h
  split at h
  · cases h; exact .inl (OnlySession.refl s)
  · exact issueOrFail_effect (OnlySession.refl s) (fun r v => senderTo_only v _) h
  · cases h; exact .inl (afterWrite_only _ env s)
  · split at h <;> cases h
    · exact .inl (senderTo_only s _)
    · exact .inl (OnlySession.refl _)
  · split at h <;> cases h
    · exact .inl (senderTo_only s _)
    · exact .inl (OnlySession.refl _)
  · cases h; exact .inl rfl
  · split at h <;> cases h
    · exact .inl rfl
    · exact .inl (failSession_only _ env s)

theorem onResponse_effect {w : List Byte} {rest : List (List Byte)} {done : Bool} {env : Env} {s t : State}
    (h : onResponse w rest done env s = .next t) : TurnEffect s t := by
  unfold onResponse at h
  dsimp only at h
  split at h
  · cases h
    exact .inl (OnlySession.trans
      (t := { s with session := { s.session with delivered := s.session.delivered ++ [w] } }) rfl (afterHandler_only env _ _))
  · cases h; exact .inl rfl
  · refine issueOrFail_effect ?_ (fun r v => receiverTo_only v _) h
    exact rfl

theorem decodeNext_effect {f : Byte} {todo : List Byte} {got : List Reading} {rest : List (List Byte)} {done : Bool}
    {env : Env} {s t : State} (h : decodeNext f todo got rest done env s = .next t) : TurnEffect s t := by
  refine issueOrFail_effect (OnlySession.refl s) (fun r v => ?_) h
  split
  · exact failSession_only _ env v
  · exact receiverTo_only v _

theorem receiverTurn_effect {env : Env} {s t : State} (h : receiverTurn env s = .next t) : TurnEffect s t := by
  unfold receiverTurn at h
  split at h
  · cases h; exact .inl (OnlySession.refl s)
  · split at h <;> cases h
    · exact .inl (receiverTo_only s _)
    · exact .inl (failSession_only _ env s)
  · exact issueOrFail_effect (OnlySession.refl s) (fun r v => receiverTo_only v _) h
  · exact issueOrFail_effect (OnlySession.refl s) (fun r v => receiverTo_only v _) h
  · cases h; exact .inl (receiverTo_only s _)
  · exact onResponse_effect h
  · exact issueOrFail_effect (OnlySession.refl s) (fun r v => receiverTo_only v _) h
  · exact .inl (dispatchCommand_only h)
  · cases h; exact .inl (handValues_only _ _ env s)
  · exact decodeNext_effect h
  · split at h <;> cases h
    · exact .inl (receiverTo_only s _)
    · exact .inl (OnlySession.refl _)
  · cases h; exact .inl (OnlySession.refl s)

theorem callerTurn_effect {env : Env} {s t : State} (h : callerTurn env s = .next t) : TurnEffect s t := by
  unfold callerTurn at h
  split at h
  · cases h; exact .inl (OnlySession.refl s)
  · split at h <;> cases h
    · exact .inl rfl
    · exact .inl (OnlySession.trans (t := s.closeHandle) rfl (failSession_only _ env _))
  · exact issueOrFail_effect (OnlySession.refl s) (fun r v => callerTo_only v _) h
  · exact issueOrFail_effect (OnlySession.refl s) (fun r v => callerTo_only v _) h
  · exact issueOrFail_effect (OnlySession.refl s) (fun r v => startActivities_only v) h
  · split at h <;> cases h
    · exact .inl (endSession_only _ env s)
    · exact .inl (OnlySession.refl _)

theorem takeTurn_effect {who : Activity} {env : Env} {s t : State} (h : takeTurn who env s = .next t) :
    TurnEffect s t := by
  cases who
  · exact callerTurn_effect h
  · exact senderTurn_effect h
  · exact receiverTurn_effect h

/-! ### A step -/

theorem step_nil {s : State} (h : s.events = []) : step s = .next s := by
  rw [step, runNext, h]

theorem step_cons {s : State} {e : Event} {rest : List Event} (h : s.events = e :: rest) :
    step s = runEvent e { s with events := rest } := by
  rw [step, runNext, h]

/-- What a step can do: wait, reset the block, or change the host's side around at most one operation. -/
theorem step_cases {s t : State} (h : step s = .next t) :
    (s.events = [] ∧ t = s) ∨
    ∃ e rest, s.events = e :: rest ∧
      ((e = .reset ∧ t = resetBlock { s with events := rest }) ∨
       (e ≠ .reset ∧ TurnEffect { s with events := rest } t)) := by
  cases he : s.events with
  | nil => exact .inl ⟨rfl, by rw [step_nil he] at h; cases h; rfl⟩
  | cons e rest =>
    refine .inr ⟨e, rest, rfl, ?_⟩
    rw [step_cons he] at h
    cases e with
    | operation o =>
      exact .inr ⟨nofun, .inr ⟨o, _, t, OnlySession.refl _, h, OnlySession.refl t⟩⟩
    | reset => cases h; exact .inl ⟨rfl, rfl⟩
    | call c env => cases h; exact .inr ⟨nofun, .inl (startCall_only c env _)⟩
    | turn who env => exact .inr ⟨nofun, takeTurn_effect h⟩

/-- A step stops only where an operation does. -/
theorem step_completes {s : State} (h : ∀ o u, u.config = s.config → ∃ v, issue o u = .next v) :
    ∃ t, step s = .next t := by
  cases he : s.events with
  | nil => exact ⟨s, step_nil he⟩
  | cons e rest =>
    rw [step_cons he]
    cases e with
    | operation o => exact h o _ rfl
    | reset => exact ⟨_, rfl⟩
    | call c env => exact ⟨_, rfl⟩
    | turn who env =>
      cases who
      · show ∃ t, callerTurn env _ = .next t
        unfold callerTurn
        split
        · exact ⟨_, rfl⟩
        · split <;> exact ⟨_, rfl⟩
        · exact issueOrFail_completes (h _ _ rfl)
        · exact issueOrFail_completes (h _ _ rfl)
        · exact issueOrFail_completes (h _ _ rfl)
        · split <;> exact ⟨_, rfl⟩
      · show ∃ t, senderTurn env _ = .next t
        unfold senderTurn
        split
        · exact ⟨_, rfl⟩
        · exact issueOrFail_completes (h _ _ rfl)
        · exact ⟨_, rfl⟩
        · exact ⟨_, rfl⟩
        · exact ⟨_, rfl⟩
        · exact ⟨_, rfl⟩
        · split <;> exact ⟨_, rfl⟩
      · show ∃ t, receiverTurn env _ = .next t
        unfold receiverTurn
        split
        · exact ⟨_, rfl⟩
        · split <;> exact ⟨_, rfl⟩
        · exact issueOrFail_completes (h _ _ rfl)
        · exact issueOrFail_completes (h _ _ rfl)
        · exact ⟨_, rfl⟩
        · unfold onResponse
          dsimp only
          split
          · exact ⟨_, rfl⟩
          · exact ⟨_, rfl⟩
          · exact issueOrFail_completes (h _ _ rfl)
        · exact issueOrFail_completes (h _ _ rfl)
        · exact dispatchCommand_completes _ _
        · exact ⟨_, rfl⟩
        · exact issueOrFail_completes (h _ _ rfl)
        · exact ⟨_, rfl⟩
        · exact ⟨_, rfl⟩

/-! ### Several steps -/

open Sys2Proof.Safety in
theorem runSteps_succ {n : Nat} {s t : State} (h : step s = .next t) : runSteps (n + 1) s = runSteps n t := by
  rw [runSteps, h]

open Sys2Proof.Safety in
theorem runSteps_add {m n : Nat} {s t : State} (h : runSteps m s = .next t) : runSteps (m + n) s = runSteps n t := by
  induction m generalizing s with
  | zero => cases h; rw [Nat.zero_add]
  | succ m ih =>
    rw [show m + 1 + n = (m + n) + 1 by omega]
    rw [runSteps] at h ⊢
    split at h
    · exact ih h
    · cases h
    · cases h

end Sys2Proof.Machine
end

