-- ==== Sys2Proof/Tests/Slice0.lean ====
section
/-! SUPPORT. Tests on the vectors of spec/95_test_vectors.md, the smoke tests of every well-formedness check, a decoded word
for every constructor, and a witness for the premises of every statement. -/

namespace Sys2Proof.Tests

open Sys2Proof.Machine Sys2Proof.Safety

set_option maxRecDepth 100000
set_option Elab.async false

/-! ## The test configuration and frames of 95_test_vectors section 0 -/

/-- Configuration TC, with the values TC leaves out named here. -/
def tc : Config where
  crcInit := 0x0000
  commandOff := 0
  versionOff := 1
  dataFlagsOff := 2
  registryExt :=
    [(4, { name := "T1", offset := 0x08, length := 4, kind := .temperature }),
      (5, { name := "T2", offset := 0x0C, length := 4, kind := .temperature }),
      (6, { name := "NAME1", offset := 0x10, length := 16, kind := .string }),
      (7, { name := "NAME2", offset := 0x20, length := 16, kind := .string }),
      (8, { name := "BATT", offset := 0x30, length := 4, kind := .battery }),
      (9, { name := "DATE", offset := 0x34, length := 4, kind := .date }),
      (10, { name := "T1RAW", offset := 0x08, length := 4, kind := .integer })]
  calibration := none
  dflagBit := [(4, 0), (5, 1), (6, 2), (7, 2), (8, 3)]
  pollInterval := 500
  disconnectClass := [5]
  probeTemperatures := (4, 5)
  flaggedStringFatal := false

/-- Three calibration ids on one range. -/
def cal : Calibration := { id1 := 32, id2 := 33, id3 := 34, offset := 0x40, length := 4, kind := .integer }

/-- TC with calibration values. -/
def tcCal : Config := { tc with calibration := some cal }

def zeros (n : Nat) : List Byte := List.replicate n 0

/-- Frame F1. -/
def f1 : List Byte :=
  [0x01, 0x01, 0x03] ++ zeros 5 ++ [0x00, 0x48, 0xE8, 0x01] ++ zeros 4 ++ [0x50, 0x52, 0x4F, 0x42, 0x45, 0x31] ++
    zeros 26 ++ [0xB8, 0x0B] ++ zeros 2 ++ [0x80, 0x51, 0x01] ++ zeros 71 ++ [0xB2, 0xF2]

/-- Frame F2. -/
def f2 : List Byte :=
  [0x01, 0x01, 0x03] ++ zeros 5 ++ [0x20, 0xE9, 0xEF, 0x01] ++ zeros 4 ++ [0x50, 0x52, 0x4F, 0x42, 0x45, 0x31] ++
    zeros 26 ++ [0xB8, 0x0B] ++ zeros 2 ++ [0x80, 0x51, 0x01] ++ zeros 71 ++ [0x6F, 0xC3]

/-- The state after reset in TC. -/
def s0 : State := State.resetWith tc

/-! ## Running an instruction -/

def completes (i : Instr) (s : State) : Bool :=
  match exec i s with
  | .next _ => true
  | .fault _ => false
  | .refused _ => false

def after (i : Instr) (s : State) : State :=
  match exec i s with
  | .next t => t
  | .fault _ => s
  | .refused _ => s

/-- The response of an instruction that completes. -/
def answer (i : Instr) (s : State) : Option Response := if completes i s then (after i s).response else none

theorem exec_after {i : Instr} {s : State} (h : completes i s = true) : exec i s = .next (after i s) := by
  unfold completes at h
  unfold after
  split at h <;> simp_all

/-- An operation at the command port. -/
def portAfter (o : Operation) (s : State) : State :=
  match issue o s with
  | .next t => t
  | .fault _ => s
  | .refused _ => s

def portCompletes (o : Operation) (s : State) : Bool :=
  match issue o s with
  | .next _ => true
  | .fault _ => false
  | .refused _ => false

theorem issue_after {o : Operation} {s : State} (h : portCompletes o s = true) : issue o s = .next (portAfter o s) := by
  unfold portCompletes at h
  unfold portAfter
  split at h <;> simp_all

def stepAfter (s : State) : State :=
  match step s with
  | .next t => t
  | .fault _ => s
  | .refused _ => s

def stepCompletes (s : State) : Bool :=
  match step s with
  | .next _ => true
  | .fault _ => false
  | .refused _ => false

theorem step_after {s : State} (h : stepCompletes s = true) : step s = .next (stepAfter s) := by
  unfold stepCompletes at h
  unfold stepAfter
  split at h <;> simp_all

/-- TXF holds the GET request (95_test_vectors 1.4, the GET row). -/
def requestState : State :=
  { s0 with txf := { cells := [(0, 0x01), (1, 0x01), (126, 0xC1), (127, 0xAE)] }, txfPresent := true }

/-- RXF holds F1. -/
def f1State : State := after (.frameLoadRaw .rx f1) s0

/-- The receive buffer holds `bs`. -/
def buffered (mode : RxMode) (bs : List Byte) : State := { s0 with rxbuf := bs, loopMode := mode == .loop }

/-- A pass has terminated. -/
def doneState : State := { s0 with done := true, found := true, rxfPresent := true }

/-! ## Well-formedness smoke tests (30_encoding R104, R106; 00_scope R9) -/

theorem test_wf_rejects_reserved_bits : Operation.wellFormed { word := 0x00000201 } = false := by decide +kernel
theorem test_wf_rejects_unlisted_opcode : Operation.wellFormed { word := 0x00000004 } = false := by decide +kernel
theorem test_wf_rejects_unused_sel : Operation.wellFormed { word := 0x00000101 } = false := by decide +kernel
theorem test_wf_rejects_unused_fid : Operation.wellFormed { word := 0x00010002 } = false := by decide +kernel
theorem test_wf_rejects_unused_arg : Operation.wellFormed { word := 0x02000020 } = false := by decide +kernel
theorem test_wf_rejects_unused_value : Operation.wellFormed { word := 0x00000001, value := 5 } = false := by decide +kernel
theorem test_wf_rejects_unused_payload : Operation.wellFormed { word := 0x00000001, payload := [0x00] } = false := by
  decide +kernel
theorem test_wf_accepts_field_set : Operation.wellFormed { word := 0x00040113, value := 0xFFFFFFFF } = true := by
  decide +kernel

theorem test_descriptor_leaves_frame :
    Descriptor.wellFormed { name := "X", offset := 125, length := 4, kind := .integer } = false := by decide
theorem test_descriptor_byte_length :
    Descriptor.wellFormed { name := "X", offset := 8, length := 2, kind := .byte } = false := by decide
theorem test_descriptor_word_length :
    Descriptor.wellFormed { name := "X", offset := 8, length := 1, kind := .word } = false := by decide
theorem test_descriptor_number_length :
    Descriptor.wellFormed { name := "X", offset := 8, length := 2, kind := .date } = false := by decide
theorem test_descriptor_empty_string :
    Descriptor.wellFormed { name := "X", offset := 8, length := 0, kind := .string } = false := by decide
theorem test_calibration_repeated_id : Calibration.wellFormed { cal with id3 := 32 } = false := by decide
theorem test_calibration_fixed_id : Calibration.wellFormed { cal with id1 := 3 } = false := by decide
theorem test_calibration_leaves_frame : Calibration.wellFormed { cal with offset := 126 } = false := by decide
theorem test_calibration_length : Calibration.wellFormed { cal with length := 2 } = false := by decide
theorem test_config_command_in_checksum : Config.wellFormed { tc with commandOff := 126 } = false := by decide
theorem test_config_command_on_version : Config.wellFormed { tc with commandOff := 1 } = false := by decide
theorem test_config_command_on_flags : Config.wellFormed { tc with commandOff := 3 } = false := by decide
theorem test_config_version_on_flags : Config.wellFormed { tc with versionOff := 2 } = false := by decide
theorem test_config_flags_in_checksum : Config.wellFormed { tc with dataFlagsOff := 125 } = false := by decide
theorem test_config_bad_field :
    Config.wellFormed { tc with registryExt := [(4, { name := "X", offset := 127, length := 2, kind := .word })] } =
      false := by decide
theorem test_config_bad_calibration :
    Config.wellFormed { tc with calibration := some { cal with length := 1 } } = false := by decide
theorem test_config_tc : Config.wellFormed tc = true ∧ Config.wellFormed tcCal = true := by decide

/-! ## Decoding: a word of every constructor, written out from 30_encoding R101 and R110 -/

theorem test_decode_crc_init : decodeOperation { word := 0x00000001 } = .ok .crcInit := by decide +kernel
theorem test_decode_crc_feed : decodeOperation { word := 0xFF000002 } = .ok (.crcFeed 0xFF) := by decide +kernel
theorem test_decode_crc_read : decodeOperation { word := 0x00000003 } = .ok .crcRead := by decide +kernel
theorem test_decode_frame_load_raw :
    decodeOperation { word := 0x00000110, payload := [0xAA] } = .ok (.frameLoadRaw .rx [0xAA]) := by decide +kernel
theorem test_decode_frame_from_command :
    decodeOperation { word := 0x05000011 } = .ok (.frameFromCommand .tx 5) := by decide +kernel
theorem test_decode_field_get : decodeOperation { word := 0x00040112 } = .ok (.fieldGet .rx 4) := by decide +kernel
theorem test_decode_field_set :
    decodeOperation { word := 0x00020013, value := 0x10000 } = .ok (.fieldSet .tx 2 0x10000) := by decide +kernel
theorem test_decode_set_data_flags :
    decodeOperation { word := 0x00000014, payload := [4, 5] } = .ok (.setDataFlags .tx [4, 5]) := by decide +kernel
theorem test_decode_is_valid : decodeOperation { word := 0x00000115 } = .ok (.isValid .rx) := by decide +kernel
theorem test_decode_frame_crc : decodeOperation { word := 0x00000016 } = .ok (.frameCrc .tx) := by decide +kernel
theorem test_decode_serialize : decodeOperation { word := 0x00000117 } = .ok (.serialize .rx) := by decide +kernel
theorem test_decode_rx_start : decodeOperation { word := 0x01000020 } = .ok (.rxStart .loop) := by decide +kernel
theorem test_decode_rx_append :
    decodeOperation { word := 0x00000021, payload := [0x01, 0x02] } = .ok (.rxAppend [0x01, 0x02]) := by decide +kernel
theorem test_decode_rx_scan : decodeOperation { word := 0x00000022 } = .ok .rxScan := by decide +kernel
theorem test_decode_status_read : decodeOperation { word := 0x00000030 } = .ok .statusRead := by decide +kernel
theorem test_decode_cmd_nothing : decodeWire 0x00 = .ok .cmdNothing := by decide +kernel
theorem test_decode_cmd_get : decodeWire 0x01 = .ok .cmdGet := by decide +kernel
theorem test_decode_cmd_set : decodeWire 0x02 = .ok .cmdSet := by decide +kernel
theorem test_decode_cmd_button : decodeWire 0x03 = .ok .cmdButton := by decide +kernel
theorem test_decode_cmd_shutdown : decodeWire 0x05 = .ok .cmdShutdown := by decide +kernel

/-- 95_test_vectors 2.1: words the decoder rejects, by name. -/
theorem test_decode_rejects :
    decodeOperation { word := 0x00000000 } = .error .unlistedOpcode ∧
    decodeOperation { word := 0x00000201 } = .error .reservedBits ∧
    decodeOperation { word := 0x01010011 } = .error .unusedOperand ∧
    decodeOperation { word := 0x02000020 } = .error .unusedOperand ∧
    decodeOperation { word := 0x00040112, value := 1 } = .error .unusedValue ∧
    decodeOperation { word := 0x00000001, payload := [0x00] } = .error .unusedPayload ∧
    decodeWire 0x04 = .error .notACommand ∧ decodeWire 0x06 = .error .notACommand := by decide +kernel

/-! ## One step of each instruction (95_test_vectors, as named) -/

/-- 2.2: CRC_INIT in the middle of a stream restarts it. -/
theorem test_crc_init : (after .crcInit { s0 with crcReg := 0xD4C1 }).crcReg = 0x0000 := by decide +kernel

/-- 2.2: `crc_byte(0x0000, 0x01)` and `crc_byte(0xFFFF, 0xFF)`. -/
theorem test_crc_feed :
    (after (.crcFeed 0x01) s0).crcReg = 0xC0C1 ∧ (after (.crcFeed 0xFF) { s0 with crcReg := 0xFFFF }).crcReg = 0x00FF := by
  decide +kernel

/-- 2.2: the register after "123456789" is BB3D, and CRC_READ answers its complement. -/
theorem test_crc_read : answer .crcRead { s0 with crcReg := 0xBB3D } = some { rvalue := 0x000044C2 } := by decide +kernel

/-- 2.2: "123456789" with both initial values. -/
theorem test_crc_sequence :
    crc16 0x0000 [0x31, 0x32, 0x33, 0x34, 0x35, 0x36, 0x37, 0x38, 0x39] = 0x44C2 ∧
    crc16 0xFFFF [0x31, 0x32, 0x33, 0x34, 0x35, 0x36, 0x37, 0x38, 0x39] = 0xB4C8 := by decide +kernel

/-- 2.4: F1 loads and comes back exactly. -/
theorem test_frame_load_raw : f1State.rxf.bytes = f1 ∧ f1State.rxfPresent = true := by decide +kernel

/-- 2.4: 129 bytes. -/
theorem test_frame_load_raw_size :
    answer (.frameLoadRaw .tx (zeros 129)) s0 = some { status := .error .sizeMismatch, rvalue := 129 } := by
  decide +kernel

/-- 1.4: the GET row. -/
theorem test_frame_from_command :
    (after (.frameFromCommand .tx 1) s0).txf = requestState.txf ∧
    (after (.frameFromCommand .tx 1) s0).txfPresent = true := by decide +kernel

/-- P4 line 3. -/
theorem test_frame_from_command_invalid :
    answer (.frameFromCommand .tx 4) s0 = some { status := .error .invalidCommand, rvalue := 4 } := by decide +kernel

/-- P3 line 10. -/
theorem test_field_get_string :
    answer (.fieldGet .rx 6) f1State =
      some { rvalue := 6, rflags := 0x60, rbytes := [0x50, 0x52, 0x4F, 0x42, 0x45, 0x31] } := by decide +kernel

/-- P3 line 9: the sentinel. -/
theorem test_field_get_temperature :
    answer (.fieldGet .rx 5) f1State = some { rvalue := 0, rflags := 0x81 } := by decide +kernel

/-- 2.4: `FIELD_SET TX, DATA_FLAGS, 0x000F`. -/
theorem test_field_set :
    (after (.fieldSet .tx 2 0x000F) requestState).txf.cells =
      [(0, 0x01), (1, 0x01), (2, 0x0F), (126, 0xD6), (127, 0xAE)] := by decide +kernel

/-- P4 line 6. -/
theorem test_field_set_range :
    answer (.fieldSet .tx 0 0x100) requestState = some { status := .error .valueRange, rvalue := 0x100 } := by
  decide +kernel

/-- 2.4: order and repetition do not matter. -/
theorem test_set_data_flags :
    (after (.setDataFlags .tx [5, 4, 4]) requestState).txf.cells =
      [(0, 0x01), (1, 0x01), (2, 0x03), (126, 0xC5), (127, 0xEE)] := by decide +kernel

/-- 2.4: the first offending id. -/
theorem test_set_data_flags_unknown :
    answer (.setDataFlags .tx [200, 9]) requestState = some { status := .error .unknownField, rvalue := 200 } := by
  decide +kernel

/-- P3 line 15. -/
theorem test_is_valid : answer (.isValid .rx) f1State = some { rvalue := 1 } := by decide +kernel

/-- 1.4: in the GET frame, byte 8 set to 0x01. -/
theorem test_is_valid_flipped :
    answer (.isValid .rx) (after (.frameLoadRaw .rx (requestState.txf.bytes.set 8 0x01)) s0) = some { rvalue := 0 } := by
  decide +kernel

/-- 2.4: FRAME_CRC on F1. -/
theorem test_frame_crc : answer (.frameCrc .rx) f1State = some { rvalue := 0xF2B2 } := by decide +kernel

/-- P1 line 6. -/
theorem test_serialize :
    answer (.serialize .tx) (after (.setDataFlags .tx [4, 5]) requestState) =
      some { rbytes := [0x01, 0x01, 0x03] ++ zeros 123 ++ [0xC5, 0xEE] } := by decide +kernel

/-- 2.4: nothing to serialize after reset. -/
theorem test_serialize_absent :
    answer (.serialize .rx) s0 = some { status := .error .noFrame, rvalue := 1 } := by decide +kernel

/-- 2.6: `RX_START LOOP` from reset. -/
theorem test_rx_start : statusWord (after (.rxStart .loop) s0) = 0x00000800 := by decide +kernel

/-- P6 line 2. -/
theorem test_rx_append : answer (.rxAppend (f1 ++ f2)) s0 = some { rvalue := 256 } := by decide +kernel

/-- 2.5: 57 bytes on 200. -/
theorem test_rx_append_overflow :
    answer (.rxAppend (zeros 57)) (buffered .once (zeros 200)) =
      some { status := .error .rxOverflow, rvalue := 257 } := by decide +kernel

/-- 1.1: five junk bytes, F1, three trailing bytes. -/
theorem test_rx_scan :
    answer .rxScan (buffered .once ([0xAA, 0x55, 0xFF, 0x00, 0x13] ++ f1 ++ [0x01, 0x02, 0x03])) =
      some { rvalue := 5, rflags := 0x03, rframes := [f1] } := by decide +kernel

/-- 2.5: 128 zero bytes are no frame. -/
theorem test_rx_scan_invalid :
    answer .rxScan (buffered .once (zeros 128)) = some { rvalue := 1 } := by decide +kernel

/-- 2.6: after 1.1's pass. -/
theorem test_status_read :
    answer .statusRead
        (after .rxScan (buffered .once ([0xAA, 0x55, 0xFF, 0x00, 0x13] ++ f1 ++ [0x01, 0x02, 0x03]))) =
      some { rvalue := 0x00002603 } := by decide +kernel

/-- The receiver of a `poll` of T1 and T2 holds a COMMAND byte. -/
def pollState (code : Byte) : State :=
  { f1State with session := { consumer := .values [4, 5], receiver := .command code [] false } }

/-- 2.7: a BUTTON frame is dropped. -/
theorem test_cmd_button : (after .cmdButton (pollState 3)).session.receiver = .deliver [] false := by decide +kernel
theorem test_cmd_nothing : (after .cmdNothing (pollState 0)).session.receiver = .deliver [] false := by decide +kernel
theorem test_cmd_set : (after .cmdSet (pollState 2)).session.receiver = .deliver [] false := by decide +kernel
theorem test_cmd_shutdown : (after .cmdShutdown (pollState 5)).session.receiver = .deliver [] false := by decide +kernel

/-- 2.7: F1 passes the filter. -/
theorem test_cmd_get : (after .cmdGet (pollState 1)).session.receiver = .decodeFields [4, 5] [] [] false := by
  decide +kernel

/-- 45_host_session R250: the probes of TC are T1 and T2; id 10 is no temperature field. -/
theorem test_watch_probes :
    (startWatch 250 {} s0).session.consumer = .values [4, 5] ∧ (startWatch 250 {} s0).session.caller = .openLink ∧
    (startWatch 250 {} (State.resetWith { tc with probeTemperatures := (4, 10) })).session.ending =
      some (.failed .noProbeField) := by decide +kernel

/-- The caller's handler raises in the receiver's turn (45_host_session R251). -/
theorem test_handler_error :
    (match receiverTurn { handlerError := some 7 } (s0.receiverTo (.deliver [f1] false)) with
      | .next t => (t.session.ending, t.session.delivered, t.session.receiver)
      | .fault _ => (none, [], .off)
      | .refused _ => (none, [], .off)) = (some (.failed (.handlerError 7)), [f1], .off) := by decide +kernel

/-- 2.3: what the fields of F1 mean (T1 = 20, T2 = -300, BATT = 3, DATE = 2005-01-02T00:00:00 UTC). -/
theorem test_render :
    renderValue .temperature 32000000 [] = .temperature 20 ∧ renderValue .temperature 0 [] = .temperature (-300) ∧
    renderValue .battery 3000 [] = .battery 3 ∧ renderValue .date 86400 [] = .instant 1104624000 := by decide +kernel

/-- 1.3: the binary64 rendering of 20.5 and of -50 is exact. -/
theorem test_render_float : temperatureFloat 32050000 = 41 / 2 ∧ temperatureFloat 25000000 = -50 := by decide +kernel

/-- 30_encoding R110: lines of P1 and P4 read back. -/
theorem test_read_line :
    readLine "SET_DATA_FLAGS TX, <>".toList = none ∧
    readLine "FRAME_FROM_COMMAND TX, GET ; the request".toList = some (.frameFromCommand .tx (.name .get)) ∧
    readLine "FIELD_SET TX, COMMAND, 0x100".toList = some (.fieldSet .tx (.name "COMMAND") 0x100) ∧
    readLine "RX_APPEND <AA 55 FF>".toList = some (.rxAppend [0xAA, 0x55, 0xFF]) := by decide +kernel

/-- 30_encoding R110: the words of P1 and P3 as the assembler makes them. -/
theorem test_assemble :
    assemble tc (.fieldGet .rx (.name "T1")) = some (.operation { word := 0x00040112 }) ∧
    assemble tc (.setDataFlags .tx [.name "T1", .number 5]) =
      some (.operation { word := 0x00000014, payload := [4, 5] }) := by decide +kernel

/-! ## The step -/

/-- 2.1: ILLEGAL_OP with the word. -/
theorem test_step_illegal :
    (stepAfter { s0 with events := [.operation { word := 0x00000201 }] }).response =
      some { status := .error .illegalOp, rvalue := 0x00000201 } := by decide +kernel

/-- An instruction placed by `withFetchWord` is what the next step runs. -/
theorem test_fetch_operation : (stepAfter (s0.withFetchWord 32 0x31000002)).crcReg = 0xD4C1 := by decide +kernel
theorem test_fetch_wire : (stepAfter (s0.withFetchWord 8 0x03)).session.receiver = .deliver [] false := by
  decide +kernel

/-! ## Witnesses: states and operands that meet the premises of each statement -/

/-- An operation that ends with status OK. -/
def succeeds (i : Instr) (s : State) : Bool := (answer i s).any (fun r => r.status == .ok)

theorem witness_CrcStreamEqualsSequenceCrc :
    ∃ s : State, s.events =
      ([Instr.crcInit] ++ [0x31].map Instr.crcFeed ++ [Instr.crcRead]).map (fun i => .operation (operationOf i)) :=
  ⟨{ s0 with events := [.operation { word := 1 }, .operation { word := 0x31000002 }, .operation { word := 3 }] },
    by decide +kernel⟩

theorem witness_SingleByteChangeIsDetected :
    f1.length = 128 ∧ validFrame 0x0000 f1 = true ∧ (0x00 : Byte) ≠ f1.getD 0 0 ∧ (0x01 : Byte) ≠ f1.getD 125 0 ∧
    (0x00 : Byte) ≠ f1.getD 126 0 ∧ (0x00 : Byte) ≠ f1.getD 127 0 := by decide +kernel

theorem witness_NumericKindsDecodeLittleEndian :
    Kind.integer = .integer ∧ (Kind.date = .integer ∨ Kind.date = .date ∨ Kind.date = .battery) := by decide

theorem witness_StringDecodesUpToFirstZero :
    (([0x41, 0x80, 0x7F] : List Byte).getD 0 0).toNat < 0x80 ∧ (([0x41, 0x80, 0x7F] : List Byte).getD 2 0).toNat < 0x80 ∧
    1 ≤ ([0x41, 0x42, 0x00, 0x43] : List Byte).length ∧ 1 ≤ ([0x80] : List Byte).length := by decide

theorem witness_CodecRoundTrips :
    (0xFF : Word).toNat < 2 ^ (8 * 1) ∧ (0xFFFF : Word).toNat < 2 ^ (8 * 2) ∧ (0xFFFFFFFF : Word).toNat < 2 ^ (8 * 4) := by
  decide

theorem witness_FrameLoadRawStoresExactly128Bytes : f1.length = 128 ∧ (zeros 127).length ≠ 128 := by decide

theorem witness_FrameFromCommandBuildsSealedFrame :
    s0.config.wellFormed = true ∧ (5 : Byte) = 5 ∧ ¬((4 : Byte) = 0 ∨ (4 : Byte) = 1 ∨ (4 : Byte) = 2 ∨ (4 : Byte) = 3 ∨
      (4 : Byte) = 5) := by decide

/-- A registered integer field of TC (T1RAW). -/
def t1raw : Descriptor := { name := "T1RAW", offset := 0x08, length := 4, kind := .integer }

theorem witness_FieldGetAnswersDecodedField :
    s0.present .rx = false ∧ f1State.present .rx = true ∧ desc f1State.config 200 = none ∧
    (desc f1State.config 4).isSome = true ∧ f1State.config.wellFormed = true := by decide

/-- For the lookups of `FieldGetAnswersDecodedField` and `SetDataFlagsWritesUnionOfBits`. -/
theorem witness_lookups :
    (10, t1raw) ∈ tc.registryExt ∧ (∀ e ∈ tc.registryExt, e.1 = 10 → e.2 = t1raw) ∧
    (∀ e ∈ tc.registryExt, e.1 ≠ 255) ∧ tcCal.calibration = some cal ∧ 4 ≤ cal.id1.toNat ∧
    (∀ e ∈ tcCal.registryExt, e.1 ≠ cal.id1 ∧ e.1 ≠ cal.id2 ∧ e.1 ≠ cal.id3) ∧ (8, 3) ∈ tc.dflagBit ∧
    (∀ e ∈ tc.dflagBit, e.1 = 8 → e.2 = 3) ∧ (∀ e ∈ tc.dflagBit, e.1 ≠ 9) := by decide

theorem witness_FieldSetWritesAndSeals :
    s0.present .tx = false ∧ requestState.present .tx = true ∧ desc requestState.config 200 = none ∧
    (desc requestState.config 9).map (fun d => d.kind) = some .date ∧
    (desc requestState.config 0).map (fun d => (d.kind, d.length)) = some (.byte, 1) ∧
    2 ^ (8 * 1) ≤ (0x100 : Word).toNat ∧ desc requestState.config 10 = some t1raw ∧
    (0xFFFFFFFF : Word).toNat < 2 ^ (8 * 4) ∧ requestState.config.wellFormed = true ∧
    (requestState.frame .tx).wf = true := by decide +kernel

theorem witness_SetDataFlagsWritesUnionOfBits :
    s0.present .tx = false ∧ requestState.present .tx = true ∧
    (∀ f ∈ ([4] : List Byte), (flagbit requestState.config f).isSome = true) ∧ flagbit requestState.config 9 = none ∧
    (∀ f ∈ ([4, 5, 8] : List Byte), (flagbit requestState.config f).isSome = true) ∧
    requestState.config.wellFormed = true ∧ (requestState.frame .tx).wf = true := by decide +kernel

/-- For `IsValidComparesChecksum`, `FrameCrcAnswersChecksumOfFirst126` and `SerializeEmitsFrameInOrder`. -/
theorem witness_presence : s0.present .tx = false ∧ f1State.present .rx = true ∧ f1.length = 128 := by decide

theorem witness_FieldSetThenGetReturnsValue :
    requestState.present .tx = true ∧ requestState.config.wellFormed = true ∧ (requestState.frame .tx).wf = true ∧
    desc requestState.config 10 = some t1raw ∧ t1raw.kind = .integer ∧ t1raw.offset + t1raw.length ≤ 126 ∧
    (0xFFFFFFFF : Word).toNat < 2 ^ (8 * t1raw.length) := by decide +kernel

theorem witness_AliasedFieldsDecodeEqual :
    tcCal.calibration = some cal ∧ tcCal.wellFormed = true ∧
    (desc tcCal cal.id1).map (fun d => (d.offset, d.length, d.kind)) =
      (desc tcCal cal.id2).map (fun d => (d.offset, d.length, d.kind)) ∧
    (desc tcCal cal.id1).isSome = true := by decide

theorem witness_SharedBitFieldsSetTheSameMask :
    flagbit tc 6 = flagbit tc 7 ∧ (flagbit tc 6).isSome = true := by decide

theorem witness_DataFlagsIgnoreOrderAndRepetition :
    (∀ f : Byte, f ∈ ([4, 5] : List Byte) ↔ f ∈ ([5, 4, 4] : List Byte)) ∧
    (∀ f ∈ ([4, 5] : List Byte), (flagbit tc f).isSome = true) := by decide +kernel

theorem witness_WritesLeaveFrameValid :
    succeeds (.frameFromCommand .tx 1) s0 = true ∧ succeeds (.fieldSet .tx 10 7) requestState = true ∧
    succeeds (.setDataFlags .tx [4]) requestState = true ∧ (s0.frame .tx).wf = true ∧
    (requestState.frame .tx).wf = true := by decide +kernel

theorem witness_BuiltFrameForgetsItsPast :
    s0.config = requestState.config ∧ succeeds (.frameLoadRaw .tx f1) s0 = true ∧
    succeeds (.frameLoadRaw .tx f1) requestState = true ∧ succeeds (.frameFromCommand .tx 2) s0 = true ∧
    succeeds (.frameFromCommand .tx 2) requestState = true := by decide +kernel

theorem witness_RxAppendAddsAtTail :
    doneState.done = true ∧ (buffered .once (zeros 200)).done = false ∧
    256 < (buffered .once (zeros 200)).rxbuf.length + (zeros 57).length ∧
    (buffered .once (zeros 200)).rxbuf.length + (zeros 56).length ≤ 256 := by decide

theorem witness_RxScanDrainsGreedily : doneState.done = true ∧ (buffered .loop f1).done = false := by decide

theorem witness_DeliveredFramesAreConsecutiveSegments :
    (buffered .once ([0xAA] ++ f1)).done = false ∧
    (answer .rxScan (buffered .once ([0xAA] ++ f1))).map (fun r => (r.rvalue, r.rframes)) = some (1, [f1]) := by
  decide +kernel

theorem witness_ShortBufferIsLeftAlone :
    (buffered .once (zeros 127)).done = false ∧ (buffered .once (zeros 127)).rxbuf.length < 128 := by decide

theorem witness_PassLeavesRoomForARead :
    (buffered .loop (f1 ++ zeros 127)).done = false ∧ succeeds .rxScan (buffered .loop (f1 ++ zeros 127)) = true ∧
    (after .rxScan (buffered .loop (f1 ++ zeros 127))).done = false ∧ (zeros 128).length ≤ 128 := by decide +kernel

theorem witness_DeliveredFramesAreValid :
    (answer .rxScan (buffered .once f1)).map (fun r => r.rframes) = some [f1] := by decide +kernel

theorem witness_DeliveryIgnoresChunking :
    (buffered .loop []).rxbuf = [] ∧
    (∀ i ∈ [Instr.rxAppend ([0xAA] ++ f1.take 50), .rxScan, .rxAppend (f1.drop 50)], isReceive i = true) ∧
    (runCollect ([Instr.rxAppend ([0xAA] ++ f1.take 50), .rxScan, .rxAppend (f1.drop 50)] ++ [.rxScan])
      (buffered .loop [])).map (fun x => x.1) = some [f1] := by decide +kernel

theorem witness_TerminatingPassDeliversEveryFrame :
    f1.length = 128 ∧ f2.length = 128 ∧ validFrame 0x0000 f1 = true ∧ validFrame 0x0000 f2 = true ∧
    (buffered .once (f1 ++ f2)).done = false ∧ (buffered .once (f1 ++ f2)).loopMode = false ∧
    (buffered .once (f1 ++ f2)).rxbuf = f1 ++ f2 ∧ (buffered .once (f1 ++ f2)).config.crcInit = 0x0000 ∧
    (after .rxScan (buffered .once (f1 ++ f2))).done = true := by decide +kernel

theorem witness_NonStoringOperationsKeepFrames :
    completes (.crcFeed 0x31) f1State = true ∧ completes (.fieldGet .rx 4) f1State = true ∧
    completes (.isValid .rx) f1State = true ∧ completes (.serialize .rx) f1State = true ∧
    completes (.rxStart .once) f1State = true ∧ completes (.rxAppend (zeros 3)) f1State = true ∧
    (answer (.rxAppend (zeros 256)) s0).map (fun r => r.status) = some .ok ∧
    (answer (.rxAppend (zeros 257)) s0).map (fun r => r.status) ≠ some .ok := by decide +kernel

theorem witness_ReadOperationsAreIdempotent :
    succeeds (.fieldGet .rx 4) f1State = true ∧ succeeds (.isValid .rx) f1State = true ∧
    succeeds (.frameCrc .rx) f1State = true ∧ succeeds (.serialize .rx) f1State = true ∧
    succeeds .crcRead f1State = true ∧ succeeds .statusRead f1State = true := by decide +kernel

/-- For `FailedOperationChangesOnlyErrSticky` and `OperationsRaiseOnlyTheirErrors`. -/
theorem witness_failed_operation :
    portCompletes { word := 0x00C80112 } f1State = true ∧
    (portAfter { word := 0x00C80112 } f1State).response = some { status := .error .unknownField, rvalue := 200 } := by
  decide +kernel

theorem witness_OnlyResetClearsErrSticky :
    ({ s0 with errSticky := 0x0200, events := [.operation { word := 1 }] } : State).events.head? ≠ some .reset ∧
    stepCompletes { s0 with errSticky := 0x0200, events := [.operation { word := 1 }] } = true ∧
    (0x0200 : Half).getLsbD 9 = true := by decide +kernel

theorem witness_IllegalOperationRaisesIllegalOp :
    ({ s0 with events := [.operation { word := 0x00000201 }] } : State).events = .operation { word := 0x00000201 } :: [] ∧
    Operation.wellFormed { word := 0x00000201 } = false := by decide +kernel

theorem witness_EncodeOfDecodeIsIdentity :
    decode (.operation { word := 0x00040112 }) = .ok (.fieldGet .rx 4) ∧ decode (.wire 0x03) = .ok .cmdButton := by
  decide +kernel

theorem witness_StepRunsDecodedOperation :
    ({ s0 with events := [.operation { word := 0x00000030 }] } : State).events = .operation { word := 0x00000030 } :: [] ∧
    decodeOperation { word := 0x00000030 } = .ok .statusRead := by decide +kernel

/-- A wire command awaits its turn; the code is a command or not. -/
def wireState (code : Byte) : State := { pollState code with events := [.turn .receiver {}] }

theorem witness_StepRunsDecodedWireCommand :
    (wireState 1).events = .turn .receiver {} :: [] ∧ (wireState 1).session.receiver = .command 1 [] false ∧
    decodeWire 1 = .ok .cmdGet ∧ (wireState 4).session.receiver = .command 4 [] false ∧
    decodeWire 4 = .error .notACommand := by decide +kernel

theorem witness_PollKeepsOnlyGetFrames : (pollState 1).session.receiver = .command 1 [] false := by decide

theorem witness_StepKeepsInvariant :
    Inv { requestState with events := [.operation { word := 0x00000017 }] } ∧
    stepCompletes { requestState with events := [.operation { word := 0x00000017 }] } = true :=
  ⟨{ config := by decide +kernel, txf := by decide +kernel, rxf := by decide +kernel, rxbuf := by decide +kernel,
     sticky := by decide +kernel, done := by decide +kernel, found := by decide +kernel }, by decide +kernel⟩

/-- For `ResetSatisfiesInvariant` and `StepNeverStops`. -/
theorem witness_wellFormed_configuration : tc.wellFormed = true ∧ s0.config.wellFormed = true := by decide

/-- For `StepKeepsConfiguration` and `EveryOperationAdvancesIndex`. -/
theorem witness_operation_completes :
    stepCompletes { s0 with events := [.operation { word := 0x00000015 }] } = true ∧
    portCompletes { word := 0x00000015 } s0 = true := by decide +kernel

theorem witness_ResetEventRestoresResetValues :
    ({ f1State with events := [.reset] } : State).events = .reset :: [] := by decide +kernel

theorem witness_FrameOperationsNeedAFrameAfterReset : ∃ fid, Instr.fieldGet .tx 4 = .fieldGet .tx fid := ⟨4, rfl⟩

theorem witness_SenderAndReceiverCommute :
    requestState.txfPresent = true ∧ completes (.serialize .tx) requestState = true ∧
    completes (.frameLoadRaw .rx f1) (after (.serialize .tx) requestState) = true ∧
    completes .rxScan (after (.serialize .tx) requestState) = true := by decide +kernel

theorem witness_DisconnectIsRecoveredByOneReopen :
    ∃ s : State, s.session.sender = .write [0x01] ∧ (5 : Half) ∈ s.config.disconnectClass ∧
      s.events =
        [.turn .sender { write := .error 5, cut := 1 }, .turn .sender { elapsed := 1000 }, .turn .sender {},
          .turn .sender {}] ++ [] :=
  ⟨{ s0 with
      session := { sender := .write [0x01] }
      events :=
        [.turn .sender { write := .error 5, cut := 1 }, .turn .sender { elapsed := 1000 }, .turn .sender {},
          .turn .sender {}] }, rfl, by decide, rfl⟩

theorem witness_OtherWriteErrorEndsSession :
    ∃ s : State, s.session.sender = .write [0x01] ∧ ¬ (6 : Half) ∈ s.config.disconnectClass ∧
      s.events = .turn .sender { write := .error 6, cut := 0 } :: [] :=
  ⟨{ s0 with
      session := { sender := .write [0x01] }
      events := [.turn .sender { write := .error 6, cut := 0 }] }, rfl, by decide, rfl⟩

theorem witness_PollOnceReturnsLastDelivered :
    ∃ s : State, s.session.caller = .waiting ∧ s.session.mode = .once ∧ s.session.consumer = .keepLast ∧
      s.session.receiver = .scan ∧ s.session.sender = .sleepInterval ∧ s.done = false ∧ s.loopMode = false ∧
      validFrame s.config.crcInit f1 = true ∧ validFrame s.config.crcInit f2 = true ∧ s.rxbuf = f1 ++ f2 ∧
      s.events =
        [.turn .receiver {}, .turn .receiver {}, .turn .receiver {}, .turn .receiver {}, .turn .caller {}] ++ [] :=
  ⟨{ s0 with
      rxbuf := f1 ++ f2
      session := { caller := .waiting, consumer := .keepLast, receiver := .scan, sender := .sleepInterval }
      events :=
        [.turn .receiver {}, .turn .receiver {}, .turn .receiver {}, .turn .receiver {}, .turn .caller {}] },
    rfl, rfl, rfl, rfl, rfl, rfl, rfl, by decide +kernel, by decide +kernel, rfl, rfl⟩

/-- For the short sleeps of `DisconnectIsRecoveredByOneReopen` and `SilentLinkNeverEndsSession`. -/
theorem witness_short_sleeps :
    (s0.senderTo .sleepRecovery).session.sender = .sleepRecovery ∧ ({ elapsed := 999 } : Env).elapsed < 1000 ∧
    (s0.receiverTo .sleepIdle).session.receiver = .sleepIdle ∧ ({ elapsed := 99 } : Env).elapsed < 100 := by decide

theorem witness_SilentLinkNeverEndsSession :
    ∃ s : State, s.session.receiver = .read ∧ s.done = false ∧ s.rxbuf.length < 128 ∧
      (∀ x ∈ [(ReadOutcome.wouldBlock, 100), (.endOfStream, 101), (.bytes [], 1000)],
        (x.1 = .wouldBlock ∨ x.1 = .endOfStream ∨ x.1 = .bytes []) ∧ 100 ≤ x.2) ∧
      s.events = [(ReadOutcome.wouldBlock, 100), (.endOfStream, 101), (.bytes [], 1000)].flatMap silentRound ++ [] :=
  ⟨{ s0 with
      rxbuf := zeros 127
      session := { receiver := .read }
      events := [(ReadOutcome.wouldBlock, 100), (.endOfStream, 101), (.bytes [], 1000)].flatMap silentRound }, rfl, rfl,
    by decide, by decide, rfl⟩

end Sys2Proof.Tests
end

section
/-! The scope family: what every step keeps. `OperationEffect` says once what an accepted operation can do to the state;
`step_preserves` carries a property from operations, the reset event and the moves of the host's side to whole steps. -/

namespace Sys2Proof.Machine

open Sys2Proof.Safety

/-! ### What an operation can do -/

/-- Everything an accepted operation can do to the state, error or not: the frame unit only ever stores canonical frames,
the RX unit appends only what fits, and a wire command moves the host's side alone. -/
inductive OperationEffect (s : State) : State → Prop where
  /-- The operation only answers. -/
  | answer (r : Option Response) : OperationEffect s { s with response := r }
  /-- The operation ends with an error (60_exceptions R270, R274). -/
  | error (e : ErrorCode) (info : Word) : OperationEffect s (raised e info s)
  /-- The running CRC is replaced (41_crc R155, R157). -/
  | crc (c : Half) (r : Option Response) : OperationEffect s { s with crcReg := c, response := r }
  /-- A whole frame is put into a register (42_frame R171, R172). -/
  | put (sel : FrameSel) (m : Memory) (r : Option Response) (hm : m.wf = true) :
      OperationEffect s { s.putFrame sel m with response := r }
  /-- A frame that is present is changed and re-sealed (42_frame R174, R176). -/
  | modify (sel : FrameSel) (m : Memory) (r : Option Response) (hp : s.present sel = true)
      (hm : (s.frame sel).wf = true → m.wf = true) : OperationEffect s { s.setFrame sel m with response := r }
  /-- The RX unit starts (43_rx_resync R210). -/
  | start (loop : Bool) (r : Option Response) :
      OperationEffect s
        { s with rxbuf := [], loopMode := loop, found := false, done := false, rxfPresent := false, response := r }
  /-- Bytes that fit are appended (43_rx_resync R211). -/
  | append (bs : List Byte) (r : Option Response) (hd : s.done = false)
      (hfit : s.rxbuf.length + bs.length ≤ rxbufCap) :
      OperationEffect s { s with rxbuf := s.rxbuf ++ bs, response := r }
  /-- One pass over the buffer (43_rx_resync R212, R213). -/
  | scan (hd : s.done = false) : OperationEffect s (scanned s)
  /-- A wire command (45_host_session R248). -/
  | host (t : State) (h : OnlySession s t) : OperationEffect s t

/-- Storing a range and re-sealing the frame keeps the canonical form. -/
theorem storeChecksum_writeRange_wf {m m' : Memory} {o : Nat} {bs : List Byte} (init : Half)
    (h : m.writeRange o bs = some m') (hw : m.wf = true) : (storeChecksum init m').wf = true :=
  storeChecksum_wf init m' ((Memory.writeRange_spec m m' o bs h).2.1 hw)

/-- What an instruction can do, one instruction at a time. -/
theorem exec_effect {i : Instr} {s t : State} (h : exec i s = .next t) : OperationEffect s t := by
  cases i with
  | crcInit => cases respond_next h; exact .crc _ _
  | crcFeed b => cases respond_next h; exact .crc _ _
  | crcRead => cases respond_next h; exact .answer _
  | frameLoadRaw sel payload =>
    obtain ⟨-, rfl⟩ | ⟨-, rfl⟩ := execFrameLoadRaw_next h
    · exact .error _ _
    · exact .put sel _ _ (Memory.ofBytes_wf payload)
  | frameFromCommand sel arg =>
    obtain ⟨-, rfl⟩ | ⟨-, m, -, hm, rfl⟩ := execFrameFromCommand_next h
    · exact .error _ _
    · exact .put sel _ _ (storeChecksum_wf _ m (commandBytes_wf hm))
  | fieldGet sel fid =>
    obtain ⟨-, rfl⟩ | ⟨-, -, rfl⟩ | ⟨-, -, -, -, -, rfl⟩ := execFieldGet_next h
    · exact .error _ _
    · exact .error _ _
    · exact .answer _
  | fieldSet sel fid value =>
    obtain ⟨-, rfl⟩ | ⟨-, -, rfl⟩ | ⟨-, -, -, -, rfl⟩ | ⟨-, -, -, -, -, rfl⟩ | ⟨d, m, hp, -, -, -, hm, rfl⟩ :=
      execFieldSet_next h
    · exact .error _ _
    · exact .error _ _
    · exact .error _ _
    · exact .error _ _
    · exact .modify sel _ _ hp (storeChecksum_writeRange_wf _ hm)
  | setDataFlags sel fids =>
    obtain ⟨-, rfl⟩ | ⟨-, -, -, rfl⟩ | ⟨mask, m, hp, -, hm, rfl⟩ := execSetDataFlags_next h
    · exact .error _ _
    · exact .error _ _
    · exact .modify sel _ _ hp (storeChecksum_writeRange_wf _ hm)
  | isValid sel =>
    obtain ⟨-, rfl⟩ | ⟨-, rfl⟩ := execIsValid_next h
    · exact .error _ _
    · exact .answer _
  | frameCrc sel =>
    obtain ⟨-, rfl⟩ | ⟨-, rfl⟩ := execFrameCrc_next h
    · exact .error _ _
    · exact .answer _
  | serialize sel =>
    obtain ⟨-, rfl⟩ | ⟨-, rfl⟩ := execSerialize_next h
    · exact .error _ _
    · exact .answer _
  | rxStart mode => cases respond_next h; exact .start _ _
  | rxAppend payload =>
    obtain ⟨-, rfl⟩ | ⟨-, -, rfl⟩ | ⟨hd, hfit, rfl⟩ := execRxAppend_next h
    · exact .error _ _
    · exact .error _ _
    · exact .append payload _ hd hfit
  | rxScan =>
    obtain ⟨-, rfl⟩ | ⟨hd, rfl⟩ := execRxScan_next h
    · exact .error _ _
    · exact .scan hd
  | statusRead => cases respond_next h; exact .answer _
  | cmdNothing => cases h; exact .host _ (dropFrame_only s)
  | cmdGet => cases h; exact .host _ (keepFrame_only s)
  | cmdSet => cases h; exact .host _ (dropFrame_only s)
  | cmdButton => cases h; exact .host _ (dropFrame_only s)
  | cmdShutdown => cases h; exact .host _ (dropFrame_only s)

/-- What the command port can do: an illegal operation raises ILLEGAL_OP, any other runs. -/
theorem issue_effect {o : Operation} {s t : State} (h : issue o s = .next t) : OperationEffect (accept s) t := by
  obtain ⟨i, -, h⟩ | ⟨e, -, rfl⟩ := issue_next h
  · exact exec_effect h
  · exact .error _ _

/-! ### From operations to steps -/

/-- A property of states that taking an input, the host's side, the reset event and every operation keep is kept by every
step. -/
theorem step_preserves {P : State → Prop}
    (take : ∀ s rest, P s → P { s with events := rest })
    (host : ∀ s t, OnlySession s t → P s → P t)
    (reset : ∀ s, P s → P (resetBlock s))
    (operation : ∀ s t, OperationEffect (accept s) t → P s → P t)
    {s t : State} (hs : P s) (h : step s = .next t) : P t := by
  obtain ⟨-, rfl⟩ | ⟨e, rest, -, ⟨-, rfl⟩ | ⟨-, hturn⟩⟩ := step_cases h
  · exact hs
  · exact reset _ (take s rest hs)
  · obtain hsession | ⟨o, u, v, hu, hv, ht⟩ := hturn
    · exact host _ t hsession (take s rest hs)
    · have hPu : P u := host _ u hu (take s rest hs)
      have hPv : P v := operation u v (issue_effect hv) hPu
      exact host v t ht hPv

/-! ### The configuration -/

theorem OnlySession.config_eq {s t : State} (h : OnlySession s t) : t.config = s.config := by rw [h.eq]

/-- No operation writes the configuration (00_scope R8). -/
theorem OperationEffect.config_eq {s t : State} (h : OperationEffect s t) : t.config = s.config := by
  cases h with
  | answer => rfl
  | error => rfl
  | crc => rfl
  | put sel m => exact State.putFrame_config s sel m
  | modify sel m => exact State.setFrame_config s sel m
  | start => rfl
  | append => rfl
  | scan => exact State.receiveLast_config s _
  | host _ h => exact h.config_eq

/-! ### The invariant -/

/-- No error has one of the bits of ERR_STICKY that always read 0 (10_state R31). -/
theorem ErrorCode.stickyBit_reserved (e : ErrorCode) : e.stickyBit &&& stickyReserved = 0 := by
  cases e <;> decide

/-- A pass keeps RXF canonical. -/
theorem State.receiveLast_rxf_wf {s : State} (ws : List (List Byte)) (h : s.rxf.wf = true) :
    (s.receiveLast ws).rxf.wf = true := by
  cases hw : ws.getLast? with
  | none => rw [List.getLast?_eq_none_iff.mp hw]; exact h
  | some w => rw [(s.receiveLast_some ws w hw).1]; exact Memory.ofBytes_wf w

/-- A pass that delivers a frame leaves one in RXF (10_state R26). -/
theorem State.receiveLast_rxfPresent {s : State} {ws : List (List Byte)} (h : ws ≠ []) :
    (s.receiveLast ws).rxfPresent = true :=
  (s.receiveLast_some ws _ (List.getLast?_eq_some_getLast h)).2

theorem scanPass_rest_length_le (init : Half) (buf : List Byte) : (scanPass init buf).rest.length ≤ buf.length :=
  (drain_rest_suffix init buf.length buf).length_le

end Sys2Proof.Machine

namespace Sys2Proof.Safety

open Sys2Proof.Machine

/-- An error adds only bits that ERR_STICKY has. -/
theorem Inv.raised {s : State} (h : Inv s) (e : ErrorCode) (info : Word) : Inv (raised e info s) :=
  { h with
    sticky := by
      rw [raised_errSticky, BitVec.and_or_distrib_right, h.sticky, e.stickyBit_reserved, BitVec.or_self] }

theorem Inv.putFrame {s : State} (h : Inv s) (sel : FrameSel) {m : Memory} (hm : m.wf = true) :
    Inv (s.putFrame sel m) := by
  cases sel with
  | tx => exact { h with txf := hm }
  | rx => exact { h with rxf := hm, found := fun _ => rfl }

theorem Inv.frame_wf {s : State} (h : Inv s) (sel : FrameSel) : (s.frame sel).wf = true := by
  cases sel with
  | tx => exact h.txf
  | rx => exact h.rxf

theorem Inv.setFrame {s : State} (h : Inv s) (sel : FrameSel) {m : Memory} (hm : m.wf = true) :
    Inv (s.setFrame sel m) := by
  cases sel with
  | tx => exact { h with txf := hm }
  | rx => exact { h with rxf := hm }

theorem Inv.withResponse {s : State} (h : Inv s) (r : Option Response) : Inv { s with response := r } := { h with }

/-- A pass keeps the invariant: it sets FOUND exactly when it puts a frame into RXF, and DONE only with FOUND and in
single-shot mode (43_rx_resync R213). -/
theorem Inv.scanned {s : State} (h : Inv s) : Inv (scanned s) where
  config := by simpa [Machine.scanned] using h.config
  txf := by simpa [Machine.scanned] using h.txf
  rxf := State.receiveLast_rxf_wf _ h.rxf
  rxbuf := (scanPass_rest_length_le _ _).trans h.rxbuf
  sticky := by simpa [Machine.scanned] using h.sticky
  done hd := by simpa [Machine.scanned] using hd
  found hf := State.receiveLast_rxfPresent (by simpa [Machine.scanned] using hf)

theorem Inv.resetBlock {s : State} (h : Inv s) : Inv (resetBlock s) where
  config := h.config
  txf := Memory.blank_wf
  rxf := Memory.blank_wf
  rxbuf := Nat.zero_le _
  sticky := by simp
  done := nofun
  found := nofun

/-- The invariant does not speak of the host's side. -/
theorem Inv.of_onlySession {s t : State} (h : OnlySession s t) (hs : Inv s) : Inv t := by
  rw [h.eq]
  exact { hs with }

/-- Every operation keeps the invariant. -/
theorem Inv.of_effect {s t : State} (h : OperationEffect s t) (hs : Inv s) : Inv t := by
  cases h with
  | answer r => exact hs.withResponse r
  | error e info => exact hs.raised e info
  | crc c r => exact { hs with }
  | put sel m r hm => exact (hs.putFrame sel hm).withResponse r
  | modify sel m r _ hm => exact (hs.setFrame sel (hm (hs.frame_wf sel))).withResponse r
  | start loop r => exact { hs with rxbuf := Nat.zero_le _, done := nofun, found := nofun }
  | append bs r _ hfit => exact { hs with rxbuf := List.length_append.trans_le hfit }
  | scan => exact hs.scanned
  | host _ h => exact hs.of_onlySession h

/-! ### The statements -/

/-- Settles O47: every part of a step keeps the invariant, so the step does. -/
theorem stepKeepsInvariant : Obligations.StepKeepsInvariant := by
  intro s t hs h
  exact step_preserves (P := Inv)
    (take := fun _ _ hs => { hs with })
    (host := fun _ _ => Inv.of_onlySession)
    (reset := fun _ => Inv.resetBlock)
    (operation := fun _ _ heffect hs => Inv.of_effect heffect { hs with })
    hs h

/-- Settles O50: no part of a step writes the configuration, so the one at the start is the one at the end. -/
theorem stepKeepsConfiguration : Obligations.StepKeepsConfiguration := by
  intro s t h
  exact step_preserves (P := fun u => u.config = s.config)
    (take := fun _ _ hs => hs)
    (host := fun _ _ hsession hs => hsession.config_eq.trans hs)
    (reset := fun _ hs => hs)
    (operation := fun _ _ heffect hs => heffect.config_eq.trans hs)
    rfl h

end Sys2Proof.Safety
end

section
/-! The state family: the sticky error bits, the operation index, the operation a step runs, and the reset values. -/

namespace Sys2Proof.Machine

open Sys2Proof.Safety

/-! ### ERR_STICKY (10_state R31, 60_exceptions R275) -/

theorem OnlySession.errSticky_eq {s t : State} (h : OnlySession s t) : t.errSticky = s.errSticky := by rw [h.eq]

/-- An operation leaves ERR_STICKY alone or adds the bit of one error to it. -/
theorem OperationEffect.errSticky_cases {s t : State} (h : OperationEffect s t) :
    t.errSticky = s.errSticky ∨ ∃ e : ErrorCode, t.errSticky = s.errSticky ||| e.stickyBit := by
  cases h with
  | answer => exact .inl rfl
  | error e info => exact .inr ⟨e, raised_errSticky e info s⟩
  | crc => exact .inl rfl
  | put sel m => exact .inl (State.putFrame_errSticky s sel m)
  | modify sel m => exact .inl (State.setFrame_errSticky s sel m)
  | start => exact .inl rfl
  | append => exact .inl rfl
  | scan => exact .inl (State.receiveLast_errSticky s _)
  | host _ h => exact .inl h.errSticky_eq

/-- No operation clears a bit of ERR_STICKY. -/
theorem OperationEffect.keeps_errSticky_bit {s t : State} {k : Nat} (h : OperationEffect s t)
    (hk : s.errSticky.getLsbD k = true) : t.errSticky.getLsbD k = true := by
  obtain hsame | ⟨e, hadded⟩ := h.errSticky_cases
  · rw [hsame, hk]
  · rw [hadded, BitVec.getLsbD_or, hk, Bool.true_or]

/-- A turn keeps what the moves of the host's side and every operation keep. -/
theorem TurnEffect.preserves {P : State → Prop}
    (host : ∀ s t, OnlySession s t → P s → P t)
    (operation : ∀ s t, OperationEffect (accept s) t → P s → P t)
    {s t : State} (h : TurnEffect s t) (hs : P s) : P t := by
  obtain hsession | ⟨o, u, v, hu, hv, ht⟩ := h
  · exact host s t hsession hs
  · exact host v t ht (operation u v (issue_effect hv) (host s u hu hs))

/-- A turn clears no bit of ERR_STICKY. -/
theorem TurnEffect.keeps_errSticky_bit {s t : State} {k : Nat} (h : TurnEffect s t)
    (hk : s.errSticky.getLsbD k = true) : t.errSticky.getLsbD k = true :=
  h.preserves (P := fun u => u.errSticky.getLsbD k = true)
    (host := fun _ _ hsession hs => by rw [hsession.errSticky_eq, hs])
    (operation := fun _ _ heffect hs => heffect.keeps_errSticky_bit hs)
    hk

/-! ### The operation index (10_state R21) -/

theorem OnlySession.opIndex_eq {s t : State} (h : OnlySession s t) : t.opIndex = s.opIndex := by rw [h.eq]

/-- Only the port counts operations: running one does not move the index. -/
theorem OperationEffect.opIndex_eq {s t : State} (h : OperationEffect s t) : t.opIndex = s.opIndex := by
  cases h with
  | answer => rfl
  | error => rfl
  | crc => rfl
  | put sel m => exact State.putFrame_opIndex s sel m
  | modify sel m => exact State.setFrame_opIndex s sel m
  | start => rfl
  | append => rfl
  | scan => exact State.receiveLast_opIndex s _
  | host _ h => exact h.opIndex_eq

end Sys2Proof.Machine

namespace Sys2Proof.Safety

open Sys2Proof.Machine

/-! ### Reset (10_state R38) -/

/-- At reset the frames are blank, the buffer is empty and no flag is set, so only the configuration is left to ask for. -/
theorem Inv.resetWith {c : Config} (h : c.wellFormed = true) : Inv (State.resetWith c) where
  config := h
  txf := Memory.blank_wf
  rxf := Memory.blank_wf
  rxbuf := Nat.zero_le _
  sticky := BitVec.zero_and
  done := nofun
  found := nofun

theorem hasResetValues_resetWith (c : Config) : HasResetValues (State.resetWith c) :=
  ⟨rfl, Memory.read_blank, Memory.read_blank, rfl, rfl, rfl, rfl, rfl, rfl, rfl⟩

/-- The reset event gives the block what power-on gives it (70_reset_and_hazards R300). -/
theorem hasResetValues_resetBlock (s : State) : HasResetValues (resetBlock s) :=
  hasResetValues_resetWith s.config

/-! ### The statements -/

/-- Settles O38: an operation only adds bits to ERR_STICKY, and nothing else but the reset event writes it. -/
theorem onlyResetClearsErrSticky : Obligations.OnlyResetClearsErrSticky := by
  intro s t k hreset h hk
  obtain ⟨-, rfl⟩ | ⟨e, rest, he, ⟨rfl, -⟩ | ⟨-, hturn⟩⟩ := step_cases h
  · exact hk
  · exact absurd (congrArg List.head? he) hreset
  · exact hturn.keeps_errSticky_bit hk

/-- Settles O44: the input taken is the operation, and the port runs what it decodes to. -/
theorem stepRunsDecodedOperation : Obligations.StepRunsDecodedOperation := by
  intro o rest i s hevents hdecode
  calc step s = issue o { s with events := rest } := step_cons hevents
    _ = exec i (accept { s with events := rest }) := issue_ok hdecode

/-- Settles O48: the shipped configuration is one of those that meet 00_scope R9. -/
theorem resetSatisfiesInvariant : Obligations.ResetSatisfiesInvariant :=
  ⟨fun _ => Inv.resetWith, Inv.resetWith Config.shipped_wellFormed⟩

/-- Settles O51: the port advances the index as it accepts, and what runs afterwards leaves it. -/
theorem everyOperationAdvancesIndex : Obligations.EveryOperationAdvancesIndex := by
  intro o s t h
  rw [(issue_effect h).opIndex_eq, accept_opIndex]

/-- Settles O52: the reset event leaves the state of power-on, in the configuration the machine has. -/
theorem resetEventRestoresResetValues : Obligations.ResetEventRestoresResetValues := by
  refine ⟨fun c => ⟨rfl, hasResetValues_resetWith c⟩, fun rest s hevents => ?_⟩
  exact ⟨resetBlock { s with events := rest }, step_cons hevents, hasResetValues_resetBlock _, resetBlock_config _⟩

end Sys2Proof.Safety
end

section
/-! The memory family: the operations that store to no frame, the read operations, and the sender beside the receiver. The
facts they share: an operation does not see the response recorded before it, a read operation only answers or fails, and
an operation of the receiver leaves TXF alone. -/

namespace Sys2Proof.Machine

open Sys2Proof.Safety

/-! ### What is the same when fields are -/

theorem sameFrames_of_eq {s t : State} (htxf : t.txf = s.txf) (hrxf : t.rxf = s.rxf)
    (htx : t.txfPresent = s.txfPresent) (hrx : t.rxfPresent = s.rxfPresent) : SameFrames s t :=
  ⟨fun _ => by rw [htxf], fun _ => by rw [hrxf], htx, hrx⟩

/-- Recording a response changes no state element of 10_state R20 (R32). -/
theorem sameBlock_response (s : State) (r : Option Response) : SameBlock s { s with response := r } :=
  ⟨⟨rfl, sameFrames_of_eq rfl rfl rfl rfl, rfl, rfl, rfl, rfl⟩, rfl⟩

theorem sameSurroundings_response (s : State) (r : Option Response) : SameSurroundings s { s with response := r } :=
  ⟨rfl, rfl, rfl, rfl⟩

theorem sameFrames_raised (e : ErrorCode) (info : Word) (s : State) : SameFrames s (raised e info s) :=
  sameFrames_of_eq rfl rfl rfl rfl

/-- An error changes no state element but ERR_STICKY (60_exceptions R274). -/
theorem sameButErrors_raised (e : ErrorCode) (info : Word) (s : State) : SameButErrors s (raised e info s) :=
  ⟨rfl, sameFrames_raised e info s, rfl, rfl, rfl, rfl⟩

theorem sameSurroundings_raised (e : ErrorCode) (info : Word) (s : State) : SameSurroundings s (raised e info s) :=
  ⟨rfl, rfl, rfl, rfl⟩

/-! ### The response recorded before an operation (10_state R32) -/

theorem scanned_response (s : State) (r : Option Response) : scanned { s with response := r } = scanned s := by
  unfold scanned State.receiveLast
  cases (scanPass s.config.crcInit s.rxbuf).delivered.getLast? <;> rfl

/-- A receiver that is done refuses the pass (43_rx_resync R212). -/
theorem execRxScan_done {s : State} (h : s.done = true) : execRxScan s = .next (raised .rxDone 0 s) := if_pos h

theorem execRxScan_response (s : State) (r : Option Response) : execRxScan { s with response := r } = execRxScan s := by
  obtain hd | hd := Bool.eq_false_or_eq_true s.done
  · calc execRxScan { s with response := r } = .next (raised .rxDone 0 s) := execRxScan_done hd
      _ = execRxScan s := (execRxScan_done hd).symm
  · calc execRxScan { s with response := r } = .next (scanned { s with response := r }) := execRxScan_running hd
      _ = .next (scanned s) := by rw [scanned_response]
      _ = execRxScan s := (execRxScan_running hd).symm

/-- An operation of the command port does not see the response to the one before it. The wire commands are no such
operations: they answer nothing, so the recorded response stays. -/
theorem exec_response {i : Instr} (hi : ∀ c : Command, i ≠ c.instr) (s : State) (r : Option Response) :
    exec i { s with response := r } = exec i s := by
  cases i with
  | crcInit => rfl
  | crcFeed => rfl
  | crcRead => rfl
  | frameLoadRaw sel => cases sel <;> rfl
  | frameFromCommand sel => cases sel <;> rfl
  | fieldGet sel => cases sel <;> rfl
  | fieldSet sel => cases sel <;> rfl
  | setDataFlags sel => cases sel <;> rfl
  | isValid sel => cases sel <;> rfl
  | frameCrc sel => cases sel <;> rfl
  | serialize sel => cases sel <;> rfl
  | rxStart => rfl
  | rxAppend => rfl
  | rxScan => exact execRxScan_response s r
  | statusRead => rfl
  | cmdNothing => exact absurd rfl (hi .nothing)
  | cmdGet => exact absurd rfl (hi .get)
  | cmdSet => exact absurd rfl (hi .set)
  | cmdButton => exact absurd rfl (hi .button)
  | cmdShutdown => exact absurd rfl (hi .shutdown)

/-! ### The read operations (20_memory R59) -/

/-- The operations that read and store nothing. -/
inductive IsRead : Instr → Prop where
  | fieldGet (sel : FrameSel) (fid : Byte) : IsRead (.fieldGet sel fid)
  | isValid (sel : FrameSel) : IsRead (.isValid sel)
  | frameCrc (sel : FrameSel) : IsRead (.frameCrc sel)
  | serialize (sel : FrameSel) : IsRead (.serialize sel)
  | crcRead : IsRead .crcRead
  | statusRead : IsRead .statusRead

/-- What a read operation can do: record its response, or fail. -/
inductive ReadEffect (s : State) : State → Prop where
  | answer (r : Response) : ReadEffect s { s with response := some r }
  | error (e : ErrorCode) (info : Word) : ReadEffect s (raised e info s)

theorem IsRead.effect {i : Instr} {s t : State} (hi : IsRead i) (h : exec i s = .next t) : ReadEffect s t := by
  cases hi with
  | fieldGet =>
    obtain ⟨-, rfl⟩ | ⟨-, -, rfl⟩ | ⟨-, -, -, -, -, rfl⟩ := execFieldGet_next h
    · exact .error _ _
    · exact .error _ _
    · exact .answer _
  | isValid =>
    obtain ⟨-, rfl⟩ | ⟨-, rfl⟩ := execIsValid_next h
    · exact .error _ _
    · exact .answer _
  | frameCrc =>
    obtain ⟨-, rfl⟩ | ⟨-, rfl⟩ := execFrameCrc_next h
    · exact .error _ _
    · exact .answer _
  | serialize =>
    obtain ⟨-, rfl⟩ | ⟨-, rfl⟩ := execSerialize_next h
    · exact .error _ _
    · exact .answer _
  | crcRead => cases respond_next h; exact .answer _
  | statusRead => cases respond_next h; exact .answer _

theorem IsRead.not_wire {i : Instr} (hi : IsRead i) (c : Command) : i ≠ c.instr := by
  cases hi <;> cases c <;> exact nofun

/-- A read operation leaves all of the block but ERR_STICKY, whether it succeeds or fails. -/
theorem ReadEffect.sameButErrors {s t : State} (h : ReadEffect s t) : SameButErrors s t := by
  cases h with
  | answer r => exact (sameBlock_response s (some r)).1
  | error e info => exact sameButErrors_raised e info s

theorem ReadEffect.sameSurroundings {s t : State} (h : ReadEffect s t) : SameSurroundings s t := by
  cases h with
  | answer r => exact sameSurroundings_response s (some r)
  | error e info => exact sameSurroundings_raised e info s

/-- A read operation that succeeds changes the recorded response alone. -/
theorem ReadEffect.eq_of_ok {s t : State} (h : ReadEffect s t)
    (hok : t.response.map (fun r => r.status) = some .ok) : t = { s with response := t.response } := by
  cases h with
  | answer => rfl
  | error => cases hok

/-- A present frame is serialized: nothing but the response changes (42_frame R179). -/
theorem exec_serialize_present {sel : FrameSel} {s : State} (h : s.present sel = true) :
    exec (.serialize sel) s = .next { s with response := some { rbytes := (s.frame sel).bytes } } :=
  withFrame_present (k := fun m => respond { rbytes := m.bytes } s) h

/-! ### The receiver's partition (20_memory R64) -/

/-- The operations of the receiver: the RX unit's, and those of the frame unit on RXF. -/
inductive IsReceiver : Instr → Prop where
  | rxStart (mode : RxMode) : IsReceiver (.rxStart mode)
  | rxAppend (payload : List Byte) : IsReceiver (.rxAppend payload)
  | rxScan : IsReceiver .rxScan
  | statusRead : IsReceiver .statusRead
  | frameLoadRaw (payload : List Byte) : IsReceiver (.frameLoadRaw .rx payload)
  | frameFromCommand (arg : Byte) : IsReceiver (.frameFromCommand .rx arg)
  | fieldGet (fid : Byte) : IsReceiver (.fieldGet .rx fid)
  | fieldSet (fid : Byte) (v : Word) : IsReceiver (.fieldSet .rx fid v)
  | setDataFlags (fids : List Byte) : IsReceiver (.setDataFlags .rx fids)
  | isValid : IsReceiver (.isValid .rx)
  | frameCrc : IsReceiver (.frameCrc .rx)
  | serialize : IsReceiver (.serialize .rx)

theorem IsReceiver.not_wire {i : Instr} (hi : IsReceiver i) (c : Command) : i ≠ c.instr := by
  cases hi <;> cases c <;> exact nofun

/-- The sender's frame: TXF with its presence bit. -/
def SameTx (s t : State) : Prop := t.txf = s.txf ∧ t.txfPresent = s.txfPresent

theorem ReadEffect.sameTx {s t : State} (h : ReadEffect s t) : SameTx s t := by
  cases h with
  | answer => exact ⟨rfl, rfl⟩
  | error => exact ⟨rfl, rfl⟩

theorem scanned_sameTx (s : State) : SameTx s (scanned s) :=
  ⟨State.receiveLast_txf s _, State.receiveLast_txfPresent s _⟩

/-- No operation of the receiver touches the sender's frame. -/
theorem IsReceiver.sameTx {i : Instr} {s t : State} (hi : IsReceiver i) (h : exec i s = .next t) : SameTx s t := by
  cases hi with
  | rxStart => cases respond_next h; exact ⟨rfl, rfl⟩
  | rxAppend =>
    obtain ⟨-, rfl⟩ | ⟨-, -, rfl⟩ | ⟨-, -, rfl⟩ := execRxAppend_next h
    · exact ⟨rfl, rfl⟩
    · exact ⟨rfl, rfl⟩
    · exact ⟨rfl, rfl⟩
  | rxScan =>
    obtain ⟨-, rfl⟩ | ⟨-, rfl⟩ := execRxScan_next h
    · exact ⟨rfl, rfl⟩
    · exact scanned_sameTx s
  | frameLoadRaw =>
    obtain ⟨-, rfl⟩ | ⟨-, rfl⟩ := execFrameLoadRaw_next h
    · exact ⟨rfl, rfl⟩
    · exact ⟨rfl, rfl⟩
  | frameFromCommand =>
    obtain ⟨-, rfl⟩ | ⟨-, -, -, -, rfl⟩ := execFrameFromCommand_next h
    · exact ⟨rfl, rfl⟩
    · exact ⟨rfl, rfl⟩
  | fieldSet =>
    obtain ⟨-, rfl⟩ | ⟨-, -, rfl⟩ | ⟨-, -, -, -, rfl⟩ | ⟨-, -, -, -, -, rfl⟩ | ⟨-, -, -, -, -, -, -, rfl⟩ :=
      execFieldSet_next h
    · exact ⟨rfl, rfl⟩
    · exact ⟨rfl, rfl⟩
    · exact ⟨rfl, rfl⟩
    · exact ⟨rfl, rfl⟩
    · exact ⟨rfl, rfl⟩
  | setDataFlags =>
    obtain ⟨-, rfl⟩ | ⟨-, -, -, rfl⟩ | ⟨-, -, -, -, -, rfl⟩ := execSetDataFlags_next h
    · exact ⟨rfl, rfl⟩
    · exact ⟨rfl, rfl⟩
    · exact ⟨rfl, rfl⟩
  | statusRead => exact (IsRead.statusRead.effect h).sameTx
  | fieldGet fid => exact ((IsRead.fieldGet .rx fid).effect h).sameTx
  | isValid => exact ((IsRead.isValid .rx).effect h).sameTx
  | frameCrc => exact ((IsRead.frameCrc .rx).effect h).sameTx
  | serialize => exact ((IsRead.serialize .rx).effect h).sameTx

end Sys2Proof.Machine

namespace Sys2Proof.Safety

open Sys2Proof.Machine

/-! ### What the operations that store to no frame leave -/

/-- The CRC operations leave all but CRC_REG, and CRC_READ leaves that too (41_crc R154). -/
theorem crcOperation_frame {i : Instr} {s t : State} (hi : i = .crcInit ∨ (∃ b, i = .crcFeed b) ∨ i = .crcRead)
    (h : exec i s = .next t) :
    SameFrames s t ∧ SameReceiver s t ∧ t.errSticky = s.errSticky ∧ SameSurroundings s t ∧
      (i = .crcRead → t.crcReg = s.crcReg) := by
  obtain ⟨c, r, rfl, hc⟩ : ∃ c r, t = { s with crcReg := c, response := r } ∧ (i = .crcRead → c = s.crcReg) := by
    obtain rfl | ⟨b, rfl⟩ | rfl := hi
    · cases respond_next h; exact ⟨_, _, rfl, nofun⟩
    · cases respond_next h; exact ⟨_, _, rfl, nofun⟩
    · cases respond_next h; exact ⟨_, _, rfl, fun _ => rfl⟩
  exact ⟨sameFrames_of_eq rfl rfl rfl rfl, ⟨rfl, rfl, rfl, rfl⟩, rfl, ⟨rfl, rfl, rfl, rfl⟩, hc⟩

/-- RX_START writes the RX unit and RXF_PRESENT, and no byte of a frame (43_rx_resync R210, 20_memory R50). -/
theorem rxStart_frame {mode : RxMode} {s t : State} (h : exec (.rxStart mode) s = .next t) :
    SameBytes s.txf t.txf ∧ SameBytes s.rxf t.rxf ∧ t.txfPresent = s.txfPresent ∧ t.rxfPresent = false ∧
      t.crcReg = s.crcReg ∧ t.errSticky = s.errSticky ∧ SameSurroundings s t := by
  cases respond_next h
  exact ⟨fun _ => rfl, fun _ => rfl, rfl, rfl, rfl, rfl, rfl, rfl, rfl, rfl⟩

/-- RX_APPEND lets the buffer grow, or fails and leaves it (43_rx_resync R211). -/
theorem rxAppend_frame {payload : List Byte} {s t : State} (h : exec (.rxAppend payload) s = .next t) :
    SameFrames s t ∧ t.crcReg = s.crcReg ∧ t.loopMode = s.loopMode ∧ t.found = s.found ∧ t.done = s.done ∧
      (t.response.map (fun r => r.status) = some .ok → t.errSticky = s.errSticky) ∧
      (t.response.map (fun r => r.status) ≠ some .ok → t.rxbuf = s.rxbuf) ∧ SameSurroundings s t := by
  obtain ⟨-, rfl⟩ | ⟨-, -, rfl⟩ | ⟨-, -, rfl⟩ := execRxAppend_next h
  · exact ⟨sameFrames_raised _ _ s, rfl, rfl, rfl, rfl, nofun, fun _ => rfl, sameSurroundings_raised _ _ s⟩
  · exact ⟨sameFrames_raised _ _ s, rfl, rfl, rfl, rfl, nofun, fun _ => rfl, sameSurroundings_raised _ _ s⟩
  · exact ⟨sameFrames_of_eq rfl rfl rfl rfl, rfl, rfl, rfl, rfl, fun _ => rfl, fun hne => absurd rfl hne,
      rfl, rfl, rfl, rfl⟩

/-! ### The statements -/

/-- Settles O34: the CRC operations, the read operations, RX_START and RX_APPEND, each by what it leaves. -/
theorem nonStoringOperationsKeepFrames : Obligations.NonStoringOperationsKeepFrames := by
  intro i s t h
  refine ⟨fun hi => crcOperation_frame hi h, fun hi => ?_, ?_, ?_⟩
  · have hread : IsRead i := by
      obtain ⟨sel, fid, rfl⟩ | ⟨sel, rfl⟩ | ⟨sel, rfl⟩ | ⟨sel, rfl⟩ | rfl := hi
      · exact .fieldGet sel fid
      · exact .isValid sel
      · exact .frameCrc sel
      · exact .serialize sel
      · exact .statusRead
    exact ⟨(hread.effect h).sameButErrors, (hread.effect h).sameSurroundings⟩
  · rintro ⟨mode, rfl⟩
    exact rxStart_frame h
  · rintro ⟨payload, rfl⟩
    exact rxAppend_frame h

/-- Settles O35: a read operation changes at most the recorded response, and does not see it when it runs again. -/
theorem readOperationsAreIdempotent : Obligations.ReadOperationsAreIdempotent := by
  intro i s t hi h hok
  have hread : IsRead i := by
    obtain ⟨sel, fid, rfl⟩ | ⟨sel, rfl⟩ | ⟨sel, rfl⟩ | ⟨sel, rfl⟩ | rfl | rfl := hi
    · exact .fieldGet sel fid
    · exact .isValid sel
    · exact .frameCrc sel
    · exact .serialize sel
    · exact .crcRead
    · exact .statusRead
  have ht : t = { s with response := t.response } := (hread.effect h).eq_of_ok hok
  refine ⟨ht, ?_⟩
  calc exec i t = exec i { s with response := t.response } := congrArg (exec i) ht
    _ = exec i s := exec_response hread.not_wire s t.response
    _ = .next t := h

/-- Settles O54: SERIALIZE leaves nothing behind that the receiver sees, and the receiver leaves the frame that SERIALIZE
reads. -/
theorem senderAndReceiverCommute : Obligations.SenderAndReceiverCommute := by
  intro i s a b htx hi ha hb
  have hreceiver : IsReceiver i := by
    obtain ⟨mode, rfl⟩ | ⟨p, rfl⟩ | rfl | rfl | ⟨p, rfl⟩ | ⟨arg, rfl⟩ | ⟨fid, rfl⟩ | ⟨fid, v, rfl⟩ | ⟨fids, rfl⟩ | rfl |
      rfl | rfl := hi
    · exact .rxStart mode
    · exact .rxAppend p
    · exact .rxScan
    · exact .statusRead
    · exact .frameLoadRaw p
    · exact .frameFromCommand arg
    · exact .fieldGet fid
    · exact .fieldSet fid v
    · exact .setDataFlags fids
    · exact .isValid
    · exact .frameCrc
    · exact .serialize
  cases (exec_serialize_present (sel := .tx) htx).symm.trans ha
  rw [exec_response hreceiver.not_wire] at hb
  obtain ⟨hbytes, hpresent⟩ := hreceiver.sameTx hb
  have hserialize := exec_serialize_present (sel := .tx) (hpresent.trans htx)
  refine ⟨b, _, hb, hserialize, sameBlock_response b _, rfl, ?_⟩
  show some ({ rbytes := b.txf.bytes } : Response) = some { rbytes := s.txf.bytes }
  rw [hbytes]

end Sys2Proof.Safety
end

section
/-! The encoding family: that the decoder (30_encoding R109), the opcode table (R103, R104) and the encoder (R110) speak of
the same operations. One circle: what decodes has a row that admits it, what a row admits is the encoding of an
instruction, and an encoding decodes to its instruction. -/

namespace Sys2Proof

/-! ### The fields of a built operation (30_encoding R101) -/

section BuiltOperation
variable (arg fid : Byte) (sel : BitVec 1) (op : Byte) (value : Word) (payload : List Byte)

@[simp] theorem opcode_commandWord : Operation.opcode ⟨commandWord arg fid sel op, value, payload⟩ = op :=
  commandWord_opcode arg fid sel op

@[simp] theorem sel_commandWord : Operation.sel ⟨commandWord arg fid sel op, value, payload⟩ = sel :=
  commandWord_sel arg fid sel op

@[simp] theorem rsv_commandWord : Operation.rsv ⟨commandWord arg fid sel op, value, payload⟩ = 0 :=
  commandWord_rsv arg fid sel op

@[simp] theorem fid_commandWord : Operation.fid ⟨commandWord arg fid sel op, value, payload⟩ = fid :=
  commandWord_fid arg fid sel op

@[simp] theorem arg_commandWord : Operation.arg ⟨commandWord arg fid sel op, value, payload⟩ = arg :=
  commandWord_arg arg fid sel op

end BuiltOperation

/-- An operation with RSV 0 is the one built from its fields. -/
theorem operation_eq_built {o : Operation} {arg fid op : Byte} {sel : BitVec 1} {value : Word} {payload : List Byte}
    (hrsv : o.rsv = 0) (hop : o.opcode = op) (hsel : o.sel = sel) (hfid : o.fid = fid) (harg : o.arg = arg)
    (hvalue : o.value = value) (hpayload : o.payload = payload) :
    Encoded.operation { word := commandWord arg fid sel op, value := value, payload := payload } = .operation o := by
  subst hop hsel hfid harg hvalue hpayload
  exact congrArg (fun w => Encoded.operation { o with word := w }) (word_eq_commandWord o.word hrsv).symm

/-! ### The bits of ARG -/

/-- The decoder asks that bits 7:1 of ARG are 0, the table that ARG has no bit but bit 0. -/
theorem arg_bits_zero_iff (a : Byte) : a.extractLsb' 1 7 = 0#7 ↔ a &&& 0xFE#8 = 0#8 := by
  revert a; decide

theorem RxMode.arg_bits_zero (m : RxMode) : m.arg.extractLsb' 1 7 = 0 := by cases m <;> decide

/-- LOOP from ARG and back (43_rx_resync R210). -/
theorem RxMode.arg_ofArg {a : Byte} (h : a &&& 0xFE#8 = 0) : (RxMode.ofArg a).arg = a := by
  revert a; decide

/-- The unused bits of an ARG that is not used at all are all of it. -/
theorem byte_and_ones (a : Byte) : a &&& 0xFF#8 = a := BitVec.and_allOnes

/-! ### The table (30_encoding R103, R104) -/

theorem OpcodeRow.admits_iff {r : OpcodeRow} {o : Operation} :
    r.admits o = true ↔
      o.rsv = 0 ∧ (r.usesSel = true ∨ o.sel = 0) ∧ (r.usesFid = true ∨ o.fid = 0) ∧ o.arg &&& ~~~r.argBits = 0 ∧
        (r.usesValue = true ∨ o.value = 0) ∧ (r.usesPayload = true ∨ o.payload = []) := by
  simp only [OpcodeRow.admits, Bool.and_eq_true, Bool.or_eq_true, beq_iff_eq, List.isEmpty_iff, and_assoc]
  rfl

theorem Operation.wellFormed_iff {o : Operation} :
    o.wellFormed = true ↔ ∃ r ∈ opcodeRows, r.op = o.opcode ∧ r.admits o = true := by
  simp only [Operation.wellFormed, List.any_eq_true, Bool.and_eq_true, beq_iff_eq]
  rfl

/-- What decodes is admitted by its opcode's row: each line of R109 requires what the row of R103 leaves unused. -/
theorem wellFormed_of_decodeOperation {o : Operation} {i : Instr} (h : decodeOperation o = .ok i) :
    o.wellFormed = true := by
  obtain ⟨hrsv, hselect, hvalue, hpayload⟩ := decodeOperation_ok.mp h
  rw [Operation.wellFormed_iff]
  unfold Operation.select at hselect
  dsimp only at hselect
  iterate 15
    rcases line_ok hselect with ⟨hop, hline⟩ | ⟨-, hselect⟩
    · obtain ⟨hzero, -⟩ := requireZero_ok hline
      simp_all [opcodeRows, OpcodeRow.admits_iff, arg_bits_zero_iff]
  cases hselect

/-- What a row admits is the encoding of an instruction: the row's, with the operands the row uses. -/
theorem exists_encode_of_wellFormed {o : Operation} (h : o.wellFormed = true) : ∃ i, encode i = .operation o := by
  obtain ⟨r, hr, hop, hadmits⟩ := Operation.wellFormed_iff.mp h
  obtain ⟨hrsv, hsel, hfid, harg, hvalue, hpayload⟩ := OpcodeRow.admits_iff.mp hadmits
  have hbit := (FrameSel.bit_ofBit o.sel).symm
  simp only [opcodeRows, List.mem_cons, List.not_mem_nil, or_false] at hr
  rcases hr with rfl | rfl | rfl | rfl | rfl | rfl | rfl | rfl | rfl | rfl | rfl | rfl | rfl | rfl | rfl <;>
    simp only [Bool.false_eq_true, false_or, BitVec.reduceNot, byte_and_ones] at hsel hfid harg hvalue hpayload
  · exact ⟨.crcInit, operation_eq_built hrsv hop.symm hsel hfid harg hvalue hpayload⟩
  · exact ⟨.crcFeed o.arg, operation_eq_built hrsv hop.symm hsel hfid rfl hvalue hpayload⟩
  · exact ⟨.crcRead, operation_eq_built hrsv hop.symm hsel hfid harg hvalue hpayload⟩
  · exact ⟨.frameLoadRaw _ o.payload, operation_eq_built hrsv hop.symm hbit hfid harg hvalue rfl⟩
  · exact ⟨.frameFromCommand _ o.arg, operation_eq_built hrsv hop.symm hbit hfid rfl hvalue hpayload⟩
  · exact ⟨.fieldGet _ o.fid, operation_eq_built hrsv hop.symm hbit rfl harg hvalue hpayload⟩
  · exact ⟨.fieldSet _ o.fid o.value, operation_eq_built hrsv hop.symm hbit rfl harg rfl hpayload⟩
  · exact ⟨.setDataFlags _ o.payload, operation_eq_built hrsv hop.symm hbit hfid harg hvalue rfl⟩
  · exact ⟨.isValid _, operation_eq_built hrsv hop.symm hbit hfid harg hvalue hpayload⟩
  · exact ⟨.frameCrc _, operation_eq_built hrsv hop.symm hbit hfid harg hvalue hpayload⟩
  · exact ⟨.serialize _, operation_eq_built hrsv hop.symm hbit hfid harg hvalue hpayload⟩
  · exact ⟨.rxStart _, operation_eq_built hrsv hop.symm hsel hfid (RxMode.arg_ofArg harg).symm hvalue hpayload⟩
  · exact ⟨.rxAppend o.payload, operation_eq_built hrsv hop.symm hsel hfid harg hvalue rfl⟩
  · exact ⟨.rxScan, operation_eq_built hrsv hop.symm hsel hfid harg hvalue hpayload⟩
  · exact ⟨.statusRead, operation_eq_built hrsv hop.symm hsel hfid harg hvalue hpayload⟩

/-! ### The encoder (30_encoding R110) -/

/-- An operation built from a line's opcode and operands decodes to what the line selects. -/
theorem decodeOperation_built {arg fid op : Byte} {sel : BitVec 1} {value : Word} {payload : List Byte} {i : Instr}
    (hselect : Operation.select ⟨commandWord arg fid sel op, value, payload⟩ = .ok i)
    (hvalue : op = 0x13 ∨ value = 0) (hpayload : op = 0x10 ∨ op = 0x14 ∨ op = 0x21 ∨ payload = []) :
    decodeOperation ⟨commandWord arg fid sel op, value, payload⟩ = .ok i :=
  decodeOperation_ok.mpr ⟨by simp, hselect, by simpa using hvalue, by simpa using hpayload⟩

/-- A command's code decodes to the command. -/
theorem decodeWire_code (c : Command) : decodeWire c.code = .ok c.instr := by
  rw [decodeWire, Command.ofCode_code]

/-- An encoding decodes to its instruction. -/
theorem decode_encode (i : Instr) : decode (encode i) = .ok i := by
  cases i with
  | crcInit | crcRead | rxScan | statusRead | crcFeed b | frameLoadRaw sel p | frameFromCommand sel arg | fieldGet sel fid
  | fieldSet sel fid v | setDataFlags sel p | isValid sel | frameCrc sel | serialize sel | rxAppend p =>
    exact decodeOperation_built (by simp [Operation.select, requireZero]) (by simp) (by simp)
  | rxStart mode =>
    exact decodeOperation_built (by simpa [Operation.select, requireZero] using mode.arg_bits_zero) (by simp) (by simp)
  | cmdNothing => exact decodeWire_code .nothing
  | cmdGet => exact decodeWire_code .get
  | cmdSet => exact decodeWire_code .set
  | cmdButton => exact decodeWire_code .button
  | cmdShutdown => exact decodeWire_code .shutdown

/-- The encoding of a wire command is its code (30_encoding R87). -/
theorem encode_instr (c : Command) : encode c.instr = .wire c.code := by cases c <;> rfl

/-! ### The circle closed -/

/-- An operation that encodes an instruction decodes to it. -/
theorem decodeOperation_of_encode {o : Operation} {i : Instr} (h : encode i = .operation o) :
    decodeOperation o = .ok i := by
  rw [← decode_encode i, h, decode]

/-- The table admits what decodes, and nothing else (30_encoding R104, R106). -/
theorem decodes_iff_wellFormed (o : Operation) : (∃ i, decodeOperation o = .ok i) ↔ o.wellFormed = true :=
  ⟨fun ⟨_, h⟩ => wellFormed_of_decodeOperation h,
    fun h => (exists_encode_of_wellFormed h).imp fun _ => decodeOperation_of_encode⟩

/-- What the table does not admit does not decode. -/
theorem decodeOperation_error_of_not_wellFormed {o : Operation} (h : o.wellFormed = false) :
    ∃ e, decodeOperation o = .error e := by
  cases hd : decodeOperation o with
  | ok i => exact absurd (wellFormed_of_decodeOperation hd) (by simp [h])
  | error e => exact ⟨e, rfl⟩

/-- An operation that decodes is the encoding of some instruction, and that is the one it decodes to. -/
theorem encode_of_decodeOperation {o : Operation} {i : Instr} (h : decodeOperation o = .ok i) :
    encode i = .operation o := by
  obtain ⟨j, hj⟩ := exists_encode_of_wellFormed (wellFormed_of_decodeOperation h)
  have hij : i = j := Except.ok.inj (h.symm.trans (decodeOperation_of_encode hj))
  rw [hij, hj]

/-! ### The table's numbering (log 27) -/

theorem decodeTableWord_of_encode {nbits w : Nat} {i : Instr} (h : encode i = Encoded.ofBits nbits w) :
    decodeTableWord nbits w = some i := by
  rw [decodeTableWord, ← h, decode_encode]

theorem decodeTableWord_of_error {nbits w : Nat} {e : DecodeError} (h : decode (Encoded.ofBits nbits w) = .error e) :
    decodeTableWord nbits w = none := by
  rw [decodeTableWord, h]

/-! ### The statements -/

/-- Settles O41: one instruction at a time, its opcode selecting its line of R109. -/
theorem decodeOfEncodeIsIdentity : Obligations.DecodeOfEncodeIsIdentity := decode_encode

/-- Settles O42: the two carriers, a command word by the circle above, a COMMAND byte by its command. -/
theorem encodeOfDecodeIsIdentity : Obligations.EncodeOfDecodeIsIdentity := by
  intro x i h
  cases x with
  | operation o => exact encode_of_decodeOperation h
  | wire code =>
    obtain ⟨c, rfl, rfl⟩ := decodeWire_ok h
    exact encode_instr c

/-- Settles O39: what decodes has its row, and what a row admits is an encoding, which decodes. -/
theorem decoderAcceptsExactlyTheTable : Obligations.DecoderAcceptsExactlyTheTable := decodes_iff_wellFormed

/-- Settles O43: each legal word is the encoding of its instruction; RSV is not 0 in the first of the other two, and 4 is
no command. -/
theorem sampleWordsDecode : Obligations.SampleWordsDecode := by
  refine ⟨decodeTableWord_of_encode ?_, decodeTableWord_of_encode ?_, decodeTableWord_of_encode ?_,
    decodeTableWord_of_encode ?_, decodeTableWord_of_encode ?_, decodeTableWord_of_encode ?_,
    decodeTableWord_of_encode ?_, decodeTableWord_of_error (e := .reservedBits) ?_,
    decodeTableWord_of_error (e := .notACommand) ?_⟩ <;> decide

end Sys2Proof

namespace Sys2Proof.Safety

open Sys2Proof.Machine

/-- Settles O40: an operation that the table does not admit does not decode, so the port raises ILLEGAL_OP. -/
theorem illegalOperationRaisesIllegalOp : Obligations.IllegalOperationRaisesIllegalOp := by
  intro o rest s hevents hwf
  obtain ⟨e, hdecode⟩ := decodeOperation_error_of_not_wellFormed hwf
  have hstep : step s = .next (raised .illegalOp o.word (accept { s with events := rest })) :=
    calc step s = issue o { s with events := rest } := step_cons hevents
      _ = _ := issue_illegal hdecode
  exact ⟨_, hstep, rfl, rfl, sameButErrors_raised .illegalOp o.word _, rfl, rfl, rfl, rfl⟩

end Sys2Proof.Safety
end

section
/-! The codec family: what each kind decodes to (40_codec), the bytes a field operation leaves in the frame, and FIELD_SET
and FIELD_GET seen together (42_frame R173, R174). -/

namespace Sys2Proof.Machine

/-! ### Numbers (40_codec R131 to R133, R137 to R139) -/

/-- Encoding then decoding a byte, word or integer (40_codec R142): the bytes of the value put together again. -/
theorem decodeField_leBytes {k : Kind} {n : Nat} {v : Word}
    (hkind : k = .byte ∧ n = 1 ∨ k = .word ∧ n = 2 ∨ k = .integer ∧ n = 4) (hfits : v.toNat < 2 ^ (8 * n)) :
    (decodeField k (leBytes n v)).rvalue = v := by
  have hbyte : ∀ i, i < n → (byteAt (leBytes n v) i).toNat = v.toNat / 2 ^ (8 * i) % 256 := fun i hi => by
    rw [byteAt, leBytes_getD n v i hi, BitVec.toNat_setWidth, BitVec.toNat_ushiftRight, Nat.shiftRight_eq_div_pow]
  refine BitVec.eq_of_toNat_eq ?_
  rcases hkind with ⟨rfl, rfl⟩ | ⟨rfl, rfl⟩ | ⟨rfl, rfl⟩
  · rw [decodeField, BitVec.toNat_setWidth, hbyte 0 (by omega)]
    omega
  · rw [decodeField, BitVec.toNat_setWidth, le16_toNat, hbyte 0 (by omega), hbyte 1 (by omega)]
    omega
  · rw [decodeField, rawWord, le32_toNat, hbyte 0 (by omega), hbyte 1 (by omega), hbyte 2 (by omega), hbyte 3 (by omega)]
    omega

/-! ### Strings (40_codec R134) -/

/-- The text is the beginning of the field. -/
theorem stringText_isPrefix (bs : List Byte) : stringText bs <+: bs := List.takeWhile_prefix _

theorem take_length_stringText (bs : List Byte) : bs.take (stringText bs).length = stringText bs :=
  (List.prefix_iff_eq_take.mp (stringText_isPrefix bs)).symm

theorem getD_ne_zero_of_lt_stringText {bs : List Byte} {i : Nat} (h : i < (stringText bs).length) : bs.getD i 0 ≠ 0 := by
  have hget : bs.getD i 0 = (stringText bs)[i] := by
    rw [List.getD_eq_getElem _ _ (h.trans_le (stringText_isPrefix bs).length_le), (stringText_isPrefix bs).getElem h]
  rw [hget]
  simpa using List.mem_takeWhile_imp (List.getElem_mem h)

/-- The byte after the text is the first zero byte. -/
theorem getD_length_stringText (bs : List Byte) : bs.getD (stringText bs).length 0 = 0 := by
  induction bs with
  | nil => rfl
  | cons b bs ih =>
    by_cases hb : b = 0
    · simp [stringText, hb]
    · have htext : stringText (b :: bs) = b :: stringText bs := List.takeWhile_cons_of_pos (by simpa using hb)
      rw [htext, List.length_cons, List.getD_cons_succ, ih]

theorem nonAscii_iff (text : List Byte) : nonAscii text = true ↔ ∃ b ∈ text, 0x80 ≤ b.toNat := by simp [nonAscii]

/-- RFLAGS[4:0] of a string, bit by bit: NON_ASCII is bit 1, UNTERMINATED bit 2, the others are 0. -/
theorem stringFlags_bits (n : Nat) (text : List Byte) :
    (stringFlags n text).getLsbD 0 = false ∧ (stringFlags n text).getLsbD 1 = nonAscii text ∧
    (stringFlags n text).getLsbD 2 = (text.length == n) ∧ (stringFlags n text).getLsbD 3 = false ∧
    (stringFlags n text).getLsbD 4 = false := by
  unfold stringFlags
  generalize (text.length == n) = unterminated
  generalize nonAscii text = high
  revert unterminated high
  decide

/-- A byte below 0x80 is the ASCII character of its code. -/
theorem asciiChar_of_lt {b : Byte} (h : b.toNat < 0x80) : asciiChar b = some (Char.ofNat b.toNat) := if_pos h

/-! ### Temperatures (40_codec R135) -/

theorem isSentinel_iff (raw : Word) : isSentinel raw = true ↔ raw = 0 ∨ 0xFFFFFFFD ≤ raw.toNat := by
  simp [isSentinel]

theorem temperatureFlags_eq (raw : Word) :
    temperatureFlags raw = if raw = 0 ∨ 0xFFFFFFFD ≤ raw.toNat then 1 else 0 := by
  simp only [← isSentinel_iff]
  cases h : isSentinel raw <;> simp [temperatureFlags, h]

/-- `T(raw)` with the fraction divided out. -/
theorem temperatureOf_eq (raw : Word) :
    temperatureOf raw = if raw = 0 ∨ 0xFFFFFFFD ≤ raw.toNat then -300 else (raw.toNat : Rat) / 100000 - 300 := by
  simp only [temperatureOf, isSentinel_iff]
  congr 1
  rw [Rat.mkRat_eq_div]
  push_cast
  ring

/-! ### The bytes of a range -/

/-- A range of the frame reads as `bs` when each of its addresses does. -/
theorem Memory.readRange_of_read {m : Memory} {o : Nat} {bs : List Byte} (hrange : o + bs.length ≤ 128)
    (hread : ∀ i, i < bs.length → m.read (o + i) = some (bs.getD i 0)) : m.readRange o bs.length = some bs := by
  rw [Memory.readRange, if_pos (show o + bs.length ≤ frameLen from hrange)]
  congr 1
  refine List.ext_getElem (by simp) fun i _ hi => ?_
  have hcell := hread i hi
  rw [Memory.read, if_pos (show o + i < frameLen by simp only [frameLen]; omega), List.getD_eq_getElem _ _ hi] at hcell
  simpa using hcell

/-- Bytes stored below the checksum are still there when the frame is sealed (42_frame R174, R175). -/
theorem readRange_storeChecksum_writeRange {m m' : Memory} {o : Nat} {bs : List Byte} (init : Half)
    (hwrite : m.writeRange o bs = some m') (hwf : m.wf = true) (hend : o + bs.length ≤ 126) :
    (storeChecksum init m').readRange o bs.length = some bs := by
  obtain ⟨-, hkeep, hread⟩ := Memory.writeRange_spec m m' o bs hwrite
  refine Memory.readRange_of_read (by omega) fun i hi => ?_
  have hframe : o + i < frameLen := by simp only [frameLen]; omega
  rw [storeChecksum_read init m' (o + i) (hkeep hwf) (.inl (by omega)), hread hwf, if_pos (by omega), if_pos hframe,
    Nat.add_sub_cancel_left]

/-! ### FIELD_GET and FIELD_SET, one path at a time (42_frame R173, R174) -/

section FieldOperations
variable {sel : FrameSel} {fid : Byte} {s : State} {d : Descriptor}

theorem exec_fieldGet : exec (.fieldGet sel fid) s = execFieldGet sel fid s := rfl

theorem exec_fieldSet {v : Word} : exec (.fieldSet sel fid v) s = execFieldSet sel fid v s := rfl

theorem exec_fieldGet_absent (hp : s.present sel = false) :
    exec (.fieldGet sel fid) s = .next (raised .noFrame (selWord sel) s) := by
  rw [exec_fieldGet, execFieldGet, withFrame_absent hp]

theorem exec_fieldGet_field {bs : List Byte} (hp : s.present sel = true) (hd : desc s.config fid = some d)
    (hbytes : (s.frame sel).readRange d.offset d.length = some bs) :
    exec (.fieldGet sel fid) s = .next { s with response := some (fieldResponse d.kind bs) } := by
  rw [exec_fieldGet, execFieldGet, withFrame_present hp]
  simp only [hd, hbytes, respond]

/-- A field outside the frame, which no configuration of 00_scope R9 has (log 11). -/
theorem exec_fieldGet_outside (hp : s.present sel = true) (hd : desc s.config fid = some d)
    (hbytes : (s.frame sel).readRange d.offset d.length = none) :
    exec (.fieldGet sel fid) s = .fault (.noSuchAddress d.offset d.length) := by
  rw [exec_fieldGet, execFieldGet, withFrame_present hp]
  simp only [hd, hbytes]

/-- FIELD_GET sees the range and the kind of a field, not its id. -/
theorem exec_fieldGet_congr {fid' : Byte} {e : Descriptor} (hd : desc s.config fid = some d)
    (he : desc s.config fid' = some e) (hoffset : d.offset = e.offset) (hlength : d.length = e.length)
    (hkind : d.kind = e.kind) : exec (.fieldGet sel fid) s = exec (.fieldGet sel fid') s := by
  have hsame : (s.frame sel).readRange d.offset d.length = (s.frame sel).readRange e.offset e.length := by
    rw [hoffset, hlength]
  cases hp : s.present sel with
  | false => rw [exec_fieldGet_absent hp, exec_fieldGet_absent hp]
  | true =>
    cases hbytes : (s.frame sel).readRange d.offset d.length with
    | none =>
      rw [exec_fieldGet_outside hp hd hbytes, exec_fieldGet_outside hp he (hsame ▸ hbytes), hoffset, hlength]
    | some bs =>
      rw [exec_fieldGet_field hp hd hbytes, exec_fieldGet_field hp he (hsame ▸ hbytes), hkind]

/-- A value that fits a field of the frame is stored and the frame sealed. -/
theorem exec_fieldSet_field {v : Word} (hp : s.present sel = true) (hd : desc s.config fid = some d)
    (hkind : encodable d.kind = true) (hfits : v.toNat < 2 ^ (8 * d.length)) (hrange : d.offset + d.length ≤ 128) :
    ∃ m, (s.frame sel).writeRange d.offset (leBytes d.length v) = some m ∧
      exec (.fieldSet sel fid v) s =
        .next { s.setFrame sel (storeChecksum s.config.crcInit m) with response := some {} } := by
  obtain ⟨m, hwrite, hsealed⟩ := sealedWrite_in_frame (init := s.config.crcInit) (m := s.frame sel)
    (k := fun m' => respond {} (s.setFrame sel m')) (show d.offset + (leBytes d.length v).length ≤ 128 by simpa using hrange)
  refine ⟨m, hwrite, ?_⟩
  rw [exec_fieldSet, execFieldSet, withFrame_present hp]
  simp only [hd, hkind, fitsBytes, hfits, decide_true, Bool.true_eq_false, if_false]
  exact hsealed

end FieldOperations

/-! ### The calibration values (30_encoding R83) -/

/-- Ids from 4 on are no fixed field (30_encoding R82). -/
theorem fixedField_none {c : Config} {fid : Byte} (h : 4 ≤ fid.toNat) : fixedField c fid = none := by
  have hne : ∀ b : Byte, b.toNat < 4 → fid ≠ b := fun b hb e => absurd (e ▸ h) (Nat.not_le.mpr hb)
  rw [fixedField, if_neg (hne 0 (by decide)), if_neg (hne 1 (by decide)), if_neg (hne 2 (by decide)),
    if_neg (hne 3 (by decide))]

theorem desc_of_calibrationField {c : Config} {fid : Byte} {d : Descriptor} (h : 4 ≤ fid.toNat)
    (hd : calibrationField c fid = some d) : desc c fid = some d := by
  simp only [desc, fixedField_none h, hd]

/-- The three calibration ids stand for one storage under three names. -/
theorem desc_calibration {c : Config} {k : Calibration} (hc : c.calibration = some k) (hwf : c.wellFormed = true) :
    desc c k.id1 = some (Calibration.descriptor k "CALIBRATION_VALUE_1") ∧
    desc c k.id2 = some (Calibration.descriptor k "CALIBRATION_VALUE_2") ∧
    desc c k.id3 = some (Calibration.descriptor k "CALIBRATION_VALUE_3") := by
  obtain ⟨-, -, hcal⟩ := Config.wellFormed_parts hwf
  have hk := hcal k hc
  simp only [Calibration.wellFormed, Bool.and_eq_true, decide_eq_true_eq] at hk
  obtain ⟨⟨⟨⟨h12, h13, h23⟩, h1, h2, h3⟩, -⟩, -⟩ := hk
  refine ⟨desc_of_calibrationField h1 ?_, desc_of_calibrationField h2 ?_, desc_of_calibrationField h3 ?_⟩
  · simp [calibrationField, hc]
  · simp [calibrationField, hc, h12.symm]
  · simp [calibrationField, hc, h13.symm, h23.symm]

end Sys2Proof.Machine

namespace Sys2Proof.Safety

open Sys2Proof.Machine

/-! ### The statements -/

/-- Settles O6: the assembled bytes as a number, kind by kind, and the two exact renderings. -/
theorem numericKindsDecodeLittleEndian : Obligations.NumericKindsDecodeLittleEndian := by
  refine ⟨fun b0 => ⟨?_, rfl, rfl⟩, fun b0 b1 => ⟨?_, rfl, rfl⟩, fun k b0 b1 b2 b3 hk => ?_, fun raw => rfl, fun raw => ?_⟩
  · exact BitVec.toNat_setWidth_of_le (by decide)
  · exact (BitVec.toNat_setWidth_of_le (by decide)).trans (le16_toNat b0 b1)
  · rcases hk with rfl | rfl | rfl <;> exact ⟨le32_toNat b0 b1 b2 b3, rfl, rfl⟩
  · rw [renderValue, Rat.mkRat_eq_div]
    rfl

/-- Settles O7: the position sought is the length of the text. -/
theorem stringDecodesUpToFirstZero : Obligations.StringDecodesUpToFirstZero := by
  refine ⟨fun bs v => ⟨bs.map asciiChar, rfl, List.length_map _, fun i hi hlow => ?_⟩, fun bs _ => ?_⟩
  · rw [List.getD_eq_getElem _ _ hi] at hlow ⊢
    rw [List.getD_eq_getElem _ _ (by simpa using hi), List.getElem_map, asciiChar_of_lt hlow]
  · obtain ⟨hbit0, hnonAscii, hunterminated, hbit3, hbit4⟩ := stringFlags_bits bs.length (stringText bs)
    refine ⟨(stringText bs).length, (stringText_isPrefix bs).length_le, fun i hi => getD_ne_zero_of_lt_stringText hi,
      fun _ => getD_length_stringText bs, (take_length_stringText bs).symm, rfl, hbit0, ?_, ?_, hbit3, hbit4⟩
    · rw [take_length_stringText, ← nonAscii_iff, ← hnonAscii]
      rfl
    · exact hunterminated ▸ beq_iff_eq

/-- Settles O8: decoding shows the raw number, and the sentinels are read off it. -/
theorem temperatureFlagsSentinels : Obligations.TemperatureFlagsSentinels := fun b0 b1 b2 b3 =>
  ⟨rfl, temperatureFlags_eq (le32 b0 b1 b2 b3), rfl, temperatureOf_eq (le32 b0 b1 b2 b3)⟩

/-- Settles O9. -/
theorem codecRoundTrips : Obligations.CodecRoundTrips := fun _ _ _ hkind hfits => decodeField_leBytes hkind hfits

/-- Settles O18: the bytes FIELD_SET stores are those FIELD_GET reads, and they decode to the value. -/
theorem fieldSetThenGetReturnsValue : Obligations.FieldSetThenGetReturnsValue := by
  intro sel fid v d s hp hc hwf hd hkind hend hfits
  have henc : encodable d.kind = true := by rcases hkind with h | h | h <;> rw [h] <;> rfl
  obtain ⟨hrange, hlength⟩ := desc_in_frame hc hd
  obtain ⟨m, hwrite, hset⟩ := exec_fieldSet_field hp hd henc hfits hrange
  have hbytes := readRange_storeChecksum_writeRange s.config.crcInit hwrite hwf (by simpa using hend)
  rw [length_leBytes] at hbytes
  refine ⟨_, _, hset, exec_fieldGet_field (d := d) (bs := leBytes d.length v) ?_ ?_ ?_, ?_⟩
  · rw [State.response_present, State.setFrame_present, hp]
  · simpa using hd
  · rw [State.response_frame, State.setFrame_frame, hbytes]
  · have hvalue := decodeField_leBytes (encodable_length henc hlength) hfits
    simp [fieldResponse, hvalue]

/-- Settles O19: FIELD_GET does not see the id, and the three calibration ids have one range and one kind. -/
theorem aliasedFieldsDecodeEqual : Obligations.AliasedFieldsDecodeEqual := by
  refine ⟨fun _ _ _ _ _ _ => exec_fieldGet_congr, fun _ k s hk hc => ?_⟩
  obtain ⟨h1, h2, h3⟩ := desc_calibration hk hc
  exact ⟨exec_fieldGet_congr h1 h2 rfl rfl rfl, exec_fieldGet_congr h2 h3 rfl rfl rfl⟩

end Sys2Proof.Safety
end

section
/-! The CRC family (41_crc): the bit step one iteration at a time, a sequence with one byte replaced, the three
operations and the stream they make on the machine. -/

namespace Sys2Proof.Machine

open Sys2Proof.Safety

/-! ### The function (41_crc R150 to R152) -/

/-- The last of `n + 1` iterations, where the definition peels off the first. -/
theorem crcBits_succ_last (n : Nat) (rb : Half × Byte) :
    crcBits (n + 1) rb = crcBit (crcBits n rb).1 (crcBits n rb).2 := by
  induction n generalizing rb with
  | zero => rfl
  | succ n ih => exact ih (crcBit rb.1 rb.2)

theorem crc16_nil (init : Half) : crc16 init [] = ~~~ init := rfl

/-- One more byte: the checksum complemented back, one byte step, and the complement again (41_crc R152). -/
theorem crc16_append_byte (init : Half) (bs : List Byte) (b : Byte) :
    crc16 init (bs ++ [b]) = ~~~ (crcByte (~~~ (crc16 init bs)) b) := by
  rw [not_crc16, crc16, crcRegister_append, crcRegister_cons, crcRegister_nil]

/-- The values of 41_crc R161, for <01> and for "123456789", under both initial values. -/
theorem crc16_checkValues :
    crc16 0x0000 [0x01] = 0x3F3E ∧ crc16 0xFFFF [0x01] = 0x7F81 ∧
    crc16 0x0000 [0x31, 0x32, 0x33, 0x34, 0x35, 0x36, 0x37, 0x38, 0x39] = 0x44C2 ∧
    crc16 0xFFFF [0x31, 0x32, 0x33, 0x34, 0x35, 0x36, 0x37, 0x38, 0x39] = 0xB4C8 := by
  simp [crc16, crcByte, crcBits, crcBit, crcPolyR]

/-! ### One byte replaced (41_crc R160) -/

/-- Distinct registers stay distinct over the same bytes. -/
theorem crcRegister_injective (bs : List Byte) {r r' : Half} (h : crcRegister r bs = crcRegister r' bs) : r = r' := by
  induction bs generalizing r r' with
  | nil => exact h
  | cons b bs ih => exact crcByte_register_injective b (ih h)

/-- A replaced byte makes the register differ at its place, and the bytes behind it keep the difference. -/
theorem crcRegister_set_ne {bs : List Byte} {i : Nat} {b : Byte} (r : Half) (hi : i < bs.length)
    (hb : b ≠ bs.getD i 0) : crcRegister r (bs.set i b) ≠ crcRegister r bs := by
  induction bs generalizing r i with
  | nil => exact absurd hi (Nat.not_lt_zero i)
  | cons a bs ih =>
    cases i with
    | zero => exact fun h => hb (crcByte_byte_injective r (crcRegister_injective bs h))
    | succ i => exact ih (crcByte r a) (Nat.lt_of_succ_lt_succ hi) hb

section ReplacedByte
variable {w : List Byte} {i : Nat} {b : Byte}

theorem byteAt_set_self (hi : i < w.length) : byteAt (w.set i b) i = b := by simp [byteAt, hi]

theorem byteAt_set_ne {j : Nat} (h : i ≠ j) : byteAt (w.set i b) j = byteAt w j := by simp [byteAt, h]

/-- The checksum covers each of bytes 0..125 (41_crc R153). -/
theorem frameCrcOf_set_ne (init : Half) (hi : i < 126) (hw : i < w.length) (hb : b ≠ w.getD i 0) :
    frameCrcOf init (w.set i b) ≠ frameCrcOf init w := by
  have hlength : i < (w.take crcLen).length := by simp only [List.length_take, crcLen]; omega
  have hbyte : b ≠ (w.take crcLen).getD i 0 := by simpa [List.getD, crcLen, hi] using hb
  have hregister := crcRegister_set_ne init hlength hbyte
  rw [frameCrcOf, frameCrcOf, List.take_set]
  exact fun h => hregister (by rw [← not_crc16, ← not_crc16, h])

/-- The checksum covers no byte from 126 on. -/
theorem frameCrcOf_set_of_le (init : Half) (hi : 126 ≤ i) : frameCrcOf init (w.set i b) = frameCrcOf init w := by
  have hlength : (w.take crcLen).length ≤ i := (List.length_take_le crcLen w).trans hi
  rw [frameCrcOf, List.take_set, List.set_eq_of_length_le hlength, frameCrcOf]

theorem checksumWord_set_of_lt (hi : i < 126) : checksumWord (w.set i b) = checksumWord w := by
  rw [checksumWord, byteAt_set_ne (by simp only [cksumOff]; omega), byteAt_set_ne (by simp only [cksumOff]; omega),
    checksumWord]

/-- The stored word shows each of its two bytes (20_memory R54). -/
theorem checksumWord_set_ne (hi : i = 126 ∨ i = 127) (hw : i < w.length) (hb : b ≠ w.getD i 0) :
    checksumWord (w.set i b) ≠ checksumWord w := by
  intro h
  obtain ⟨hlow, hhigh⟩ := le16_injective h
  obtain rfl | rfl := hi
  · exact hb ((byteAt_set_self hw).symm.trans hlow)
  · exact hb ((byteAt_set_self hw).symm.trans hhigh)

theorem validFrame_iff (init : Half) (w : List Byte) :
    validFrame init w = true ↔ frameCrcOf init w = checksumWord w := beq_iff_eq

/-- One replaced byte changes exactly one side of the comparison of 41_crc R156. -/
theorem not_validFrame_set {init : Half} (hw : w.length = 128) (hi : i < 128) (hb : b ≠ w.getD i 0)
    (hvalid : validFrame init w = true) : ¬ validFrame init (w.set i b) = true := by
  rw [validFrame_iff] at hvalid ⊢
  by_cases hcovered : i < 126
  · rw [checksumWord_set_of_lt hcovered, ← hvalid]
    exact frameCrcOf_set_ne init hcovered (by omega) hb
  · rw [frameCrcOf_set_of_le init (by omega), hvalid]
    exact (checksumWord_set_ne (by omega) (by omega) hb).symm

end ReplacedByte

/-! ### The operations (41_crc R155, R157, R158) -/

theorem exec_crcInit (s : State) :
    exec .crcInit s = .next { s with crcReg := s.config.crcInit, response := some {} } := rfl

theorem exec_crcFeed (b : Byte) (s : State) :
    exec (.crcFeed b) s = .next { s with crcReg := crcByte s.crcReg b, response := some {} } := rfl

theorem exec_crcRead (s : State) :
    exec .crcRead s = .next { s with response := some { rvalue := (~~~ s.crcReg).setWidth 32 } } := rfl

/-- The word of CRC_FEED: ARG is the data byte, in bits 31:24 (30_encoding R101). -/
theorem commandWord_crcFeed (b : Byte) : commandWord b 0 0 0x02 = 0x00000002 ||| (b.setWidth 32 <<< 24) := by
  revert b; decide

/-! ### The stream on the machine (41_crc R159) -/

/-- The inputs that issue these instructions, one operation each. -/
def inputsOf (is : List Instr) : List Event := is.map (fun i => .operation (operationOf i))

/-- `s` after `n` operations of the CRC unit: what they write of the state, with `rest` as the inputs still to come. -/
def State.afterCrc (s : State) (c : Half) (r : Option Response) (n : Nat) (rest : List Event) : State :=
  { s with crcReg := c, response := r, opIndex := s.opIndex + n, events := rest }

theorem State.afterCrc_afterCrc (s : State) (c c' : Half) (r r' : Option Response) (n n' : Nat) (es es' : List Event) :
    (s.afterCrc c r n es).afterCrc c' r' n' es' = s.afterCrc c' r' (n + n') es' := by
  simp only [State.afterCrc, Nat.add_assoc]

/-- The operation of an instruction that has one is its encoding. -/
theorem operationOf_eq {i : Instr} {o : Operation} (h : encode i = .operation o) : operationOf i = o := by
  simp only [operationOf, h]

section CrcStream
variable {s : State} {rest : List Event}

/-- A step whose input is the operation of an instruction runs the instruction. -/
theorem step_operationOf {i : Instr} {o : Operation} (h : encode i = .operation o)
    (hevents : s.events = .operation (operationOf i) :: rest) :
    step s = exec i { s with events := rest, opIndex := s.opIndex + 1 } :=
  stepRunsDecodedOperation _ rest i s hevents (decodeOperation_of_encode (by rw [operationOf_eq h, h]))

theorem step_crcInit (hevents : s.events = inputsOf [.crcInit] ++ rest) :
    step s = .next (s.afterCrc s.config.crcInit (some {}) 1 rest) :=
  (step_operationOf rfl hevents).trans (exec_crcInit _)

theorem step_crcFeed {b : Byte} (hevents : s.events = inputsOf [.crcFeed b] ++ rest) :
    step s = .next (s.afterCrc (crcByte s.crcReg b) (some {}) 1 rest) :=
  (step_operationOf rfl hevents).trans (exec_crcFeed b _)

theorem step_crcRead (hevents : s.events = inputsOf [.crcRead] ++ rest) :
    step s = .next (s.afterCrc s.crcReg (some { rvalue := (~~~ s.crcReg).setWidth 32 }) 1 rest) :=
  (step_operationOf rfl hevents).trans (exec_crcRead _)

/-- One CRC_FEED a byte takes the register over all the bytes. -/
theorem runSteps_crcFeeds (bs : List Byte) (hevents : s.events = inputsOf (bs.map .crcFeed) ++ rest) :
    ∃ r, runSteps bs.length s = .next (s.afterCrc (crcRegister s.crcReg bs) r bs.length rest) := by
  induction bs generalizing s with
  | nil => exact ⟨s.response, congrArg Host.Outcome.next (by cases s; cases hevents; rfl)⟩
  | cons b bs ih =>
    have hfeed := step_crcFeed (b := b) hevents
    obtain ⟨r, hfeeds⟩ := ih (s := s.afterCrc (crcByte s.crcReg b) (some {}) 1 _) rfl
    refine ⟨r, (runSteps_succ hfeed).trans (hfeeds.trans ?_)⟩
    rw [State.afterCrc_afterCrc, List.length_cons, Nat.add_comm]
    rfl

/-- The whole stream: CRC_INIT, one CRC_FEED a byte, CRC_READ. -/
theorem runSteps_crcStream (bs : List Byte)
    (hevents : s.events = inputsOf ([.crcInit] ++ bs.map .crcFeed ++ [.crcRead])) :
    runSteps (bs.length + 2) s =
      .next (s.afterCrc (crcRegister s.config.crcInit bs)
        (some { rvalue := (crc16 s.config.crcInit bs).setWidth 32 }) (bs.length + 2) []) := by
  have hinputs : s.events = inputsOf [.crcInit] ++ (inputsOf (bs.map .crcFeed) ++ inputsOf [.crcRead]) := by
    simpa [inputsOf] using hevents
  have hinit := step_crcInit hinputs
  obtain ⟨r, hfeeds⟩ := runSteps_crcFeeds (rest := inputsOf [.crcRead])
    (s := s.afterCrc s.config.crcInit (some {}) 1 (inputsOf (bs.map .crcFeed) ++ inputsOf [.crcRead])) bs rfl
  rw [State.afterCrc_afterCrc, Nat.add_comm] at hfeeds
  have hread := step_crcRead (rest := [])
    (s := s.afterCrc (crcRegister s.config.crcInit bs) r (bs.length + 1) (inputsOf [.crcRead])) rfl
  rw [State.afterCrc_afterCrc] at hread
  exact (runSteps_succ hinit).trans ((runSteps_add hfeeds).trans (runSteps_succ hread))

end CrcStream

end Sys2Proof.Machine

namespace Sys2Proof.Safety

open Sys2Proof.Machine

/-! ### The statements -/

/-- Settles O4: the sequence of the first clause is the bit step iterated; the run goes operation by operation. -/
theorem crcStreamEqualsSequenceCrc : Obligations.CrcStreamEqualsSequenceCrc := by
  obtain ⟨hone, hone', hdigits, hdigits'⟩ := crc16_checkValues
  refine ⟨fun r b => ⟨fun i => crcBits i (r, b), rfl, fun i _ => crcBits_succ_last i (r, b), rfl⟩,
    fun init => ⟨crc16_nil init, crc16_append_byte init⟩, hone, hone', hdigits, hdigits', fun s bs hevents => ?_⟩
  exact ⟨_, runSteps_crcStream bs hevents, rfl, sameFrames_of_eq rfl rfl rfl rfl, ⟨rfl, rfl, rfl, rfl⟩,
    rfl, rfl, rfl, rfl⟩

/-- Settles O5: the checksum changes with a byte it covers, the stored word with one of its own two bytes. -/
theorem singleByteChangeIsDetected : Obligations.SingleByteChangeIsDetected := by
  intro init w i b hw hi hb
  exact ⟨fun hcovered => frameCrcOf_set_ne init hcovered (hw ▸ hi) hb,
    fun hvalid => Bool.eq_false_iff.mpr (not_validFrame_set hw hi hb hvalid)⟩

/-- Settles O1: the word is the encoding of CRC_INIT. -/
theorem crcInitLoadsParameter : Obligations.CrcInitLoadsParameter :=
  ⟨decodeOperation_of_encode (by decide), exec_crcInit⟩

/-- Settles O2: the word is the encoding of CRC_FEED, for every byte. -/
theorem crcFeedAdvancesOneByte : Obligations.CrcFeedAdvancesOneByte :=
  ⟨fun b => decodeOperation_of_encode (by rw [← commandWord_crcFeed]; rfl), exec_crcFeed⟩

/-- Settles O3: the word is the encoding of CRC_READ. -/
theorem crcReadAnswersComplement : Obligations.CrcReadAnswersComplement :=
  ⟨decodeOperation_of_encode (by decide), exec_crcRead⟩

end Sys2Proof.Safety
end

section
/-! The frame family (42_frame): each operation on a frame register, one path at a time. The facts the statements share:
an absent frame is NO_FRAME for every operation that needs one, a store changes its own register alone and a sealed frame
is valid, and the mask of SET_DATA_FLAGS is determined by the bits its ids have. -/

namespace Sys2Proof

/-! ### The words (30_encoding R101) -/

/-- SEL and OP stand in the low half, FID in bits 23:16, ARG in bits 31:24. -/
theorem commandWord_eq_or (arg fid : Byte) (sel : BitVec 1) (op : Byte) :
    commandWord arg fid sel op =
      commandWord 0 0 sel op ||| (fid.setWidth 32 <<< 16) ||| (arg.setWidth 32 <<< 24) := by
  unfold commandWord
  refine BitVec.eq_of_getLsbD_eq fun i hi => ?_
  simp only [BitVec.getLsbD_append, BitVec.getLsbD_or, BitVec.getLsbD_shiftLeft, BitVec.getLsbD_setWidth]
  grind

theorem commandWord_arg_only (arg : Byte) (sel : BitVec 1) (op : Byte) :
    commandWord arg 0 sel op = commandWord 0 0 sel op ||| (arg.setWidth 32 <<< 24) := by
  rw [commandWord_eq_or, show (0 : Byte).setWidth 32 <<< 16 = 0#32 from rfl, BitVec.or_zero]

theorem commandWord_fid_only (fid : Byte) (sel : BitVec 1) (op : Byte) :
    commandWord 0 fid sel op = commandWord 0 0 sel op ||| (fid.setWidth 32 <<< 16) := by
  rw [commandWord_eq_or, show (0 : Byte).setWidth 32 <<< 24 = 0#32 from rfl, BitVec.or_zero]

/-- A word equal to the one an instruction is built with decodes to the instruction, with the same beside it. -/
theorem decodeOperation_word {i : Instr} {w w' value : Word} {payload : List Byte}
    (hi : encode i = .operation ⟨w', value, payload⟩) (hw : w' = w) : decodeOperation ⟨w, value, payload⟩ = .ok i :=
  decodeOperation_of_encode (hw ▸ hi)

/-! ### Commands (30_encoding R87) -/

theorem Command.ofCode_isSome_iff (b : Byte) :
    (Command.ofCode? b).isSome = true ↔ b = 0 ∨ b = 1 ∨ b = 2 ∨ b = 3 ∨ b = 5 := by
  revert b; decide

end Sys2Proof

namespace Sys2Proof.Machine

open Sys2Proof.Safety

/-! ### What a store to a frame register leaves -/

theorem sameButFrame_setFrame (sel : FrameSel) (s : State) (m : Memory) (r : Option Response) :
    SameButFrame sel s { s.setFrame sel m with response := r } := by
  cases sel <;> exact ⟨fun _ => rfl, rfl, rfl, ⟨rfl, rfl, rfl, rfl⟩, rfl, rfl, rfl, rfl, rfl⟩

theorem sameButFrame_putFrame (sel : FrameSel) (s : State) (m : Memory) (r : Option Response) :
    SameButFrame sel s { s.putFrame sel m with response := r } := by
  cases sel <;> exact ⟨fun _ => rfl, rfl, rfl, ⟨rfl, rfl, rfl, rfl⟩, rfl, rfl, rfl, rfl, rfl⟩

/-! ### What the register holds after a store -/

section StoredFrame
variable (sel : FrameSel) (s : State) (m : Memory) (r : Option Response)

theorem frame_putFrame_response : ({ s.putFrame sel m with response := r } : State).frame sel = m := by
  rw [State.response_frame, State.putFrame_frame]

theorem present_putFrame_response : ({ s.putFrame sel m with response := r } : State).present sel = true := by
  rw [State.response_present, State.putFrame_present]

theorem frame_setFrame_response : ({ s.setFrame sel m with response := r } : State).frame sel = m := by
  rw [State.response_frame, State.setFrame_frame]

theorem present_setFrame_response :
    ({ s.setFrame sel m with response := r } : State).present sel = s.present sel := by
  rw [State.response_present, State.setFrame_present]

end StoredFrame

/-! ### Reading a frame -/

/-- An address of the frame reads as its byte of the whole. -/
theorem Memory.read_eq_bytes (m : Memory) {a : Nat} (h : a < 128) : m.read a = some (m.bytes.getD a 0) := by
  rw [Memory.byte_eq m a h, Memory.read, if_pos (show a < frameLen from h)]

/-- A range of the frame, address by address. -/
theorem Memory.readRange_in_frame (m : Memory) {o n : Nat} (h : o + n ≤ 128) :
    ∃ bs, m.readRange o n = some bs ∧ bs.length = n ∧ ∀ k, k < n → m.read (o + k) = some (bs.getD k 0) := by
  refine ⟨_, if_pos h, by simp, fun k hk => ?_⟩
  rw [Memory.read, if_pos (show o + k < frameLen by simp only [frameLen]; omega)]
  simp [hk]

/-- The checksum's range holds the last two bytes of the frame. -/
theorem Memory.readRange_checksum (m : Memory) :
    m.readRange cksumOff 2 = some [byteAt m.bytes cksumOff, byteAt m.bytes (cksumOff + 1)] := by
  rw [byteAt, byteAt, Memory.byte_eq m cksumOff (by decide), Memory.byte_eq m (cksumOff + 1) (by decide)]
  rfl

/-- Below the checksum a frame stored to and sealed reads the bytes stored in their range, and as before elsewhere. -/
theorem read_storeChecksum_writeRange {m m' : Memory} {o a : Nat} {bs : List Byte} (init : Half)
    (hwrite : m.writeRange o bs = some m') (hwf : m.wf = true) (ha : a < 126) :
    (storeChecksum init m').read a =
      if o ≤ a ∧ a < o + bs.length then some (bs.getD (a - o) 0) else m.read a := by
  obtain ⟨-, hkeep, hread⟩ := Memory.writeRange_spec m m' o bs hwrite
  have hframe : a < frameLen := by simp only [frameLen]; omega
  rw [storeChecksum_read init m' a (hkeep hwf) (.inl ha), hread hwf, if_pos hframe]

/-- A frame stored to and sealed is valid (42_frame R175). -/
theorem validFrame_storeChecksum_writeRange {m m' : Memory} {o : Nat} {bs : List Byte} (init : Half)
    (hwrite : m.writeRange o bs = some m') (hwf : m.wf = true) : validFrame init (storeChecksum init m').bytes = true :=
  storeChecksum_valid init m' ((Memory.writeRange_spec m m' o bs hwrite).2.1 hwf)

/-! ### Lookups (42_frame R170) -/

theorem assoc_eq_some_of_unique {α : Type} {l : List (Byte × α)} {a : Byte} {v : α} (hmem : (a, v) ∈ l)
    (hunique : ∀ e ∈ l, e.1 = a → e.2 = v) : assoc l a = some v := by
  induction l with
  | nil => cases hmem
  | cons e rest ih =>
    rw [assoc]
    split
    · rename_i hk
      exact congrArg some (hunique e List.mem_cons_self hk)
    · rename_i hk
      rcases List.mem_cons.mp hmem with rfl | hmem
      · exact absurd rfl hk
      · exact ih hmem fun e' he' => hunique e' (List.mem_cons_of_mem _ he')

theorem assoc_eq_none {α : Type} {l : List (Byte × α)} {a : Byte} (h : ∀ e ∈ l, e.1 ≠ a) : assoc l a = none := by
  induction l with
  | nil => rfl
  | cons e rest ih =>
    rw [assoc, if_neg (h e List.mem_cons_self), ih fun e' he' => h e' (List.mem_cons_of_mem _ he')]

/-- An id that is neither fixed nor a calibration value is looked up in REGISTRY_EXT (30_encoding R82, R83). -/
theorem desc_eq_assoc {c : Config} {fid : Byte} (h : 4 ≤ fid.toNat)
    (hcal : ∀ k, c.calibration = some k → fid ≠ k.id1 ∧ fid ≠ k.id2 ∧ fid ≠ k.id3) :
    desc c fid = assoc c.registryExt fid := by
  have hnone : calibrationField c fid = none := by
    unfold calibrationField
    split
    · rfl
    · rename_i k hk
      obtain ⟨h1, h2, h3⟩ := hcal k hk
      rw [if_neg h1, if_neg h2, if_neg h3]
  simp only [desc, fixedField_none h, hnone]

/-- A calibration value has the range CAL_RANGE. -/
theorem desc_calibration_range {c : Config} {k : Calibration} {fid : Byte} (hc : c.calibration = some k)
    (h : 4 ≤ fid.toNat) (hfid : fid = k.id1 ∨ fid = k.id2 ∨ fid = k.id3) :
    ∃ d, desc c fid = some d ∧ d.offset = k.offset ∧ d.length = k.length := by
  have hsome : ∃ name, calibrationField c fid = some (Calibration.descriptor k name) := by
    simp only [calibrationField, hc]
    split_ifs with h1 h2 h3
    · exact ⟨_, rfl⟩
    · exact ⟨_, rfl⟩
    · exact ⟨_, rfl⟩
    · tauto
  obtain ⟨name, hname⟩ := hsome
  exact ⟨_, desc_of_calibrationField h hname, rfl, rfl⟩

/-! ### The mask of data flags (42_frame R176) -/

theorem dataFlagsMask_bit_iff {c : Config} {fids : List Byte} {mask : Half} (h : dataFlagsMask c 0 fids = .ok mask)
    {i : Nat} (hi : i < 16) :
    mask.getLsbD i = true ↔ ∃ f ∈ fids, ∃ b, flagbit c f = some b ∧ b.val = i := by
  rw [(dataFlagsMask_ok h).2 i hi]
  simp [List.any_eq_true, Option.any_eq_true]

/-- Lists whose ids have the same bits have the same mask. -/
theorem dataFlagsMask_congr {c : Config} {l l' : List Byte} (hl : ∀ f ∈ l, (flagbit c f).isSome = true)
    (hl' : ∀ f ∈ l', (flagbit c f).isSome = true)
    (hbits : ∀ b, (∃ f ∈ l, flagbit c f = some b) ↔ ∃ f ∈ l', flagbit c f = some b) :
    dataFlagsMask c 0 l = dataFlagsMask c 0 l' := by
  obtain ⟨mask, hmask⟩ := dataFlagsMask_of_all hl 0
  obtain ⟨mask', hmask'⟩ := dataFlagsMask_of_all hl' 0
  have hsame : mask = mask' := BitVec.eq_of_getLsbD_eq fun i hi => by
    rw [Bool.eq_iff_iff, dataFlagsMask_bit_iff hmask hi, dataFlagsMask_bit_iff hmask' hi]
    constructor
    · rintro ⟨f, hf, b, hb, hbi⟩
      obtain ⟨g, hg, hgb⟩ := (hbits b).mp ⟨f, hf, hb⟩
      exact ⟨g, hg, b, hgb, hbi⟩
    · rintro ⟨f, hf, b, hb, hbi⟩
      obtain ⟨g, hg, hgb⟩ := (hbits b).mpr ⟨f, hf, hb⟩
      exact ⟨g, hg, b, hgb, hbi⟩
  rw [hmask, hmask', hsame]

/-- The two bytes of a 16-bit value. -/
theorem leBytes_half (mask : Half) :
    leBytes 2 (mask.setWidth 32) = [mask.setWidth 8, (mask >>> 8).setWidth 8] := by
  have hlow : (mask.setWidth 32).setWidth 8 = mask.setWidth 8 := BitVec.setWidth_setWidth_of_le _ (by decide)
  have hhigh : ((mask.setWidth 32) >>> 8).setWidth 8 = (mask >>> 8).setWidth 8 := by
    rw [← BitVec.setWidth_ushiftRight (by decide), BitVec.setWidth_setWidth_of_le _ (by decide)]
  rw [leBytes, leBytes, leBytes, hlow, hhigh]

/-! ### An absent frame (60_exceptions R271) -/

/-- The operations that need the frame of register `sel`. -/
inductive NeedsFrame (sel : FrameSel) : Instr → Prop where
  | fieldGet (fid : Byte) : NeedsFrame sel (.fieldGet sel fid)
  | fieldSet (fid : Byte) (v : Word) : NeedsFrame sel (.fieldSet sel fid v)
  | setDataFlags (fids : List Byte) : NeedsFrame sel (.setDataFlags sel fids)
  | isValid : NeedsFrame sel (.isValid sel)
  | frameCrc : NeedsFrame sel (.frameCrc sel)
  | serialize : NeedsFrame sel (.serialize sel)

theorem NeedsFrame.exec_absent {sel : FrameSel} {i : Instr} {s : State} (hi : NeedsFrame sel i)
    (hp : s.present sel = false) : exec i s = .next (raised .noFrame (selWord sel) s) := by
  cases hi with
  | fieldGet fid => exact exec_fieldGet_absent hp
  | fieldSet fid v => rw [exec_fieldSet, execFieldSet, withFrame_absent hp]
  | setDataFlags fids => rw [exec, execSetDataFlags, withFrame_absent hp]
  | isValid => rw [exec, execIsValid, withFrame_absent hp]
  | frameCrc => rw [exec, execFrameCrc, withFrame_absent hp]
  | serialize => rw [exec, execSerialize, withFrame_absent hp]

section FrameOperations
variable {sel : FrameSel} {s : State}

/-! ### Building a frame (42_frame R171, R172) -/

theorem exec_frameLoadRaw_fits {payload : List Byte} (h : payload.length = 128) :
    exec (.frameLoadRaw sel payload) s =
      .next { s.putFrame sel (Memory.ofBytes payload) with response := some {} } :=
  if_neg (not_not.mpr h)

theorem exec_frameLoadRaw_misfit {payload : List Byte} (h : payload.length ≠ 128) :
    exec (.frameLoadRaw sel payload) s = .next (raised .sizeMismatch (cappedWord payload.length) s) :=
  if_pos h

theorem exec_frameFromCommand_command {arg : Byte} {m : Memory} (harg : (Command.ofCode? arg).isSome = true)
    (hm : commandBytes s.config arg = .ok m) :
    exec (.frameFromCommand sel arg) s =
      .next { s.putFrame sel (storeChecksum s.config.crcInit m) with response := some {} } := by
  obtain ⟨c, hc⟩ := Option.isSome_iff_exists.mp harg
  simp only [exec, execFrameFromCommand, hc, hm, respond]

theorem exec_frameFromCommand_other {arg : Byte} (harg : ¬ (Command.ofCode? arg).isSome = true) :
    exec (.frameFromCommand sel arg) s = .next (raised .invalidCommand (arg.setWidth 32) s) := by
  have hnone : Command.ofCode? arg = none := Option.not_isSome_iff_eq_none.mp harg
  simp only [exec, execFrameFromCommand, hnone, raise]

/-! ### Reading a present frame (42_frame R173, R177, R178) -/

theorem exec_isValid_present (hp : s.present sel = true) :
    exec (.isValid sel) s =
      .next
        { s with
          response := some { rvalue := if validFrame s.config.crcInit (s.frame sel).bytes then 1 else 0 } } := by
  rw [exec, execIsValid, withFrame_present hp, respond]

theorem exec_isValid_valid (hp : s.present sel = true) (hv : validFrame s.config.crcInit (s.frame sel).bytes = true) :
    exec (.isValid sel) s = .next { s with response := some { rvalue := 1 } } := by
  rw [exec_isValid_present hp, if_pos hv]

theorem exec_frameCrc_present (hp : s.present sel = true) :
    exec (.frameCrc sel) s =
      .next
        { s with
          response := some { rvalue := (frameCrcOf s.config.crcInit (s.frame sel).bytes).setWidth 32 } } := by
  rw [exec, execFrameCrc, withFrame_present hp, respond]

theorem exec_fieldGet_unknown {fid : Byte} (hp : s.present sel = true) (hd : desc s.config fid = none) :
    exec (.fieldGet sel fid) s = .next (raised .unknownField (fid.setWidth 32) s) := by
  rw [exec_fieldGet, execFieldGet, withFrame_present hp]
  simp only [hd, raise]

/-- CHECKSUM is the word stored in the last two bytes (20_memory R54). -/
theorem exec_fieldGet_checksum (hp : s.present sel = true) :
    ∃ t, exec (.fieldGet sel 3) s = .next t ∧
      t.response.map (fun r => r.rvalue) = some ((checksumWord (s.frame sel).bytes).setWidth 32) :=
  ⟨_, exec_fieldGet_field hp (d := { name := "CHECKSUM", offset := cksumOff, length := 2, kind := .word }) rfl
    (Memory.readRange_checksum _), rfl⟩

/-- IS_VALID answers 1 exactly for a valid frame. -/
theorem isValidAnswer_eq_one_iff (valid : Bool) :
    (some { rvalue := if valid then 1 else 0 } : Option Response) = some { rvalue := 1 } ↔ valid = true := by
  cases valid <;> decide

theorem setWidth_half_inj {a b : Half} : a.setWidth 32 = b.setWidth 32 ↔ a = b := by
  refine ⟨fun h => ?_, fun h => by rw [h]⟩
  simpa using congrArg (BitVec.setWidth 16) h

/-! ### Writing to a present frame (42_frame R174, R176) -/

section FieldSet
variable {fid : Byte} {v : Word} {d : Descriptor} (hp : s.present sel = true)
include hp

theorem exec_fieldSet_unknown (hd : desc s.config fid = none) :
    exec (.fieldSet sel fid v) s = .next (raised .unknownField (fid.setWidth 32) s) := by
  rw [exec_fieldSet, execFieldSet, withFrame_present hp]
  simp only [hd, raise]

theorem exec_fieldSet_unsupported (hd : desc s.config fid = some d) (hkind : encodable d.kind = false) :
    exec (.fieldSet sel fid v) s = .next (raised .unsupportedEncode (fid.setWidth 32) s) := by
  rw [exec_fieldSet, execFieldSet, withFrame_present hp]
  simp only [hd, hkind, if_true, raise]

theorem exec_fieldSet_misfit (hd : desc s.config fid = some d) (hkind : encodable d.kind = true)
    (hmisfit : 2 ^ (8 * d.length) ≤ v.toNat) :
    exec (.fieldSet sel fid v) s = .next (raised .valueRange v s) := by
  rw [exec_fieldSet, execFieldSet, withFrame_present hp]
  simp only [hd, hkind, fitsBytes, Nat.not_lt.mpr hmisfit, decide_false, Bool.true_eq_false, if_false, if_true, raise]

end FieldSet

theorem exec_setDataFlags_unknown {fids : List Byte} {g : Byte} (hp : s.present sel = true)
    (hmask : dataFlagsMask s.config 0 fids = .error g) :
    exec (.setDataFlags sel fids) s = .next (raised .unknownField (g.setWidth 32) s) := by
  rw [exec, execSetDataFlags, withFrame_present hp]
  simp only [hmask, raise]

theorem exec_setDataFlags_mask {fids : List Byte} {mask : Half} (hp : s.present sel = true)
    (hmask : dataFlagsMask s.config 0 fids = .ok mask) (hrange : s.config.dataFlagsOff + 2 ≤ 128) :
    ∃ m, (s.frame sel).writeRange s.config.dataFlagsOff (leBytes 2 (mask.setWidth 32)) = some m ∧
      exec (.setDataFlags sel fids) s =
        .next
          { s.setFrame sel (storeChecksum s.config.crcInit m) with
            response := some { rvalue := mask.setWidth 32 } } := by
  obtain ⟨m, hwrite, hsealed⟩ := sealedWrite_in_frame (init := s.config.crcInit) (m := s.frame sel)
    (k := fun m' => respond { rvalue := mask.setWidth 32 } (s.setFrame sel m'))
    (show s.config.dataFlagsOff + (leBytes 2 (mask.setWidth 32)).length ≤ 128 by simpa using hrange)
  refine ⟨m, hwrite, ?_⟩
  rw [exec, execSetDataFlags, withFrame_present hp]
  simp only [hmask]
  exact hsealed

/-- SET_DATA_FLAGS sees the mask of its ids, and nothing else of them. -/
theorem exec_setDataFlags_congr {l l' : List Byte}
    (h : dataFlagsMask s.config 0 l = dataFlagsMask s.config 0 l') :
    exec (.setDataFlags sel l) s = exec (.setDataFlags sel l') s := by
  simp only [exec, execSetDataFlags, h]

end FrameOperations

/-! ### The kinds that encode (40_codec R130) -/

theorem encodable_iff {k : Kind} : encodable k = true ↔ k = .byte ∨ k = .word ∨ k = .integer := by
  cases k <;> simp [encodable]

theorem encodable_eq_false_iff {k : Kind} :
    encodable k = false ↔ k = .string ∨ k = .temperature ∨ k = .date ∨ k = .battery := by
  cases k <;> simp [encodable]

/-! ### Sealed frames (42_frame R175, R181) -/

/-- A state whose register `sel` holds a valid frame. -/
def HoldsValidFrame (sel : FrameSel) (s : State) : Prop :=
  s.present sel = true ∧ validFrame s.config.crcInit (s.frame sel).bytes = true

theorem holdsValidFrame_setFrame {sel : FrameSel} {s : State} {m : Memory} {r : Option Response}
    (hp : s.present sel = true) (hv : validFrame s.config.crcInit m.bytes = true) :
    HoldsValidFrame sel { s.setFrame sel m with response := r } :=
  ⟨by rw [present_setFrame_response, hp], by rwa [frame_setFrame_response, State.setFrame_config]⟩

theorem holdsValidFrame_putFrame {sel : FrameSel} {s : State} {m : Memory} {r : Option Response}
    (hv : validFrame s.config.crcInit m.bytes = true) :
    HoldsValidFrame sel { s.putFrame sel m with response := r } :=
  ⟨present_putFrame_response sel s m r, by rwa [frame_putFrame_response, State.putFrame_config]⟩

/-- An error is no status OK (60_exceptions R271). -/
theorem raised_not_ok {e : ErrorCode} {info : Word} {s : State} :
    (raised e info s).response.map (fun r => r.status) ≠ some .ok := nofun

theorem frameFromCommand_holdsValidFrame {sel : FrameSel} {arg : Byte} {s t : State}
    (h : exec (.frameFromCommand sel arg) s = .next t) (hok : t.response.map (fun r => r.status) = some .ok) :
    HoldsValidFrame sel t := by
  obtain ⟨-, rfl⟩ | ⟨-, m, -, hm, rfl⟩ := execFrameFromCommand_next h
  · exact absurd hok raised_not_ok
  · exact holdsValidFrame_putFrame (storeChecksum_valid _ m (commandBytes_wf hm))

theorem fieldSet_holdsValidFrame {sel : FrameSel} {fid : Byte} {v : Word} {s t : State} (hwf : (s.frame sel).wf = true)
    (h : exec (.fieldSet sel fid v) s = .next t) (hok : t.response.map (fun r => r.status) = some .ok) :
    HoldsValidFrame sel t := by
  obtain ⟨-, rfl⟩ | ⟨-, -, rfl⟩ | ⟨-, -, -, -, rfl⟩ | ⟨-, -, -, -, -, rfl⟩ | ⟨d, m, hp, -, -, -, hm, rfl⟩ :=
    execFieldSet_next h
  · exact absurd hok raised_not_ok
  · exact absurd hok raised_not_ok
  · exact absurd hok raised_not_ok
  · exact absurd hok raised_not_ok
  · exact holdsValidFrame_setFrame hp (validFrame_storeChecksum_writeRange _ hm hwf)

theorem setDataFlags_holdsValidFrame {sel : FrameSel} {fids : List Byte} {s t : State} (hwf : (s.frame sel).wf = true)
    (h : exec (.setDataFlags sel fids) s = .next t) (hok : t.response.map (fun r => r.status) = some .ok) :
    HoldsValidFrame sel t := by
  obtain ⟨-, rfl⟩ | ⟨_, -, -, rfl⟩ | ⟨mask, m, hp, -, hm, rfl⟩ := execSetDataFlags_next h
  · exact absurd hok raised_not_ok
  · exact absurd hok raised_not_ok
  · exact holdsValidFrame_setFrame hp (validFrame_storeChecksum_writeRange _ hm hwf)

/-! ### Built frames (42_frame R180) -/

/-- What a successful build leaves is determined by the instruction and the configuration. -/
theorem build_eq_of_ok {sel : FrameSel} {i : Instr} {s t : State}
    (hi : (∃ payload, i = .frameLoadRaw sel payload) ∨ ∃ arg, i = .frameFromCommand sel arg)
    (h : exec i s = .next t) (hok : t.response.map (fun r => r.status) = some .ok) :
    ∃ m, ∀ s' : State, s'.config = s.config →
      exec i s' = .next { s'.putFrame sel m with response := some {} } := by
  obtain ⟨payload, rfl⟩ | ⟨arg, rfl⟩ := hi
  · obtain ⟨-, rfl⟩ | ⟨hlength, -⟩ := execFrameLoadRaw_next h
    · exact absurd hok raised_not_ok
    · exact ⟨_, fun _ _ => exec_frameLoadRaw_fits hlength⟩
  · obtain ⟨-, rfl⟩ | ⟨c, m, hc, hm, -⟩ := execFrameFromCommand_next h
    · exact absurd hok raised_not_ok
    · refine ⟨storeChecksum s.config.crcInit m, fun s' hs' => ?_⟩
      rw [← hs'] at hm ⊢
      exact exec_frameFromCommand_command (Option.isSome_iff_exists.mpr ⟨c, hc⟩) hm

end Sys2Proof.Machine

namespace Sys2Proof.Safety

open Sys2Proof.Machine

/-! ### The statements -/

/-- Settles O10: the two paths of R171; a frame written whole reads as its bytes. -/
theorem frameLoadRawStoresExactly128Bytes : Obligations.FrameLoadRawStoresExactly128Bytes := by
  refine ⟨fun payload => ⟨decodeOperation_word rfl (by decide), decodeOperation_word rfl (by decide)⟩,
    fun sel payload s => ⟨fun hlength => ?_, exec_frameLoadRaw_misfit⟩⟩
  refine ⟨_, exec_frameLoadRaw_fits hlength, rfl, present_putFrame_response _ _ _ _, fun a ha => ?_,
    sameButFrame_putFrame _ _ _ _⟩
  rw [frame_putFrame_response, Memory.read_eq_bytes _ ha, Memory.bytes_ofBytes payload hlength]

/-- Settles O11: the ARGs listed are the codes of the commands; sealing leaves the bytes below the checksum. -/
theorem frameFromCommandBuildsSealedFrame : Obligations.FrameFromCommandBuildsSealedFrame := by
  refine ⟨fun arg => ⟨decodeOperation_word rfl (commandWord_arg_only arg 0 0x11),
    decodeOperation_word rfl (commandWord_arg_only arg 1 0x11)⟩, fun sel arg s hc => ?_⟩
  rw [← Command.ofCode_isSome_iff]
  refine ⟨fun harg => ?_, exec_frameFromCommand_other⟩
  obtain ⟨m, hm, hwf, hread⟩ := commandBytes_ok arg hc
  refine ⟨_, exec_frameFromCommand_command harg hm, rfl, present_putFrame_response _ _ _ _, fun a ha => ?_, ?_,
    sameButFrame_putFrame _ _ _ _⟩
  · rw [frame_putFrame_response, storeChecksum_read _ m a hwf (.inl ha), hread a (by omega)]
  · rw [frame_putFrame_response, storeChecksum_valid _ m hwf]

/-- Settles O12: the lookup by its three tables, then the paths of R173 in order. -/
theorem fieldGetAnswersDecodedField : Obligations.FieldGetAnswersDecodedField := by
  refine ⟨fun c => ⟨rfl, rfl, rfl, rfl⟩, fun c fid h4 hcal => ?_,
    fun c k fid hk h4 hfid _ => desc_calibration_range hk h4 hfid, ⟨rfl, rfl, rfl, rfl, rfl, rfl, rfl⟩,
    fun fid => ⟨decodeOperation_word rfl (commandWord_fid_only fid 0 0x12),
      decodeOperation_word rfl (commandWord_fid_only fid 1 0x12)⟩,
    fun sel fid s => ⟨(NeedsFrame.fieldGet fid).exec_absent, exec_fieldGet_unknown, fun d hp hd hc => ?_⟩⟩
  · rw [desc_eq_assoc h4 hcal]
    exact ⟨fun d => assoc_eq_some_of_unique, assoc_eq_none⟩
  · obtain ⟨bs, hbytes, hlength, hread⟩ := (s.frame sel).readRange_in_frame (desc_in_frame hc hd).1
    exact ⟨bs, hlength, hread, exec_fieldGet_field hp hd hbytes⟩

/-- Settles O13: the paths of R174 in order; the field's bytes below the checksum survive the sealing. -/
theorem fieldSetWritesAndSeals : Obligations.FieldSetWritesAndSeals := by
  refine ⟨fun fid v => ⟨decodeOperation_word rfl (commandWord_fid_only fid 0 0x13),
      decodeOperation_word rfl (commandWord_fid_only fid 1 0x13)⟩,
    fun sel fid v s => ⟨(NeedsFrame.fieldSet fid v).exec_absent, exec_fieldSet_unknown, fun d hp hd => ?_⟩⟩
  rw [← encodable_eq_false_iff, ← encodable_iff]
  refine ⟨exec_fieldSet_unsupported hp hd, exec_fieldSet_misfit hp hd, fun hkind hfits hc hwf => ?_⟩
  obtain ⟨m, hwrite, hset⟩ := exec_fieldSet_field hp hd hkind hfits (desc_in_frame hc hd).1
  refine ⟨_, hset, rfl, (present_setFrame_response _ _ _ _).trans hp, fun a ha => ?_, ?_,
    sameButFrame_setFrame _ _ _ _⟩
  · rw [frame_setFrame_response, read_storeChecksum_writeRange _ hwrite hwf ha, length_leBytes]
    split
    · rw [leBytes_getD _ _ _ (by omega)]
    · rfl
  · rw [frame_setFrame_response, validFrame_storeChecksum_writeRange _ hwrite hwf]

/-- Settles O14: the mask is there exactly when every id has a bit, and its two bytes are stored as a field's are. -/
theorem setDataFlagsWritesUnionOfBits : Obligations.SetDataFlagsWritesUnionOfBits := by
  refine ⟨fun c f => ⟨fun b => assoc_eq_some_of_unique, assoc_eq_none⟩,
    fun fids => ⟨decodeOperation_word rfl (by decide), decodeOperation_word rfl (by decide)⟩,
    fun sel fids s => ⟨(NeedsFrame.setDataFlags fids).exec_absent, ?_, fun hp hall hc hwf => ?_⟩⟩
  · rintro before after g hp rfl hbefore hg
    exact exec_setDataFlags_unknown hp (dataFlagsMask_of_first hbefore hg 0)
  · obtain ⟨mask, hmask⟩ := dataFlagsMask_of_all hall 0
    obtain ⟨-, -, hflags, -⟩ := Config.header_bounds hc
    obtain ⟨m, hwrite, hset⟩ := exec_setDataFlags_mask hp hmask (by omega)
    refine ⟨mask, _, hset, fun i hi => dataFlagsMask_bit_iff hmask hi, rfl,
      (present_setFrame_response _ _ _ _).trans hp, fun a ha => ?_, ?_, sameButFrame_setFrame _ _ _ _⟩
    · rw [frame_setFrame_response, read_storeChecksum_writeRange _ hwrite hwf ha, length_leBytes, leBytes_half]
      rcases (by omega : a = s.config.dataFlagsOff ∨ a = s.config.dataFlagsOff + 1 ∨
        ¬(s.config.dataFlagsOff ≤ a ∧ a < s.config.dataFlagsOff + 2)) with rfl | rfl | hout
      · simp
      · simp
      · rw [if_neg hout, if_neg (by omega), if_neg (by omega)]
    · rw [frame_setFrame_response, validFrame_storeChecksum_writeRange _ hwrite hwf]

/-- Settles O16: both answers are 16-bit words widened, so they are equal exactly when the words are. -/
theorem frameCrcAnswersChecksumOfFirst126 : Obligations.FrameCrcAnswersChecksumOfFirst126 := by
  refine ⟨decodeOperation_word rfl (by decide), decodeOperation_word rfl (by decide),
    fun sel s => ⟨NeedsFrame.frameCrc.exec_absent, exec_frameCrc_present, fun hp => ?_⟩⟩
  obtain ⟨u, hu, hvalue⟩ := exec_fieldGet_checksum hp
  refine ⟨_, u, _, exec_frameCrc_present hp, hu, exec_isValid_present hp, ?_⟩
  rw [hvalue, isValidAnswer_eq_one_iff, validFrame_iff, Option.map_some, Option.some_inj, setWidth_half_inj]

/-- Settles O17: a present frame is answered as stored, and a loaded frame is stored as given. -/
theorem serializeEmitsFrameInOrder : Obligations.SerializeEmitsFrameInOrder := by
  refine ⟨decodeOperation_word rfl (by decide), decodeOperation_word rfl (by decide),
    fun sel s => ⟨NeedsFrame.serialize.exec_absent, fun hp => ?_, fun payload hlength => ?_⟩⟩
  · exact ⟨_, Memory.length_bytes _, fun a => Memory.read_eq_bytes _, exec_serialize_present hp⟩
  · refine ⟨_, _, exec_frameLoadRaw_fits hlength, exec_serialize_present (present_putFrame_response _ _ _ _), ?_⟩
    rw [frame_putFrame_response, Memory.bytes_ofBytes payload hlength]

/-- Settles O20: the lists have the same bits, so the same mask. -/
theorem sharedBitFieldsSetTheSameMask : Obligations.SharedBitFieldsSetTheSameMask := by
  intro sel f g s hfg hf
  have hg : (flagbit s.config g).isSome = true := hfg ▸ hf
  exact ⟨exec_setDataFlags_congr (dataFlagsMask_congr (by simpa using hf) (by simpa using hg) (by simp [hfg])),
    exec_setDataFlags_congr (dataFlagsMask_congr (by simpa using ⟨hf, hg⟩) (by simpa using hf) (by simp [hfg]))⟩

/-- Settles O21: the lists have the same ids, so the same bits and the same mask. -/
theorem dataFlagsIgnoreOrderAndRepetition : Obligations.DataFlagsIgnoreOrderAndRepetition := by
  intro sel l l' s hmem hall
  exact exec_setDataFlags_congr
    (dataFlagsMask_congr hall (fun f hf => hall f ((hmem f).mpr hf)) (fun b => by simp only [hmem]))

/-- Settles O22: each of the three writers ends by sealing the frame it leaves. -/
theorem writesLeaveFrameValid : Obligations.WritesLeaveFrameValid := by
  intro sel i s t hi hwf h hok
  have hvalid : HoldsValidFrame sel t := by
    obtain ⟨arg, rfl⟩ | ⟨fid, v, rfl⟩ | ⟨fids, rfl⟩ := hi
    · exact frameFromCommand_holdsValidFrame h hok
    · exact fieldSet_holdsValidFrame hwf h hok
    · exact setDataFlags_holdsValidFrame hwf h hok
  obtain ⟨hp, hv⟩ := hvalid
  exact ⟨_, exec_isValid_valid hp hv, rfl⟩

/-- Settles O23: both states end with the same frame put into the register. -/
theorem builtFrameForgetsItsPast : Obligations.BuiltFrameForgetsItsPast := by
  intro sel i s s' t t' hi hconfig h h' hok
  obtain ⟨m, hbuild⟩ := build_eq_of_ok hi h hok
  cases (hbuild s rfl).symm.trans h
  cases (hbuild s' hconfig.symm).symm.trans h'
  refine ⟨?_, present_putFrame_response sel s m _, present_putFrame_response sel s' m _, rfl⟩
  rw [frame_putFrame_response, frame_putFrame_response]

/-- Settles O15. -/
theorem isValidComparesChecksum : Obligations.IsValidComparesChecksum := by
  refine ⟨decodeOperation_word rfl (by decide), decodeOperation_word rfl (by decide),
    fun sel s => ⟨NeedsFrame.isValid.exec_absent, fun hp => ?_⟩⟩
  rw [exec_isValid_present hp]
  simp only [validFrame_iff]
  rfl

end Sys2Proof.Safety
end

section
/-! The receive family (43_rx_resync): RX_START, RX_APPEND, RX_SCAN and STATUS_READ. The machine's pass is the relation
`Drains`; what a pass delivers, discards and keeps is then read off that relation by induction: the segments of the buffer
it delivers, the greedy scan over a stream it agrees with, and that a pass cut in two by later bytes is one pass. -/

namespace Sys2Proof.Safety

open Sys2Proof.Machine

/-! ### The drain as a relation (43_rx_resync R212) -/

/-- The machine's loop, with enough rounds, drains the buffer. -/
theorem drains_drain (init : Half) (fuel : Nat) (buf : List Byte) (hfuel : buf.length ≤ fuel) :
    Drains init buf (drain init fuel buf).delivered (drain init fuel buf).discarded (drain init fuel buf).rest := by
  induction fuel generalizing buf with
  | zero => exact .stop buf (by omega)
  | succ fuel ih =>
    by_cases hlong : 128 ≤ buf.length
    · cases hvalid : validFrame init (buf.take 128) with
      | true =>
        rw [drain_valid init fuel hlong hvalid]
        exact .deliver buf _ _ _ hlong hvalid (ih _ (by rw [List.length_drop]; omega))
      | false =>
        rw [drain_invalid init fuel hlong hvalid]
        exact .discard buf _ _ _ hlong hvalid (ih _ (by rw [List.length_drop]; omega))
    · rw [drain_short init (fuel + 1) (Nat.not_le.mp hlong)]
      exact .stop buf (Nat.not_le.mp hlong)

/-- The relation determines what the loop answers. -/
theorem Drains.drain_eq {init : Half} {buf rest : List Byte} {ws : List (List Byte)} {n : Nat}
    (h : Drains init buf ws n rest) {fuel : Nat} (hfuel : buf.length ≤ fuel) :
    drain init fuel buf = { delivered := ws, discarded := n, rest := rest } := by
  induction h generalizing fuel with
  | stop buf hshort => exact drain_short init fuel hshort
  | deliver buf ws n rest hlong hvalid _ ih =>
    obtain ⟨k, rfl⟩ : ∃ k, fuel = k + 1 := ⟨fuel - 1, by omega⟩
    rw [drain_valid init k hlong hvalid, ih (by rw [List.length_drop]; omega)]
  | discard buf ws n rest hlong hvalid _ ih =>
    obtain ⟨k, rfl⟩ : ∃ k, fuel = k + 1 := ⟨fuel - 1, by omega⟩
    rw [drain_invalid init k hlong hvalid, ih (by rw [List.length_drop]; omega)]

/-- A valid frame at the head of the buffer is delivered. -/
theorem Drains.deliver_append {init : Half} {w buf rest : List Byte} {ws : List (List Byte)} {n : Nat}
    (hlength : w.length = 128) (hvalid : validFrame init w = true) (h : Drains init buf ws n rest) :
    Drains init (w ++ buf) (w :: ws) n rest := by
  have htake : (w ++ buf).take 128 = w := List.take_left' hlength
  have hdrop : (w ++ buf).drop 128 = buf := List.drop_left' hlength
  have hdeliver : Drains init (w ++ buf) ((w ++ buf).take 128 :: ws) n rest :=
    .deliver _ _ _ _ (by rw [List.length_append]; omega) (by rwa [htake]) (by rwa [hdrop])
  rwa [htake] at hdeliver

/-- A byte before the first gap lengthens it. -/
theorem weave_cons_head (b : Byte) (gap : List Byte) (gaps ws : List (List Byte)) :
    weave ((b :: gap) :: gaps) ws = b :: weave (gap :: gaps) ws := by
  cases ws with
  | nil => rfl
  | cons w ws => rfl

/-- Each frame delivered is a segment of the buffer, and the bytes between the segments are those discarded
(43_rx_resync R214). -/
theorem Drains.exists_gaps {init : Half} {buf rest : List Byte} {ws : List (List Byte)} {n : Nat}
    (h : Drains init buf ws n rest) :
    ∃ gaps : List (List Byte), gaps.length = ws.length + 1 ∧ buf = weave gaps ws ++ rest ∧
      n = (gaps.map (fun g => g.length)).sum := by
  induction h with
  | stop buf _ => exact ⟨[[]], rfl, rfl, rfl⟩
  | deliver buf ws n rest _ _ _ ih =>
    obtain ⟨gaps, hlength, hweave, hsum⟩ := ih
    refine ⟨[] :: gaps, by simp [hlength], ?_, by simpa using hsum⟩
    calc buf = buf.take 128 ++ buf.drop 128 := (List.take_append_drop 128 buf).symm
      _ = buf.take 128 ++ (weave gaps ws ++ rest) := by rw [← hweave]
      _ = weave ([] :: gaps) (buf.take 128 :: ws) ++ rest := by simp [weave]
  | discard buf ws n rest hlong _ _ ih =>
    obtain ⟨gaps, hlength, hweave, hsum⟩ := ih
    obtain ⟨b, tail, rfl⟩ := List.exists_cons_of_length_pos (show 0 < buf.length by omega)
    obtain ⟨gap, gaps, rfl⟩ := List.exists_cons_of_length_eq_add_one hlength
    refine ⟨(b :: gap) :: gaps, hlength, ?_, by simp [hsum]; omega⟩
    rw [weave_cons_head, List.cons_append, ← hweave]
    rfl

/-- A pass over a buffer, then one over what it left followed by more bytes, is one pass over all the bytes: the first
decided nothing that the later bytes could change (43_rx_resync R218). -/
theorem Drains.append {init : Half} {buf rest more rest' : List Byte} {ws ws' : List (List Byte)} {n n' : Nat}
    (h : Drains init buf ws n rest) (h' : Drains init (rest ++ more) ws' n' rest') :
    Drains init (buf ++ more) (ws ++ ws') (n + n') rest' := by
  induction h with
  | stop buf _ => rwa [List.nil_append, Nat.zero_add]
  | deliver buf ws n rest hlong hvalid _ ih =>
    have hsplit : buf ++ more = buf.take 128 ++ (buf.drop 128 ++ more) := by
      rw [← List.append_assoc, List.take_append_drop]
    rw [hsplit]
    exact .deliver_append (by rw [List.length_take]; omega) hvalid (ih h')
  | discard buf ws n rest hlong hvalid _ ih =>
    rw [Nat.add_right_comm]
    refine .discard _ _ _ _ (by rw [List.length_append]; omega) ?_ ?_
    · rwa [List.take_append_of_le_length hlong]
    · rw [List.drop_append_of_le_length (by omega)]
      exact ih h'

/-- Draining a stream from a position on is the greedy scan from there (43_rx_resync R218). -/
theorem Drains.greedyScan_eq {init : Half} {st buf rest : List Byte} {ws : List (List Byte)} {n p fuel : Nat}
    (h : Drains init buf ws n rest) (hbuf : buf = st.drop p) (hfuel : buf.length ≤ fuel) :
    ws = (greedyScan init st fuel p).1.map (fun x => x.2) ∧ rest = st.drop (greedyScan init st fuel p).2 := by
  have hlength : buf.length = st.length - p := by rw [hbuf, List.length_drop]
  induction h generalizing p fuel with
  | stop buf hshort =>
    have hscan : greedyScan init st fuel p = ([], p) := by
      cases fuel with
      | zero => rfl
      | succ fuel => exact if_neg (by omega)
    rw [hscan]
    exact ⟨rfl, hbuf⟩
  | deliver buf ws n rest hlong hvalid _ ih =>
    obtain ⟨k, rfl⟩ : ∃ k, fuel = k + 1 := ⟨fuel - 1, by omega⟩
    have hnext : buf.drop 128 = st.drop (p + 128) := by rw [hbuf, List.drop_drop]
    obtain ⟨hws, hrest⟩ := ih hnext (fuel := k) (by rw [List.length_drop]; omega) (by rw [List.length_drop]; omega)
    rw [greedyScan, if_pos (by omega), ← hbuf, if_pos hvalid]
    exact ⟨congrArg (buf.take 128 :: ·) hws, hrest⟩
  | discard buf ws n rest hlong hvalid _ ih =>
    obtain ⟨k, rfl⟩ : ∃ k, fuel = k + 1 := ⟨fuel - 1, by omega⟩
    have hnext : buf.drop 1 = st.drop (p + 1) := by rw [hbuf, List.drop_drop]
    rw [greedyScan, if_pos (by omega), ← hbuf, if_neg (Bool.eq_false_iff.mp hvalid)]
    exact ih hnext (by rw [List.length_drop]; omega) (by rw [List.length_drop]; omega)

end Sys2Proof.Safety

namespace Sys2Proof.Machine

open Sys2Proof.Safety

/-! ### The pass of a state and the state it leaves (43_rx_resync R212, R213) -/

/-- The pass RX_SCAN makes over the buffer of a running receiver. -/
def State.pass (s : State) : Pass := scanPass s.config.crcInit s.rxbuf

theorem State.pass_drains (s : State) :
    Drains s.config.crcInit s.rxbuf s.pass.delivered s.pass.discarded s.pass.rest :=
  drains_drain s.config.crcInit s.rxbuf.length s.rxbuf (Nat.le_refl _)

theorem State.pass_eq_of_drains {s : State} {ws : List (List Byte)} {n : Nat} {rest : List Byte}
    (h : Drains s.config.crcInit s.rxbuf ws n rest) : s.pass = { delivered := ws, discarded := n, rest := rest } :=
  h.drain_eq (Nat.le_refl _)

theorem State.pass_delivered_valid (s : State) :
    ∀ w ∈ s.pass.delivered, w.length = 128 ∧ validFrame s.config.crcInit w = true :=
  drain_delivered s.config.crcInit s.rxbuf.length s.rxbuf

theorem State.pass_rest_short (s : State) : s.pass.rest.length < 128 :=
  drain_rest_short s.config.crcInit s.rxbuf.length s.rxbuf (Nat.le_refl _)

section Scanned
variable (s : State)

/-- The whole state a pass leaves, said through the pass. -/
theorem scanned_eq :
    scanned s =
      { s.receiveLast s.pass.delivered with
        rxbuf := s.pass.rest
        found := !s.pass.delivered.isEmpty
        done := !s.loopMode && !s.pass.delivered.isEmpty
        response :=
          some
            { rvalue := BitVec.ofNat 32 s.pass.discarded
              rflags := scanFlags (!s.pass.delivered.isEmpty) (!s.loopMode && !s.pass.delivered.isEmpty)
              rframes := s.pass.delivered } } := rfl

theorem scanned_rxbuf : (scanned s).rxbuf = s.pass.rest := rfl

theorem scanned_found : (scanned s).found = !s.pass.delivered.isEmpty := rfl

theorem scanned_done : (scanned s).done = (!s.loopMode && !s.pass.delivered.isEmpty) := rfl

theorem scanned_answer :
    (scanned s).response =
      some
        { rvalue := BitVec.ofNat 32 s.pass.discarded
          rflags := scanFlags (scanned s).found (scanned s).done
          rframes := s.pass.delivered } := rfl

theorem scanned_crcReg : (scanned s).crcReg = s.crcReg := State.receiveLast_crcReg s _

theorem scanned_loopMode : (scanned s).loopMode = s.loopMode := State.receiveLast_loopMode s _

theorem scanned_errSticky : (scanned s).errSticky = s.errSticky := State.receiveLast_errSticky s _

theorem scanned_sameSurroundings : SameSurroundings s (scanned s) :=
  ⟨State.receiveLast_config s _, State.receiveLast_opIndex s _, State.receiveLast_events s _,
    State.receiveLast_session s _⟩

end Scanned

theorem scanned_found_iff (s : State) : (scanned s).found = true ↔ s.pass.delivered ≠ [] := by
  simp [scanned_found]

theorem scanned_done_iff (s : State) : (scanned s).done = true ↔ s.loopMode = false ∧ s.pass.delivered ≠ [] := by
  simp [scanned_done]

/-- A pass that delivers nothing leaves RXF and its presence bit. -/
theorem scanned_rxf_of_nil {s : State} (h : s.pass.delivered = []) :
    (scanned s).rxf = s.rxf ∧ (scanned s).rxfPresent = s.rxfPresent := by
  have hsame : s.receiveLast s.pass.delivered = s := by rw [h, State.receiveLast_nil]
  exact ⟨congrArg (·.rxf) hsame, congrArg (·.rxfPresent) hsame⟩

/-- RXF holds the last frame delivered (10_state R25). -/
theorem scanned_rxf_of_getLast? {s : State} {w : List Byte} (h : s.pass.delivered.getLast? = some w) :
    (scanned s).rxf.bytes = w ∧ (scanned s).rxfPresent = true := by
  obtain ⟨hrxf, hpresent⟩ := s.receiveLast_some _ w h
  obtain ⟨hlength, -⟩ := s.pass_delivered_valid w (List.mem_of_getLast? h)
  exact ⟨(congrArg Memory.bytes hrxf).trans (Memory.bytes_ofBytes w hlength), hpresent⟩

/-- The last frame of a pass that delivers any is the one in RXF. -/
theorem scanned_getLast?_of_ne_nil {s : State} (h : s.pass.delivered ≠ []) :
    s.pass.delivered.getLast? = some (scanned s).rxf.bytes ∧ (scanned s).rxfPresent = true := by
  have hlast := List.getLast?_eq_some_getLast h
  obtain ⟨hbytes, hpresent⟩ := scanned_rxf_of_getLast? hlast
  exact ⟨hlast.trans (congrArg some hbytes.symm), hpresent⟩

/-- FOUND in bit 0 and DONE in bit 1. -/
theorem scanFlags_eq (found done : Bool) :
    scanFlags found done = (if found then 1 else 0) ||| (if done then 2 else 0) := by
  cases found <;> cases done <;> decide

/-! ### The operations, one path at a time -/

section ReceiveOperations
variable {s t : State}

theorem exec_rxStart (mode : RxMode) (s : State) :
    exec (.rxStart mode) s =
      .next
        { s with
          rxbuf := [], loopMode := decide (mode = .loop), found := false, done := false, rxfPresent := false,
          response := some {} } := by
  cases mode <;> rfl

theorem exec_rxAppend_done {payload : List Byte} (hd : s.done = true) :
    exec (.rxAppend payload) s = .next (raised .rxDone 0 s) := if_pos hd

theorem exec_rxAppend_overflow {payload : List Byte} (hd : s.done = false)
    (hfull : 256 < s.rxbuf.length + payload.length) :
    exec (.rxAppend payload) s =
      .next (raised .rxOverflow (cappedWord (s.rxbuf.length + payload.length)) s) := by
  rw [exec, execRxAppend, hd]
  exact if_pos hfull

theorem exec_rxAppend_fits {payload : List Byte} (hd : s.done = false)
    (hfits : s.rxbuf.length + payload.length ≤ 256) :
    exec (.rxAppend payload) s =
      .next
        { s with
          rxbuf := s.rxbuf ++ payload
          response := some { rvalue := BitVec.ofNat 32 (s.rxbuf ++ payload).length } } := by
  rw [exec, execRxAppend, hd, List.length_append]
  exact if_neg (Nat.not_lt.mpr hfits)

theorem exec_rxScan_done (hd : s.done = true) : exec .rxScan s = .next (raised .rxDone 0 s) := execRxScan_done hd

theorem exec_rxScan_running (hd : s.done = false) : exec .rxScan s = .next (scanned s) := execRxScan_running hd

theorem eq_scanned_of_exec (hd : s.done = false) (h : exec .rxScan s = .next t) : t = scanned s := by
  cases (exec_rxScan_running hd).symm.trans h
  rfl

/-- An RX_APPEND that succeeds adds its bytes and answers no frame. -/
theorem rxAppend_of_ok {payload : List Byte} {r : Response} (h : exec (.rxAppend payload) s = .next t)
    (hr : t.response = some r) (hok : r.status = .ok) :
    t.config = s.config ∧ t.rxbuf = s.rxbuf ++ payload ∧ r.rframes = [] := by
  obtain ⟨-, rfl⟩ | ⟨-, -, rfl⟩ | ⟨-, -, rfl⟩ := execRxAppend_next h
  · cases hr; cases hok
  · cases hr; cases hok
  · cases hr; exact ⟨rfl, rfl, rfl⟩

/-- An RX_SCAN that succeeds drains the buffer into the frames it answers. -/
theorem rxScan_of_ok {r : Response} (h : exec .rxScan s = .next t) (hr : t.response = some r) (hok : r.status = .ok) :
    t.config = s.config ∧ ∃ n, Drains s.config.crcInit s.rxbuf r.rframes n t.rxbuf := by
  obtain ⟨-, rfl⟩ | ⟨-, rfl⟩ := execRxScan_next h
  · cases hr; cases hok
  · cases hr; exact ⟨State.receiveLast_config s _, _, s.pass_drains⟩

theorem exec_statusRead (s : State) :
    exec .statusRead s = .next { s with response := some { rvalue := statusWord s } } := rfl

end ReceiveOperations

/-! ### STATUS (10_state R33) -/

theorem statusWord_rxLen (s : State) : (statusWord s).extractLsb' 0 9 = BitVec.ofNat 9 s.rxbuf.length := by
  refine BitVec.eq_of_getLsbD_eq fun i hi => ?_
  simp only [statusWord, BitVec.getLsbD_extractLsb', BitVec.getLsbD_append, hi, decide_true, Bool.true_and, Nat.zero_add,
    if_true]

theorem statusWord_flags (s : State) :
    (statusWord s).getLsbD 9 = s.found ∧ (statusWord s).getLsbD 10 = s.done ∧ (statusWord s).getLsbD 11 = s.loopMode ∧
      (statusWord s).getLsbD 12 = s.txfPresent ∧ (statusWord s).getLsbD 13 = s.rxfPresent := by
  simp only [statusWord, BitVec.getLsbD_append]
  simp

theorem statusWord_reserved (s : State) : (statusWord s).extractLsb' 14 2 = 0 := by
  refine BitVec.eq_of_getLsbD_eq fun i hi => ?_
  simp only [statusWord, BitVec.getLsbD_extractLsb', BitVec.getLsbD_append]
  grind

theorem statusWord_errSticky (s : State) : (statusWord s).extractLsb' 16 16 = s.errSticky := by
  refine BitVec.eq_of_getLsbD_eq fun i hi => ?_
  simp only [statusWord, BitVec.getLsbD_extractLsb', BitVec.getLsbD_append]
  grind

/-- Every field of the view is 0 at reset (10_state R38). -/
theorem statusWord_resetWith (c : Config) : statusWord (State.resetWith c) = 0 := by
  simp [statusWord, State.resetWith]

end Sys2Proof.Machine

namespace Sys2Proof.Safety

open Sys2Proof.Machine

/-! ### Runs of appends and passes (43_rx_resync R218) -/

/-- A run that succeeds begins with an operation that does. -/
theorem runCollect_cons {i : Instr} {is : List Instr} {s t : State} {frames : List (List Byte)}
    (h : runCollect (i :: is) s = some (frames, t)) :
    ∃ u r later, exec i s = .next u ∧ u.response = some r ∧ r.status = .ok ∧ runCollect is u = some (later, t) ∧
      frames = r.rframes ++ later := by
  rw [runCollect] at h
  split at h
  · rename_i u hu
    split at h
    · rename_i r hr
      split at h
      · rename_i hok
        obtain ⟨⟨later, t'⟩, hlater, hframes⟩ := Option.map_eq_some_iff.mp h
        cases hframes
        exact ⟨u, r, later, hu, hr, hok, hlater, rfl⟩
      · cases h
    · cases h
  · cases h

/-- However a stream is split, its appends and passes together drain it as one pass does. -/
theorem runCollect_drains {ops : List Instr} {s t : State} {frames : List (List Byte)}
    (hops : ∀ i ∈ ops, isReceive i = true) (h : runCollect (ops ++ [.rxScan]) s = some (frames, t)) :
    ∃ n, Drains s.config.crcInit (s.rxbuf ++ appendedBytes ops) frames n t.rxbuf := by
  induction ops generalizing s frames with
  | nil =>
    obtain ⟨u, r, later, hu, hr, hok, hlater, rfl⟩ := runCollect_cons h
    obtain ⟨-, n, hdrains⟩ := rxScan_of_ok hu hr hok
    cases hlater
    exact ⟨n, by simpa [appendedBytes] using hdrains⟩
  | cons i ops ih =>
    obtain ⟨u, r, later, hu, hr, hok, hlater, rfl⟩ := runCollect_cons h
    obtain ⟨n, hrest⟩ := ih (fun j hj => hops j (List.mem_cons_of_mem i hj)) hlater
    cases i with
    | rxAppend payload =>
      obtain ⟨hconfig, hbuf, hnone⟩ := rxAppend_of_ok hu hr hok
      rw [hconfig, hbuf, List.append_assoc] at hrest
      exact ⟨n, by simpa [hnone, appendedBytes] using hrest⟩
    | rxScan =>
      obtain ⟨hconfig, m, hfirst⟩ := rxScan_of_ok hu hr hok
      rw [hconfig] at hrest
      exact ⟨m + n, hfirst.append hrest⟩
    | _ => cases hops _ List.mem_cons_self

/-! ### The statements -/

/-- Settles O31: the run drains the whole stream, and draining a stream is the greedy scan over it. -/
theorem deliveryIgnoresChunking : Obligations.DeliveryIgnoresChunking := by
  intro ops s t frames hempty hops h
  obtain ⟨n, hdrains⟩ := runCollect_drains hops h
  rw [hempty, List.nil_append] at hdrains
  exact hdrains.greedyScan_eq List.drop_zero.symm (Nat.le_refl _)

/-- Settles O26: the state a pass leaves, field by field. -/
theorem rxScanDrainsGreedily : Obligations.RxScanDrainsGreedily := by
  refine ⟨decodeOperation_word rfl (by decide), fun s => ⟨exec_rxScan_done, fun hd => ?_⟩⟩
  obtain ⟨htxf, htxfPresent⟩ := scanned_sameTx s
  refine ⟨scanned s, s.pass.delivered, s.pass.discarded, exec_rxScan_running hd, s.pass_drains, scanned_found_iff s,
    scanned_done_iff s, ?_, fun hnil => ?_, fun w => scanned_rxf_of_getLast?, fun _ => by rw [htxf], htxfPresent,
    scanned_crcReg s, scanned_loopMode s, scanned_errSticky s, scanned_sameSurroundings s⟩
  · rw [scanned_answer, scanFlags_eq]
  · obtain ⟨hrxf, hpresent⟩ := scanned_rxf_of_nil hnil
    exact ⟨fun _ => by rw [hrxf], hpresent⟩

/-- Settles O27: the gaps are read off the drain. -/
theorem deliveredFramesAreConsecutiveSegments : Obligations.DeliveredFramesAreConsecutiveSegments := by
  intro s t r hd h hr
  obtain rfl := eq_scanned_of_exec hd h
  cases hr
  obtain ⟨gaps, hlength, hweave, hsum⟩ := s.pass_drains.exists_gaps
  exact ⟨gaps, hlength, hweave, congrArg (BitVec.ofNat 32) hsum⟩

/-- Settles O29: the loop ends below 128 bytes, and 127 + 128 is below the buffer's 256. -/
theorem passLeavesRoomForARead : Obligations.PassLeavesRoomForARead := by
  intro s t hd h
  obtain rfl := eq_scanned_of_exec hd h
  have hshort : (scanned s).rxbuf.length < 128 := s.pass_rest_short
  refine ⟨Nat.le_of_lt_succ hshort, fun payload hpayload hrunning => ?_⟩
  refine ⟨_, exec_rxAppend_fits hrunning (by omega), rfl, ?_⟩
  rw [List.length_append]
  omega

/-- Settles O30: an error answers no frame, and a pass only valid ones. -/
theorem deliveredFramesAreValid : Obligations.DeliveredFramesAreValid := by
  intro s t r h hr
  obtain ⟨-, rfl⟩ | ⟨-, rfl⟩ := execRxScan_next h
  · cases hr
    exact nofun
  · cases hr
    exact s.pass_delivered_valid

/-- Settles O32: a pass is the greedy scan over its buffer, and DONE says that it delivered a frame, so RXF holds the
last; two valid frames drain one after the other. -/
theorem terminatingPassDeliversEveryFrame : Obligations.TerminatingPassDeliversEveryFrame := by
  refine ⟨fun s t r hd h hr hdone => ?_, fun s w1 w2 hd honce hw1 hw2 hv1 hv2 hbuf => ?_⟩
  · obtain rfl := eq_scanned_of_exec hd h
    cases hr
    obtain ⟨hframes, hrest⟩ := s.pass_drains.greedyScan_eq List.drop_zero.symm (Nat.le_refl _)
    obtain ⟨-, hdelivered⟩ := (scanned_done_iff s).mp hdone
    exact ⟨hframes, hrest, scanned_getLast?_of_ne_nil hdelivered⟩
  · have hdrains : Drains s.config.crcInit s.rxbuf [w1, w2] 0 [] := by
      have hsecond := Drains.deliver_append hw2 hv2 (.stop [] (by decide))
      rw [List.append_nil] at hsecond
      exact hbuf ▸ .deliver_append hw1 hv1 hsecond
    have hpass := State.pass_eq_of_drains hdrains
    have hfound : (scanned s).found = true := by rw [scanned_found, hpass]; rfl
    have hdone : (scanned s).done = true := by rw [scanned_done, hpass, honce]; rfl
    obtain ⟨hrxf, -⟩ := scanned_rxf_of_getLast? (s := s) (w := w2) (by rw [hpass]; rfl)
    refine ⟨scanned s, exec_rxScan_running hd, ?_, ?_, hdone, hfound, hrxf⟩
    · rw [scanned_answer, hfound, hdone, hpass]; rfl
    · rw [scanned_rxbuf, hpass]

/-- Settles O24: the reset state already is what RX_START ONCE leaves. -/
theorem rxStartBeginsSession : Obligations.RxStartBeginsSession :=
  ⟨decodeOperation_word rfl (by decide), decodeOperation_word rfl (by decide), exec_rxStart,
    fun c => exec_rxStart .once (State.resetWith c)⟩

/-- Settles O25: the three paths of R211. -/
theorem rxAppendAddsAtTail : Obligations.RxAppendAddsAtTail :=
  ⟨fun _ => decodeOperation_word rfl (by decide),
    fun _ _ => ⟨exec_rxAppend_done, exec_rxAppend_overflow, exec_rxAppend_fits⟩⟩

/-- Settles O28: the drain stops at once. -/
theorem shortBufferIsLeftAlone : Obligations.ShortBufferIsLeftAlone := by
  intro s hd hshort
  have hpass := State.pass_eq_of_drains (.stop s.rxbuf hshort)
  rw [exec_rxScan_running hd, scanned_eq, hpass]
  simp [hd, scanFlags]

/-- Settles O33: the view's fields, from bit 0 up. -/
theorem statusReadShowsLayout : Obligations.StatusReadShowsLayout := by
  refine ⟨decodeOperation_word rfl (by decide), fun s => ⟨statusWord s, exec_statusRead s, statusWord_rxLen s, ?_⟩,
    fun c => ?_⟩
  · obtain ⟨hfound, hdone, hloop, htx, hrx⟩ := statusWord_flags s
    exact ⟨hfound, hdone, hloop, htx, hrx, statusWord_reserved s, statusWord_errSticky s⟩
  · rw [exec_statusRead, statusWord_resetWith]

end Sys2Proof.Safety
end

section
/-! The session family (45_host_session): the wire commands, the sender's recovery, the end of a `pollOnce` and the
silent link. First what a turn does, said once for each place these runs find an activity at; a turn that only moves the
host's side leaves `State.afterTurn`. -/

namespace Sys2Proof.Machine

open Sys2Proof.Safety

/-! ### Moves of the host's side -/

/-- A move of the host's side changes no state of the block. -/
theorem OnlySession.sameBlock {s t : State} (h : OnlySession s t) : SameBlock s t := by
  rw [h.eq]
  exact ⟨⟨rfl, sameFrames_of_eq rfl rfl rfl rfl, rfl, rfl, rfl, rfl⟩, rfl⟩

theorem OnlySession.rxf_eq {s t : State} (h : OnlySession s t) : t.rxf = s.rxf := by rw [h.eq]

theorem OnlySession.done_eq {s t : State} (h : OnlySession s t) : t.done = s.done := by rw [h.eq]

/-- `s` after a turn that only moves the host's side: the session it leaves and the inputs still to come. -/
def State.afterTurn (s : State) (x : Session) (rest : List Event) : State := { s with session := x, events := rest }

theorem sameBlock_afterTurn (s : State) (x : Session) (rest : List Event) : SameBlock s (s.afterTurn x rest) :=
  OnlySession.sameBlock (s := { s with events := rest }) rfl

/-! ### A step whose input is a turn, then a run -/

section Turn
variable {s : State} {env : Env} {rest : List Event}

theorem step_callerTurn (hevents : s.events = .turn .caller env :: rest) :
    step s = callerTurn env { s with events := rest } := step_cons hevents

theorem step_senderTurn (hevents : s.events = .turn .sender env :: rest) :
    step s = senderTurn env { s with events := rest } := step_cons hevents

theorem step_receiverTurn (hevents : s.events = .turn .receiver env :: rest) :
    step s = receiverTurn env { s with events := rest } := step_cons hevents

end Turn

theorem runSteps_of_step {n : Nat} {s u t : State} (hstep : step s = .next u) (hrun : runSteps n u = .next t) :
    runSteps (n + 1) s = .next t :=
  (runSteps_succ hstep).trans hrun

theorem runSteps_one {s t : State} (h : step s = .next t) : runSteps 1 s = .next t := runSteps_succ h

/-! ### An activity's operation -/

/-- An activity whose operation ends with status OK goes on with the response. -/
theorem issueOrFail_exec {i : Instr} {o : Operation} {env : Env} {s u : State} {r : Response}
    {k : Response → State → State} (hencode : encode i = .operation o) (hexec : exec i (accept s) = .next u)
    (hr : u.response = some r) (hok : r.status = .ok) : issueOrFail (operationOf i) env s k = .next (k r u) := by
  have hissue : issue (operationOf i) s = .next u := by
    rw [operationOf_eq hencode, issue_ok (decodeOperation_of_encode hencode), hexec]
  exact issueOrFail_ok hissue hr hok

/-! ### The end of a session (45_host_session R244, R251) -/

section Ended
variable (e : SessionEnd) (env : Env) (s : State)

theorem endSession_ending : (endSession e env s).session.ending = some e := rfl

theorem endSession_caller : (endSession e env s).session.caller = .idle := rfl

theorem endSession_sender : (endSession e env s).session.sender = .off := rfl

theorem endSession_receiver : (endSession e env s).session.receiver = .off := rfl

theorem endSession_delivered : (endSession e env s).session.delivered = s.session.delivered := by
  simp only [endSession, cancelActivities]
  split <;> rfl

end Ended

/-! ### The sender (45_host_session R242, R246) -/

section Sender
variable {s : State} {env : Env} {rest : List Event}

/-- A write that fails with a disconnect-class error starts the recovery; what it wrote by then has reached the device
(log 18). -/
theorem step_write_disconnect {bs : List Byte} {code : Half} (hsender : s.session.sender = .write bs)
    (hwrite : env.write = .error code) (hclass : code ∈ s.config.disconnectClass)
    (hevents : s.events = .turn .sender env :: rest) :
    step s =
      .next (s.afterTurn
        { s.session with sender := .sleepRecovery, sent := s.session.sent ++ [bs.take env.cut] } rest) := by
  rw [step_senderTurn hevents, senderTurn, hsender]
  simp only [afterWrite, hwrite]
  rw [if_pos (List.contains_iff_mem.mpr hclass)]
  rfl

/-- A write that fails with any other error ends the session (45_host_session R251). -/
theorem step_write_fatal {bs : List Byte} {code : Half} (hsender : s.session.sender = .write bs)
    (hwrite : env.write = .error code) (hclass : ¬ code ∈ s.config.disconnectClass)
    (hevents : s.events = .turn .sender env :: rest) :
    step s = .next (failSession (.writeError code) env { s with events := rest }) := by
  rw [step_senderTurn hevents, senderTurn, hsender]
  simp only [afterWrite, hwrite]
  rw [if_neg (fun h => hclass (List.contains_iff_mem.mp h))]

theorem step_sleepRecovery_short (hsender : s.session.sender = .sleepRecovery) (helapsed : env.elapsed < 1000)
    (hevents : s.events = .turn .sender env :: rest) : step s = .next { s with events := rest } := by
  rw [step_senderTurn hevents, senderTurn, hsender]
  exact congrArg Host.Outcome.next (if_neg (Nat.not_le.mpr helapsed))

theorem step_sleepRecovery_slept (hsender : s.session.sender = .sleepRecovery) (helapsed : 1000 ≤ env.elapsed)
    (hevents : s.events = .turn .sender env :: rest) :
    step s = .next (s.afterTurn { s.session with sender := .reopenClose } rest) := by
  rw [step_senderTurn hevents, senderTurn, hsender]
  exact congrArg Host.Outcome.next (if_pos helapsed)

theorem step_reopenClose (hsender : s.session.sender = .reopenClose)
    (hevents : s.events = .turn .sender env :: rest) :
    step s = .next (s.afterTurn { s.session with handleOpen := false, sender := .reopenOpen } rest) := by
  rw [step_senderTurn hevents, senderTurn, hsender]
  rfl

theorem step_reopenOpen (hsender : s.session.sender = .reopenOpen) (hopen : env.openError = none)
    (hevents : s.events = .turn .sender env :: rest) :
    step s =
      .next (s.afterTurn
        { s.session with handleOpen := true, reopens := s.session.reopens + 1, sender := .serialize } rest) := by
  rw [step_senderTurn hevents, senderTurn, hsender]
  simp only [hopen]
  rfl

end Sender

/-! ### The receiver (45_host_session R243, R249) -/

/-- A read that gives no bytes: would-block, end-of-stream or an empty read (45_host_session R243). -/
def ReadOutcome.Silent (x : ReadOutcome) : Prop := x = .wouldBlock ∨ x = .endOfStream ∨ x = .bytes []

theorem readBytes_silent {env : Env} {s : State} (h : env.read.Silent) : readBytes env s = .ok [] := by
  obtain hread | hread | hread := h
  · rw [readBytes, hread]
  · rw [readBytes, hread]
  · rw [readBytes, hread]
    simp

section Receiver
variable {s : State} {env : Env} {rest : List Event}

theorem step_read_silent (hreceiver : s.session.receiver = .read) (hread : env.read.Silent)
    (hevents : s.events = .turn .receiver env :: rest) :
    step s = .next (s.afterTurn { s.session with receiver := .append [] } rest) := by
  rw [step_receiverTurn hevents, receiverTurn, hreceiver]
  simp only [readBytes_silent hread]
  rfl

/-- The receiver appends what it read, where that fits. -/
theorem step_append {bs : List Byte} (hreceiver : s.session.receiver = .append bs) (hd : s.done = false)
    (hfits : s.rxbuf.length + bs.length ≤ 256) (hevents : s.events = .turn .receiver env :: rest) :
    step s =
      .next
        { s with
          rxbuf := s.rxbuf ++ bs
          response := some { rvalue := BitVec.ofNat 32 (s.rxbuf ++ bs).length }
          opIndex := s.opIndex + 1
          events := rest
          session := { s.session with receiver := .scan } } := by
  rw [step_receiverTurn hevents, receiverTurn, hreceiver]
  exact issueOrFail_exec rfl (exec_rxAppend_fits (s := accept { s with events := rest }) hd hfits) rfl rfl

/-- The receiver's pass: it goes on to hand over the frames of the response, with DONE from its bit 1. -/
theorem step_scan {u : State} {r : Response} {ws : List (List Byte)} {done : Bool}
    (hreceiver : s.session.receiver = .scan) (hevents : s.events = .turn .receiver env :: rest)
    (hexec : exec .rxScan (accept { s with events := rest }) = .next u) (hr : u.response = some r)
    (hok : r.status = .ok) (hframes : r.rframes = ws) (hdone : r.rflags.getLsbD 1 = done) :
    step s = .next (u.receiverTo (.deliver ws done)) := by
  rw [step_receiverTurn hevents, receiverTurn, hreceiver, ← hframes, ← hdone]
  exact issueOrFail_exec rfl hexec hr hok

/-- A pass over fewer than 128 bytes delivers nothing and leaves them (43_rx_resync R215). -/
theorem step_scan_short (hreceiver : s.session.receiver = .scan) (hd : s.done = false) (hshort : s.rxbuf.length < 128)
    (hevents : s.events = .turn .receiver env :: rest) :
    step s =
      .next
        { s with
          found := false
          response := some {}
          opIndex := s.opIndex + 1
          events := rest
          session := { s.session with receiver := .deliver [] false } } :=
  step_scan hreceiver hevents (shortBufferIsLeftAlone (accept { s with events := rest }) hd hshort) rfl rfl rfl rfl

/-- A single-shot pass over two valid frames delivers both, sets DONE and leaves the second in RXF (43_rx_resync
R220). -/
theorem step_scan_twoFrames {w1 w2 : List Byte} (hreceiver : s.session.receiver = .scan) (hd : s.done = false)
    (honce : s.loopMode = false) (hw1 : w1.length = 128) (hw2 : w2.length = 128)
    (hv1 : validFrame s.config.crcInit w1 = true) (hv2 : validFrame s.config.crcInit w2 = true)
    (hbuf : s.rxbuf = w1 ++ w2) (hevents : s.events = .turn .receiver env :: rest) :
    ∃ u : State, step s = .next (u.receiverTo (.deliver [w1, w2] true)) ∧ u.session = s.session ∧ u.events = rest ∧
      u.done = true ∧ u.rxf.bytes = w2 := by
  obtain ⟨-, htwo⟩ := terminatingPassDeliversEveryFrame
  obtain ⟨u, hexec, hr, -, hdone, -, hrxf⟩ :=
    htwo (accept { s with events := rest }) w1 w2 hd honce hw1 hw2 hv1 hv2 hbuf
  obtain rfl := eq_scanned_of_exec (s := accept { s with events := rest }) hd hexec
  obtain ⟨-, -, hrest, hsession⟩ := scanned_sameSurroundings (accept { s with events := rest })
  have hflag : (0x03 : Byte).getLsbD 1 = true := by decide
  exact ⟨_, step_scan hreceiver hevents hexec hr rfl rfl hflag, hsession, hrest, hdone, hrxf⟩

/-- The frames of the pass are handed over: the receiver exits if the pass set DONE, and sleeps otherwise. -/
theorem step_deliver_nil {done : Bool} (hreceiver : s.session.receiver = .deliver [] done)
    (hevents : s.events = .turn .receiver env :: rest) :
    step s = .next (s.afterTurn { s.session with receiver := if done then .exited else .sleepIdle } rest) := by
  rw [step_receiverTurn hevents, receiverTurn, hreceiver]
  rfl

/-- `pollOnce` keeps a delivered frame (45_host_session R249). -/
theorem step_deliver_keepLast {w : List Byte} {ws : List (List Byte)} {done : Bool}
    (hreceiver : s.session.receiver = .deliver (w :: ws) done) (hconsumer : s.session.consumer = .keepLast)
    (hevents : s.events = .turn .receiver env :: rest) :
    step s =
      .next (s.afterTurn
        { s.session with delivered := s.session.delivered ++ [w], receiver := .deliver ws done } rest) := by
  rw [step_receiverTurn hevents, receiverTurn, hreceiver]
  simp only [onResponse, hconsumer]
  rfl

theorem step_sleepIdle_short (hreceiver : s.session.receiver = .sleepIdle) (helapsed : env.elapsed < 100)
    (hevents : s.events = .turn .receiver env :: rest) : step s = .next { s with events := rest } := by
  rw [step_receiverTurn hevents, receiverTurn, hreceiver]
  exact congrArg Host.Outcome.next (if_neg (Nat.not_le.mpr helapsed))

theorem step_sleepIdle_slept (hreceiver : s.session.receiver = .sleepIdle) (helapsed : 100 ≤ env.elapsed)
    (hevents : s.events = .turn .receiver env :: rest) :
    step s = .next (s.afterTurn { s.session with receiver := .read } rest) := by
  rw [step_receiverTurn hevents, receiverTurn, hreceiver]
  exact congrArg Host.Outcome.next (if_pos helapsed)

end Receiver

/-! ### The caller (45_host_session R244) -/

/-- The caller ends a single-shot `pollOnce` once the receiver has exited, with the last frame delivered as its result
(45_host_session R249). -/
theorem step_complete_keepLast {s : State} {env : Env} {rest : List Event} {w : List Byte}
    (hcaller : s.session.caller = .waiting) (hmode : s.session.mode = .once)
    (hconsumer : s.session.consumer = .keepLast) (hreceiver : s.session.receiver = .exited)
    (hlast : s.session.delivered.getLast? = some w) (hevents : s.events = .turn .caller env :: rest) :
    step s = .next (endSession (.completed (some w)) env { s with events := rest }) := by
  have hresult : sessionResult s.session = some w := by rw [sessionResult, hconsumer, hlast]
  rw [step_callerTurn hevents, callerTurn, hcaller, ← hresult]
  exact if_pos ⟨hmode, hreceiver⟩

/-! ### The wire commands (45_host_session R248) -/

section WireCommand
variable {s : State} {code : Byte} {ws : List (List Byte)} {done : Bool}

theorem dropFrame_command (h : s.session.receiver = .command code ws done) :
    dropFrame s = { s with session := { s.session with receiver := .deliver ws done } } := by
  simp only [dropFrame, h]

theorem keepFrame_command (h : s.session.receiver = .command code ws done) :
    keepFrame s =
      { s with
        session := { s.session with receiver := .decodeFields s.session.consumer.requested [] ws done } } := by
  simp only [keepFrame, h]

theorem step_command {env : Env} {rest : List Event} (hreceiver : s.session.receiver = .command code ws done)
    (hevents : s.events = .turn .receiver env :: rest) :
    step s = dispatchCommand code { s with events := rest } := by
  rw [step_receiverTurn hevents, receiverTurn, hreceiver]

end WireCommand

/-! ### Rounds of a silent link (45_host_session R243, R252) -/

theorem session_receiver_self {x : Session} {a : ReceiverAt} (h : x.receiver = a) : { x with receiver := a } = x := by
  subst h; rfl

/-- One round whose read gives nothing ends where it began. -/
theorem runSteps_silentRound {x : ReadOutcome × Nat} {s : State} {rest : List Event}
    (hreceiver : s.session.receiver = .read) (hd : s.done = false) (hshort : s.rxbuf.length < 128)
    (hread : x.1.Silent) (helapsed : 100 ≤ x.2) (hevents : s.events = silentRound x ++ rest) :
    ∃ t, runSteps 5 s = .next t ∧ t.session = s.session ∧ t.events = rest ∧ t.rxbuf = s.rxbuf ∧ t.done = false := by
  have hfits : s.rxbuf.length + 0 ≤ 256 := by omega
  have hlength : (s.rxbuf ++ []).length < 128 := by rwa [List.append_nil]
  have hrun :=
    runSteps_of_step (step_read_silent hreceiver hread hevents) <|
    runSteps_of_step (step_append rfl hd hfits rfl) <|
    runSteps_of_step (step_scan_short rfl hd hlength rfl) <|
    runSteps_of_step (step_deliver_nil rfl rfl) <|
    runSteps_one (step_sleepIdle_slept rfl helapsed rfl)
  exact ⟨_, hrun, session_receiver_self hreceiver, rfl, List.append_nil _, hd⟩

/-- However many such rounds end where they began. -/
theorem runSteps_silentRounds (rounds : List (ReadOutcome × Nat)) {s : State} {rest : List Event}
    (hreceiver : s.session.receiver = .read) (hd : s.done = false) (hshort : s.rxbuf.length < 128)
    (hrounds : ∀ x ∈ rounds, x.1.Silent ∧ 100 ≤ x.2) (hevents : s.events = rounds.flatMap silentRound ++ rest) :
    ∃ t, runSteps (5 * rounds.length) s = .next t ∧ t.session = s.session ∧ t.events = rest ∧ t.rxbuf = s.rxbuf ∧
      t.done = false := by
  induction rounds generalizing s with
  | nil => exact ⟨s, rfl, rfl, hevents, rfl, hd⟩
  | cons x rounds ih =>
    obtain ⟨hread, helapsed⟩ := hrounds x List.mem_cons_self
    rw [List.flatMap_cons, List.append_assoc] at hevents
    obtain ⟨u, hround, husession, huevents, hubuf, hud⟩ :=
      runSteps_silentRound hreceiver hd hshort hread helapsed hevents
    obtain ⟨t, hlater, htsession, htevents, htbuf, htd⟩ :=
      ih (s := u) (by rw [husession, hreceiver]) hud (by rwa [hubuf])
        (fun y hy => hrounds y (List.mem_cons_of_mem x hy)) huevents
    refine ⟨t, ?_, htsession.trans husession, htevents, htbuf.trans hubuf, htd⟩
    rw [List.length_cons, Nat.mul_succ, Nat.add_comm, runSteps_add hround, hlater]

/-! ### The end of a `pollOnce` (45_host_session R244, R249) -/

/-- A `pollOnce` whose pass set DONE, with two frames to hand over: three turns of the receiver and one of the caller
end the session with the second frame. -/
theorem runSteps_pollOnce {w1 w2 : List Byte} {s : State} {env1 env2 env3 env4 : Env} {rest : List Event}
    (hcaller : s.session.caller = .waiting) (hmode : s.session.mode = .once)
    (hconsumer : s.session.consumer = .keepLast) (hreceiver : s.session.receiver = .deliver [w1, w2] true)
    (hevents : s.events =
      [.turn .receiver env1, .turn .receiver env2, .turn .receiver env3, .turn .caller env4] ++ rest) :
    ∃ x, runSteps 4 s = .next (endSession (.completed (some w2)) env4 (s.afterTurn x rest)) ∧
      x.delivered = s.session.delivered ++ [w1, w2] := by
  have hrun :=
    runSteps_of_step (step_deliver_keepLast hreceiver hconsumer hevents) <|
    runSteps_of_step (step_deliver_keepLast rfl hconsumer rfl) <|
    runSteps_of_step (step_deliver_nil rfl rfl) <|
    runSteps_one (step_complete_keepLast hcaller hmode hconsumer rfl List.getLast?_concat rfl)
  exact ⟨_, hrun, List.append_assoc _ _ _⟩

end Sys2Proof.Machine

namespace Sys2Proof.Safety

open Sys2Proof.Machine

/-! ### The statements -/

/-- Settles O55: the four turns one after the other; each moves only the sender and the handle. -/
theorem disconnectIsRecoveredByOneReopen : Obligations.DisconnectIsRecoveredByOneReopen := by
  refine ⟨fun _ _ _ => step_sleepRecovery_short, ?_⟩
  intro bs code cut elapsed more s hsender hclass helapsed hevents
  have hclosed :=
    runSteps_of_step (step_write_disconnect hsender rfl hclass hevents) <|
    runSteps_of_step (step_sleepRecovery_slept rfl helapsed rfl) <|
    runSteps_one (step_reopenClose rfl rfl)
  have hopened := (runSteps_add (n := 1) hclosed).trans (runSteps_one (step_reopenOpen rfl rfl rfl))
  exact ⟨_, _, hclosed, rfl, rfl, hopened, rfl, rfl, rfl, rfl, rfl, rfl, rfl, sameBlock_afterTurn s _ _, rfl⟩

/-- Settles O56: the end of a session moves only the host's side. -/
theorem otherWriteErrorEndsSession : Obligations.OtherWriteErrorEndsSession := by
  intro bs code cut more s hsender hclass hevents
  have hstep := step_write_fatal hsender rfl hclass hevents
  have hblock := (failSession_only (.writeError code) { write := .error code, cut := cut }
    { s with events := more }).sameBlock
  exact ⟨_, hstep, endSession_ending _ _ _, endSession_sender _ _ _, endSession_receiver _ _ _,
    endSession_caller _ _ _, hblock⟩

/-- Settles O57: the pass delivers both frames and sets DONE; then the frames are kept one by one, and the last is the
result. -/
theorem pollOnceReturnsLastDelivered : Obligations.PollOnceReturnsLastDelivered := by
  intro w1 w2 more s hcaller hmode hconsumer hreceiver _ hd honce hw1 hw2 hv1 hv2 hbuf hevents
  obtain ⟨u, hscan, husession, huevents, hudone, hurxf⟩ :=
    step_scan_twoFrames hreceiver hd honce hw1 hw2 hv1 hv2 hbuf hevents
  obtain ⟨x, hend, hdelivered⟩ :=
    runSteps_pollOnce (s := u.receiverTo (.deliver [w1, w2] true)) (w1 := w1) (w2 := w2)
      ((congrArg (·.caller) husession).trans hcaller) ((congrArg (·.mode) husession).trans hmode)
      ((congrArg (·.consumer) husession).trans hconsumer) rfl huevents
  have hblock := endSession_only (.completed (some w2)) {} ((u.receiverTo (.deliver [w1, w2] true)).afterTurn x more)
  refine ⟨_, runSteps_of_step hscan hend, endSession_ending _ _ _, ?_, endSession_sender _ _ _,
    endSession_receiver _ _ _, endSession_caller _ _ _, hblock.rxf_eq ▸ hurxf, hblock.done_eq.trans hudone⟩
  rw [endSession_delivered]
  exact hdelivered.trans (congrArg (·.delivered ++ [w1, w2]) husession)

/-- Settles O58: a round that reads nothing ends where it began, so any number of them does. -/
theorem silentLinkNeverEndsSession : Obligations.SilentLinkNeverEndsSession :=
  ⟨fun _ _ _ => step_sleepIdle_short, fun rounds _ _ => runSteps_silentRounds rounds⟩

/-- Settles O45: the receiver's turn is the dispatch of the byte it holds. -/
theorem stepRunsDecodedWireCommand : Obligations.StepRunsDecodedWireCommand := by
  intro env more code rest done s hevents hreceiver
  rw [step_command hreceiver hevents, dispatchCommand]
  cases hdecode : decodeWire code with
  | ok i => exact ⟨fun j hj => by cases hj; rfl, fun hnone => absurd rfl (hnone i)⟩
  | error e =>
    exact ⟨nofun, fun _ => congrArg Host.Outcome.next (dropFrame_command (s := { s with events := more }) hreceiver)⟩

/-- Settles O46: GET keeps the frame, the four other wire commands drop it. -/
theorem pollKeepsOnlyGetFrames : Obligations.PollKeepsOnlyGetFrames := by
  intro code rest done s hreceiver
  have hdrop : Host.Outcome.next (dropFrame s) = (.next _ : Result) :=
    congrArg Host.Outcome.next (dropFrame_command hreceiver)
  refine ⟨congrArg Host.Outcome.next (keepFrame_command hreceiver), ?_⟩
  rintro i (rfl | rfl | rfl | rfl)
  · exact hdrop
  · exact hdrop
  · exact hdrop
  · exact hdrop

end Sys2Proof.Safety
end

section
/-! The exception family (60_exceptions): an operation of the command port succeeds, or raises an error of its row and
changes nothing else (R272, R274, R275); and under a configuration that meets 00_scope R9 nothing ever stops (R270). -/

namespace Sys2Proof.Machine

open Sys2Proof.Safety

/-! ### How an operation ends (60_exceptions R272, R274) -/

/-- The two ways an operation of the command port ends: with status OK, or with an error of its row. -/
inductive Ending (i : Instr) (s : State) : State → Prop where
  | ok (t : State) (h : t.response.map (fun r => r.status) = some .ok) : Ending i s t
  | error (e : ErrorCode) (info : Word) (he : e ∈ raisable i) : Ending i s (raised e info s)

/-- One instruction at a time. The wire commands answer nothing, so what is recorded is not theirs. -/
theorem exec_ending {i : Instr} {s t : State} (hi : ∀ c : Command, i ≠ c.instr) (h : exec i s = .next t) :
    Ending i s t := by
  cases i with
  | crcInit => cases respond_next h; exact .ok _ rfl
  | crcFeed => cases respond_next h; exact .ok _ rfl
  | crcRead => cases respond_next h; exact .ok _ rfl
  | frameLoadRaw =>
    obtain ⟨-, rfl⟩ | ⟨-, rfl⟩ := execFrameLoadRaw_next h
    · exact .error .sizeMismatch _ (by simp [raisable])
    · exact .ok _ rfl
  | frameFromCommand =>
    obtain ⟨-, rfl⟩ | ⟨-, -, -, -, rfl⟩ := execFrameFromCommand_next h
    · exact .error .invalidCommand _ (by simp [raisable])
    · exact .ok _ rfl
  | fieldGet =>
    obtain ⟨-, rfl⟩ | ⟨-, -, rfl⟩ | ⟨-, -, -, -, -, rfl⟩ := execFieldGet_next h
    · exact .error .noFrame _ (by simp [raisable])
    · exact .error .unknownField _ (by simp [raisable])
    · exact .ok _ rfl
  | fieldSet =>
    obtain ⟨-, rfl⟩ | ⟨-, -, rfl⟩ | ⟨-, -, -, -, rfl⟩ | ⟨-, -, -, -, -, rfl⟩ | ⟨-, -, -, -, -, -, -, rfl⟩ :=
      execFieldSet_next h
    · exact .error .noFrame _ (by simp [raisable])
    · exact .error .unknownField _ (by simp [raisable])
    · exact .error .unsupportedEncode _ (by simp [raisable])
    · exact .error .valueRange _ (by simp [raisable])
    · exact .ok _ rfl
  | setDataFlags =>
    obtain ⟨-, rfl⟩ | ⟨-, -, -, rfl⟩ | ⟨-, -, -, -, -, rfl⟩ := execSetDataFlags_next h
    · exact .error .noFrame _ (by simp [raisable])
    · exact .error .unknownField _ (by simp [raisable])
    · exact .ok _ rfl
  | isValid =>
    obtain ⟨-, rfl⟩ | ⟨-, rfl⟩ := execIsValid_next h
    · exact .error .noFrame _ (by simp [raisable])
    · exact .ok _ rfl
  | frameCrc =>
    obtain ⟨-, rfl⟩ | ⟨-, rfl⟩ := execFrameCrc_next h
    · exact .error .noFrame _ (by simp [raisable])
    · exact .ok _ rfl
  | serialize =>
    obtain ⟨-, rfl⟩ | ⟨-, rfl⟩ := execSerialize_next h
    · exact .error .noFrame _ (by simp [raisable])
    · exact .ok _ rfl
  | rxStart => cases respond_next h; exact .ok _ rfl
  | rxAppend =>
    obtain ⟨-, rfl⟩ | ⟨-, -, rfl⟩ | ⟨-, -, rfl⟩ := execRxAppend_next h
    · exact .error .rxDone _ (by simp [raisable])
    · exact .error .rxOverflow _ (by simp [raisable])
    · exact .ok _ rfl
  | rxScan =>
    obtain ⟨-, rfl⟩ | ⟨-, rfl⟩ := execRxScan_next h
    · exact .error .rxDone _ (by simp [raisable])
    · exact .ok _ rfl
  | statusRead => cases respond_next h; exact .ok _ rfl
  | cmdNothing => exact absurd rfl (hi .nothing)
  | cmdGet => exact absurd rfl (hi .get)
  | cmdSet => exact absurd rfl (hi .set)
  | cmdButton => exact absurd rfl (hi .button)
  | cmdShutdown => exact absurd rfl (hi .shutdown)

/-- An answer with an error status comes from that error being raised. -/
theorem Ending.of_error {i : Instr} {s t : State} {r : Response} {e : ErrorCode} (h : Ending i s t)
    (hr : t.response = some r) (he : r.status = .error e) : e ∈ raisable i ∧ ∃ info, t = raised e info s := by
  cases h with
  | ok _ hok => rw [hr, Option.map_some, he] at hok; cases hok
  | error e' info hmem => cases hr; cases he; exact ⟨hmem, info, rfl⟩

/-- A failed operation of the command port: the error is ILLEGAL_OP or one of the row of what the operation decodes to,
and the state left is the accepted one with that error raised. -/
theorem issue_of_error {o : Operation} {s t : State} {r : Response} {e : ErrorCode} (h : issue o s = .next t)
    (hr : t.response = some r) (he : r.status = .error e) :
    (e = .illegalOp ∨ ∃ i, decodeOperation o = .ok i ∧ e ∈ raisable i) ∧ ∃ info, t = raised e info (accept s) := by
  obtain ⟨i, hdecode, hexec⟩ | ⟨_, -, rfl⟩ := issue_next h
  · obtain ⟨hmem, hraised⟩ := (exec_ending (decodeOperation_not_wire hdecode) hexec).of_error hr he
    exact ⟨.inr ⟨i, hdecode, hmem⟩, hraised⟩
  · cases hr; cases he
    exact ⟨.inl rfl, o.word, rfl⟩

/-! ### Nothing stops (60_exceptions R270) -/

/-- With its frame absent an operation raises NO_FRAME, so only the present frame is left to ask about. -/
theorem NeedsFrame.completes {sel : FrameSel} {i : Instr} {s : State} (hi : NeedsFrame sel i)
    (h : s.present sel = true → Completes (exec i s)) : Completes (exec i s) := by
  cases hp : s.present sel with
  | false => exact ⟨_, hi.exec_absent hp⟩
  | true => exact h hp

section Completes
variable {s : State} (hwf : s.config.wellFormed = true)
include hwf

theorem exec_frameFromCommand_completes (sel : FrameSel) (arg : Byte) :
    Completes (exec (.frameFromCommand sel arg) s) := by
  by_cases harg : (Command.ofCode? arg).isSome = true
  · obtain ⟨m, hm, -⟩ := commandBytes_ok arg hwf
    exact ⟨_, exec_frameFromCommand_command harg hm⟩
  · exact ⟨_, exec_frameFromCommand_other harg⟩

theorem exec_fieldGet_completes (sel : FrameSel) (fid : Byte) : Completes (exec (.fieldGet sel fid) s) :=
  (NeedsFrame.fieldGet fid).completes fun hp => by
    cases hd : desc s.config fid with
    | none => exact ⟨_, exec_fieldGet_unknown hp hd⟩
    | some d =>
      obtain ⟨hrange, -⟩ := desc_in_frame hwf hd
      obtain ⟨bs, hbytes, -⟩ := Memory.readRange_in_frame (s.frame sel) hrange
      exact ⟨_, exec_fieldGet_field hp hd hbytes⟩

theorem exec_fieldSet_completes (sel : FrameSel) (fid : Byte) (v : Word) :
    Completes (exec (.fieldSet sel fid v) s) :=
  (NeedsFrame.fieldSet fid v).completes fun hp => by
    cases hd : desc s.config fid with
    | none => exact ⟨_, exec_fieldSet_unknown hp hd⟩
    | some d =>
      cases hkind : encodable d.kind with
      | false => exact ⟨_, exec_fieldSet_unsupported hp hd hkind⟩
      | true =>
        obtain ⟨hrange, -⟩ := desc_in_frame hwf hd
        obtain hfits | hmisfit := Nat.lt_or_ge v.toNat (2 ^ (8 * d.length))
        · obtain ⟨m, -, hexec⟩ := exec_fieldSet_field hp hd hkind hfits hrange
          exact ⟨_, hexec⟩
        · exact ⟨_, exec_fieldSet_misfit hp hd hkind hmisfit⟩

theorem exec_setDataFlags_completes (sel : FrameSel) (fids : List Byte) :
    Completes (exec (.setDataFlags sel fids) s) :=
  (NeedsFrame.setDataFlags fids).completes fun hp => by
    cases hmask : dataFlagsMask s.config 0 fids with
    | error f => exact ⟨_, exec_setDataFlags_unknown hp hmask⟩
    | ok mask =>
      obtain ⟨-, -, hflags, -⟩ := Config.header_bounds hwf
      obtain ⟨m, -, hexec⟩ := exec_setDataFlags_mask hp hmask (by omega)
      exact ⟨_, hexec⟩

/-- The four operations that use a configured range find it inside the frame; no other can stop at all. -/
theorem exec_completes (i : Instr) : Completes (exec i s) := by
  cases i with
  | crcInit => exact ⟨_, exec_crcInit s⟩
  | crcFeed b => exact ⟨_, exec_crcFeed b s⟩
  | crcRead => exact ⟨_, exec_crcRead s⟩
  | frameLoadRaw sel payload =>
    by_cases hlength : payload.length = 128
    · exact ⟨_, exec_frameLoadRaw_fits hlength⟩
    · exact ⟨_, exec_frameLoadRaw_misfit hlength⟩
  | frameFromCommand sel arg => exact exec_frameFromCommand_completes hwf sel arg
  | fieldGet sel fid => exact exec_fieldGet_completes hwf sel fid
  | fieldSet sel fid v => exact exec_fieldSet_completes hwf sel fid v
  | setDataFlags sel fids => exact exec_setDataFlags_completes hwf sel fids
  | isValid sel => exact (NeedsFrame.isValid (sel := sel)).completes fun hp => ⟨_, exec_isValid_present hp⟩
  | frameCrc sel => exact (NeedsFrame.frameCrc (sel := sel)).completes fun hp => ⟨_, exec_frameCrc_present hp⟩
  | serialize sel => exact (NeedsFrame.serialize (sel := sel)).completes fun hp => ⟨_, exec_serialize_present hp⟩
  | rxStart mode => exact ⟨_, exec_rxStart mode s⟩
  | rxAppend payload =>
    cases hd : s.done with
    | true => exact ⟨_, exec_rxAppend_done hd⟩
    | false =>
      obtain hfits | hfull := le_or_gt (s.rxbuf.length + payload.length) 256
      · exact ⟨_, exec_rxAppend_fits hd hfits⟩
      · exact ⟨_, exec_rxAppend_overflow hd hfull⟩
  | rxScan =>
    cases hd : s.done with
    | true => exact ⟨_, exec_rxScan_done hd⟩
    | false => exact ⟨_, exec_rxScan_running hd⟩
  | statusRead => exact ⟨_, exec_statusRead s⟩
  | cmdNothing => exact ⟨dropFrame s, rfl⟩
  | cmdGet => exact ⟨keepFrame s, rfl⟩
  | cmdSet => exact ⟨dropFrame s, rfl⟩
  | cmdButton => exact ⟨dropFrame s, rfl⟩
  | cmdShutdown => exact ⟨dropFrame s, rfl⟩

/-- The port answers every operation tuple: what does not decode raises ILLEGAL_OP. -/
theorem issue_completes (o : Operation) : Completes (issue o s) := by
  cases hdecode : decodeOperation o with
  | ok i => rw [issue_ok hdecode]; exact exec_completes (s := accept s) hwf i
  | error _ => exact ⟨_, issue_illegal hdecode⟩

end Completes

end Sys2Proof.Machine

namespace Sys2Proof.Safety

open Sys2Proof.Machine

/-! ### The statements -/

/-- Settles O36: a failed operation leaves the accepted state with its error raised, and that changes only ERR_STICKY and
the response. -/
theorem failedOperationChangesOnlyErrSticky : Obligations.FailedOperationChangesOnlyErrSticky := by
  refine ⟨by decide, ⟨rfl, fun e => by cases e <;> rfl⟩, ?_⟩
  intro o s t r e h hr he
  obtain ⟨-, info, rfl⟩ := issue_of_error h hr he
  cases hr
  exact ⟨sameButErrors_raised e info (accept s), raised_errSticky e info (accept s), rfl, rfl, rfl, rfl, rfl, rfl⟩

/-- Settles O37: the error that was raised is the port's own or one of the instruction's row. -/
theorem operationsRaiseOnlyTheirErrors : Obligations.OperationsRaiseOnlyTheirErrors := by
  intro o s t e r h hr he
  obtain ⟨hrow, -⟩ := issue_of_error h hr he
  exact hrow

/-- Settles O49: a step stops only where an operation does, and under 00_scope R9 none does. -/
theorem stepNeverStops : Obligations.StepNeverStops := by
  intro s hwf
  exact step_completes fun o u hconfig => issue_completes (hconfig ▸ hwf) o

end Sys2Proof.Safety
end

section
/-! The reset family (70_reset_and_hazards): reset leaves neither register with a frame (10_state R26), so what needs a
frame raises NO_FRAME until one is built (R302). -/

namespace Sys2Proof.Machine

/-- Reset clears both presence bits (10_state R38). -/
@[simp] theorem present_resetWith (c : Config) (sel : FrameSel) : (State.resetWith c).present sel = false := by
  cases sel with
  | tx => rfl
  | rx => rfl

/-- Every operation that needs a frame finds none after reset. -/
theorem NeedsFrame.exec_resetWith {sel : FrameSel} {i : Instr} (hi : NeedsFrame sel i) (c : Config) :
    exec i (State.resetWith c) = .next (raised .noFrame (selWord sel) (State.resetWith c)) :=
  hi.exec_absent (present_resetWith c sel)

end Sys2Proof.Machine

namespace Sys2Proof.Safety

open Sys2Proof.Machine

/-- Settles O53: the six operations are those that need a frame, and reset leaves none. -/
theorem frameOperationsNeedAFrameAfterReset : Obligations.FrameOperationsNeedAFrameAfterReset := by
  refine ⟨⟨rfl, rfl⟩, fun c sel i hi => ?_⟩
  have hneeds : NeedsFrame sel i := by
    obtain ⟨fid, rfl⟩ | ⟨fid, v, rfl⟩ | ⟨fids, rfl⟩ | rfl | rfl | rfl := hi
    · exact .fieldGet fid
    · exact .fieldSet fid v
    · exact .setDataFlags fids
    · exact .isValid
    · exact .frameCrc
    · exact .serialize
  exact hneeds.exec_resetWith c

end Sys2Proof.Safety
end
